-- ==== Sys2Proof/Word.lean ====
section
/-! DEFINITION. The two sizes of value the core moves: a byte of a memory and a 32-bit register. -/

namespace Sys2Proof

/-- A key, data or output byte: "an 8-bit unsigned value" (00_scope.md R9, R10). -/
abbrev Byte := BitVec 8

/-- A whole register as the host reads and writes it (10_state.md R22). -/
abbrev Word := BitVec 32

end Sys2Proof
end

