-- ==== Sys2Proof/Config.lean ====
section
/-! DEFINITION. What an implementation fixes: the parameters of 00_scope.md R7, those the spec leaves OPEN or
gives an alternative for as plain data (`Params`), the fixed ones as constants, and the free values of
93_implementation_defined.md as constants without a body. -/

namespace Sys2Proof

/-- `QUARTER_DIV`: how `block_size / 4` is evaluated (00_scope.md R7, 41_block_unshuffler.md R132). -/
inductive QuarterDiv where
  | floor   -- the hardware's value
  | exact   -- the named alternative
  deriving DecidableEq, Repr

/-- `PAST_END_POLICY`: a bit read past the last input bit (00_scope.md R7, 30_encoding.md R95). -/
inductive PastEnd where
  | failFast            -- the hardware's policy (R96)
  | zeroFillSaturating  -- the named alternative (R97)
  deriving DecidableEq, Repr

/-- The named arguments of the model (00_scope.md R7). `windowInit` lists the first bytes of `WINDOW_INIT`, every
later one being 0x00; in this hardware the list is empty (42_lzss_decoder.md R162). -/
structure Params where
  inCapacity  : Nat
  outCapacity : Nat
  quarterDiv  : QuarterDiv
  pastEnd     : PastEnd
  windowInit  : List Byte
  deriving DecidableEq, Repr

/-- The bounds 00_scope.md R7 puts on the two OPEN capacities. -/
abbrev Params.wf (p : Params) : Prop :=
  1 ≤ p.inCapacity ∧ p.inCapacity ≤ 2 ^ 29 - 1 ∧ p.outCapacity ≤ 2 ^ 32 - 1

/-- `WINDOW_INIT(i)` (42_lzss_decoder.md R162). -/
def Params.windowInitAt (p : Params) (i : Nat) : Byte := p.windowInit.getD i 0

/-- This hardware's policies, and the largest capacities R7 allows for the OPEN sizes (DESIGN CHOICE, log 3). -/
def Params.hardware : Params :=
  { inCapacity := 2 ^ 29 - 1, outCapacity := 2 ^ 32 - 1, quarterDiv := .floor, pastEnd := .failFast, windowInit := [] }

/-- `MAX_INDEX_SIZE` (00_scope.md R7). -/
def Config.maxIndexSize : Nat := 13

/-- `MAX_LENGTH_SIZE` (00_scope.md R7). -/
def Config.maxLengthSize : Nat := 16

/-- What a DATA byte holds at power-on: any value (93_implementation_defined.md items 8, 9; log 4). -/
opaque Config.powerOnData : Nat → Byte

/-- What a SNAP byte holds at power-on: any value (93_implementation_defined.md item 8; log 4). -/
opaque Config.powerOnSnap : Nat → Byte

/-- What a WIN byte holds at power-on: any value (93_implementation_defined.md items 8, 13; log 4). -/
opaque Config.powerOnWin : Nat → Byte

/-- An OUT byte of draw `d` that no Emit has written since that draw: any value (93_implementation_defined.md items 6, 7,
8; log 5). -/
opaque Config.freeOut : Nat → Nat → Byte

/-- DATA byte `i` after the reset of draw `d` came while a command ran: any value (93_implementation_defined.md item 10;
log 8). -/
opaque Config.resetMix : Nat → Nat → Byte

end Sys2Proof
end

