-- ==== Sys2Proof/Syntax.lean ====
section
/-! DEFINITION. The instructions: one constructor per row of spec/opcode_table.json. The first four are the command
words (30_encoding.md R80), whose operands are registers (R81); the last three are the tokens of the LZSS stream
(30_encoding.md R85), whose operands are fields of the token (R87). -/

namespace Sys2Proof

inductive Instr where
  | nop
  | decryptLegacy
  | decryptBlock
  | decompress
  /-- `LIT v` (42_lzss_decoder.md R173). -/
  | lit (value : Byte)
  /-- `MATCH off, len` (42_lzss_decoder.md R174). -/
  | matchCopy (offset len : Nat)
  /-- `END` (42_lzss_decoder.md R175). -/
  | endMark
  deriving DecidableEq, Repr

/-- The two field widths a token's encoding depends on: LZ_CFG.INDEX_SIZE and LZ_CFG.LENGTH_SIZE (30_encoding.md R85). -/
structure Format where
  indexSize  : Nat
  lengthSize : Nat
  deriving DecidableEq, Repr

/-- The default configuration, under which spec/opcode_table.json writes its token patterns (30_encoding.md R86). -/
def Format.default : Format := { indexSize := 13, lengthSize := 4 }

/-- Does the host give the instruction, as a command word, rather than the stream? (30_encoding.md R80, R84) -/
def Instr.isCommand : Instr → Bool
  | .nop => true
  | .decryptLegacy => true
  | .decryptBlock => true
  | .decompress => true
  | .lit _ => false
  | .matchCopy _ _ => false
  | .endMark => false

end Sys2Proof
end

