-- ==== Sys2Proof/WellFormed.lean ====
section
/-! DEFINITION. Which instructions exist under a format: the operand ranges of 30_encoding.md R85 and R87, and the legal
formats of 42_lzss_decoder.md R161. -/

namespace Sys2Proof

/-- The field widths DECOMPRESS accepts (42_lzss_decoder.md R161). -/
def Format.legal (f : Format) : Bool :=
  decide (f.indexSize ≤ Config.maxIndexSize) && decide (f.lengthSize ≤ Config.maxLengthSize)

/-- The offset of a MATCH is in 1..2^IS − 1 and its length field in 0..2^LS − 1 (30_encoding.md R87); every other
operand is legal at every value of its type. -/
def Instr.wf (f : Format) : Instr → Bool
  | .nop => true
  | .decryptLegacy => true
  | .decryptBlock => true
  | .decompress => true
  | .lit _ => true
  | .matchCopy off len => decide (1 ≤ off) && decide (off < 2 ^ f.indexSize) && decide (len < 2 ^ f.lengthSize)
  | .endMark => true

end Sys2Proof
end

