-- ==== Sys2Proof/Decode.lean ====
section
/-! DEFINITION. Decoding: a command word to a command (30_encoding.md R80), a bit sequence to a token (R85, R88), and the
encoder of both, written from the same tables. -/

namespace Sys2Proof

/-- The `n` low bits of `v`, most significant first, as the stream carries a field (20_memory.md R65). -/
def bitsOf : Nat → Nat → List Bool
  | 0, _ => []
  | n + 1, v => v.testBit n :: bitsOf n v

/-- Bits "accumulated into an unsigned integer by repeated shift-and-OR", first bit most significant (20_memory.md R65,
30_encoding.md R96). -/
def natOfBits (bits : List Bool) : Nat := bits.foldl (fun v b => 2 * v + b.toNat) 0

/-- The bits of a byte sequence in stream order (20_memory.md R65). -/
def bitsOfBytes (bytes : List Byte) : List Bool := bytes.flatMap fun b => bitsOf 8 b.toNat

/-- `n` bytes holding a bit sequence in stream order, the last one filled with zero bits. -/
def bytesOfBits : Nat → List Bool → List Byte
  | 0, _ => []
  | n + 1, bits =>
    BitVec.ofNat 8 (natOfBits ((bits.take 8) ++ List.replicate (8 - bits.length) false)) :: bytesOfBits n (bits.drop 8)

/-- Why a bit sequence gives no token: it ends before the named field does (30_encoding.md R88, R89). -/
inductive DecodeError where
  | noControlBit
  | literalCut
  | offsetCut
  | lengthCut
  deriving DecidableEq, Repr

/-- The next `n` bits as a number and the bits after them; nothing if fewer than `n` are left. -/
def takeField (n : Nat) (bits : List Bool) : Option (Nat × List Bool) :=
  if n ≤ bits.length then some (natOfBits (bits.take n), bits.drop n) else none

/-- The command a command word selects: only `v[1:0]` is decoded (30_encoding.md R80, R83). -/
def decodeCommand (v : Word) : Instr :=
  match v.toNat % 4 with
  | 0 => .nop
  | 1 => .decryptLegacy
  | 2 => .decryptBlock
  | _ => .decompress

/-- The token at the front of a bit sequence and the bits after it (30_encoding.md R85, R88). -/
def decodeToken (f : Format) : List Bool → Except DecodeError (Instr × List Bool)
  | [] => .error .noControlBit
  | true :: bits =>
    match takeField 8 bits with
    | none => .error .literalCut
    | some (v, rest) => .ok (.lit (BitVec.ofNat 8 v), rest)
  | false :: bits =>
    match takeField f.indexSize bits with
    | none => .error .offsetCut
    | some (off, bits') =>
      if off = 0 then .ok (.endMark, bits')
      else
        match takeField f.lengthSize bits' with
        | none => .error .lengthCut
        | some (len, rest) => .ok (.matchCopy off len, rest)

/-- An encoded instruction: a command word or the bits of a token. -/
inductive Code where
  | command (w : Word)
  | token (bits : List Bool)
  deriving DecidableEq, Repr

/-- Decoding, total on every code; the bits a token leaves over come with it. -/
def decode (f : Format) : Code → Except DecodeError (Instr × List Bool)
  | .command w => .ok (decodeCommand w, [])
  | .token bits => decodeToken f bits

/-- The bits of a token (30_encoding.md R85); a command has none. -/
def tokenBits (f : Format) : Instr → List Bool
  | .lit v => true :: bitsOf 8 v.toNat
  | .matchCopy off len => false :: (bitsOf f.indexSize off ++ bitsOf f.lengthSize len)
  | .endMark => false :: bitsOf f.indexSize 0
  | .nop => []
  | .decryptLegacy => []
  | .decryptBlock => []
  | .decompress => []

/-- CMD.OP of a command (30_encoding.md R80); a token has none. -/
def opOf : Instr → BitVec 2
  | .nop => 0
  | .decryptLegacy => 1
  | .decryptBlock => 2
  | .decompress => 3
  | .lit _ => 0
  | .matchCopy _ _ => 0
  | .endMark => 0

/-- The words of an instruction: a command word with its reserved bits 0 (30_encoding.md R83), or a token's bits. -/
def encode (f : Format) (i : Instr) : Code :=
  if i.isCommand then .command ((opOf i).setWidth 32) else .token (tokenBits f i)

/-- How many bits the pattern of a token row has when the row is `nbits` long in whole bytes and its number is `w`:
the patterns of spec/opcode_table.json are 9, 14 and 18 bits long, and of the two that fill two bytes only the
9-bit one has bit 8 set (log 16). -/
def tablePatternLength (nbits w : Nat) : Nat :=
  if 16 < nbits then 18 else if w.testBit 8 then 9 else 14

/-- Is a row of the opcode table that is `nbits` long a token? A command word is 32 bits, of which the table fixes the low
byte's; the token patterns fill two or three bytes (log 16). -/
def isTokenRow (nbits : Nat) : Bool := decide (8 < nbits) && decide (nbits ≤ 24)

/-- The stream bits of a token row's number: the pattern, first bit leftmost, is the number's low bits, bit 0 the last
of them; whatever follows is zeros, to four whole bytes. -/
def tableTokenBits (nbits w : Nat) : List Bool :=
  let n := tablePatternLength nbits w
  bitsOf n w ++ List.replicate (32 - n) false

/-- The instruction the decoder reads from an opcode-table word (log 16). -/
def decodeTableWord (nbits w : Nat) : Option Instr :=
  let code := if isTokenRow nbits then Code.token (tableTokenBits nbits w) else Code.command (BitVec.ofNat 32 w)
  match decode Format.default code with
  | .ok (i, _) => some i
  | .error _ => none

end Sys2Proof
end

