-- ==== Sys2Proof/Machine/State.lean ====
section
/-! DEFINITION. Everything the spec gives the machine (10_state.md), as plain data; the inputs the outside world has
still to make; the reasons a step can stop; and the state after reset (R47). -/

namespace Sys2Proof.Machine

/-- A step stops with a fault. -/
inductive Fault where
  /-- Raised by DECRYPT_BLOCK's guard on a DATA or SNAP index outside 0..L−1 (41_block_unshuffler.md R143,
  93_implementation_defined.md item 14). Safe: no state that a command's start leads to reaches it (R138). -/
  | blockIndexOutOfRange
  deriving DecidableEq, Repr

/-- A step has no meaning. -/
inductive Refusal where
  /-- An instruction that has no meaning in the model yet. Safe: nothing can be proved of it. -/
  | notModelled (mnemonic : String)
  /-- Raised by any host access other than a STATUS read while STATUS.STATE = BUSY (70_reset_and_hazards.md R250,
  93_implementation_defined.md item 11: `refuse`). Safe: the spec gives such a run no meaning. -/
  | hostAccessWhileBusy
  /-- Raised by a token's meaning outside READ_CONTROL of a running DECOMPRESS, where no token is read
  (30_encoding.md R84, 42_lzss_decoder.md R164; log 11). Safe: no step runs a token there. -/
  | tokenOutsideStream
  deriving DecidableEq, Repr

/-- The three error kinds of STATUS.ERR (60_exceptions.md R210). -/
inductive ErrKind where
  | formatInvalid
  | outOfRange
  | resourceExhaustion
  deriving DecidableEq, Repr

/-- STATUS.STATE together with STATUS.ERR, which is NONE exactly when STATE is not ERROR (10_state.md R24). -/
inductive Status where
  | idle
  | busy
  | done
  | error (e : ErrKind)
  deriving DecidableEq, Repr

/-- The states of the LZSS decoder (10_state.md R46). -/
inductive Fsm where
  | readControl
  | emitLiteral
  | emitMatch
  | terminated
  | invalid
  deriving DecidableEq, Repr

/-- Which pass of a block DECRYPT_BLOCK is in (10_state.md R38, 41_block_unshuffler.md R135, R136). -/
inductive Pass where
  | first
  | second
  deriving DecidableEq, Repr

/-- The host-visible registers by their defined fields (10_state.md R22 to R33); a reserved bit has no storage (R34). -/
structure Regs where
  op         : BitVec 2
  status     : Status
  inLen      : Word
  outLen     : Word
  key        : Byte
  start      : Word
  blockSize  : Word
  base       : Byte
  add        : Byte
  indexSize  : BitVec 5
  lengthSize : BitVec 5
  minLength  : Byte
  initWidx   : Word
  bitpos     : Word
  deriving DecidableEq, Repr

/-- The working registers (10_state.md R36), the pass of DECRYPT_BLOCK (R38) and whether EMIT_MATCH is in its copy loop
(42_lzss_decoder.md R166, R169; log 15). `tp1` and `tp2` are integers (41_block_unshuffler.md R137). -/
structure Work where
  i       : Word
  k       : Byte
  l       : Word
  left    : Word
  p       : Word
  p0      : Word
  b       : Word
  tp1     : Int
  tp2     : Int
  j       : Word
  pass    : Pass
  kb      : Byte
  total   : Word
  brPos   : Word
  w       : BitVec 14
  wcur    : BitVec 13
  moff    : BitVec 13
  mcnt    : Word
  optr    : Word
  fsm     : Fsm
  copying : Bool
  deriving DecidableEq, Repr

/-- A byte memory: the bytes written in it, addresses strictly rising. What an address that is not listed reads as is
said where each memory is read (Machine/Ops.lean). -/
abbrev Memory := List Host.Cell

/-- What the host or the platform does next (30_encoding.md R100, 70_reset_and_hazards.md R240; log 1). -/
inductive Event where
  /-- A host write of `v` to CMD whose command runs to its end as one transaction (60_exceptions.md R211, 00_scope.md R15;
  log 2). -/
  | command (v : Word)
  /-- `HostWriteReg(off, v)` (20_memory.md R64); at CMD it only starts the command, which the core then runs step by step. -/
  | writeReg (off : Nat) (v : Word)
  /-- `HostReadReg(off)` (20_memory.md R64). -/
  | readReg (off : Nat)
  /-- `HostWriteData(i, v)` (20_memory.md R61). -/
  | writeData (i : Nat) (v : Byte)
  /-- `HostReadData(i)` (20_memory.md R61). -/
  | readData (i : Nat)
  /-- `HostReadOut(i)` (20_memory.md R61). -/
  | readOut (i : Nat)
  /-- `wait`: STATUS is read until STATE is not BUSY (30_encoding.md R100). -/
  | wait
  /-- The outside does nothing while the core makes one step. -/
  | core
  /-- The outside does nothing while the core makes one micro-step (40_stream_cipher.md R113, 41_block_unshuffler.md R148,
  42_lzss_decoder.md R185). -/
  | micro
  /-- The platform asserts and releases reset (70_reset_and_hazards.md R240). -/
  | reset
  deriving DecidableEq, Repr

/-- What a host read returned (log 18). -/
inductive Reply where
  | word (v : Word)
  | byte (v : Byte)
  deriving DecidableEq, Repr

/-- The whole machine. `winFilled` counts the low WIN entries that hold WINDOW_INIT unless they are listed
(42_lzss_decoder.md R162; log 7), `draws` says which draw of free values the unlisted OUT bytes come from (log 5). -/
structure State where
  par       : Params
  regs      : Regs
  work      : Work
  data      : Memory
  out       : Memory
  snap      : Memory
  win       : Memory
  winFilled : Nat
  draws     : Nat
  inputs    : List Event
  replies   : List Reply
  deriving DecidableEq, Repr

/-- The register file after reset (10_state.md R47). -/
def Regs.reset : Regs :=
  { op := 0, status := .idle, inLen := 0, outLen := 0, key := 0, start := 0, blockSize := 0, base := 0, add := 0
    indexSize := 13, lengthSize := 4, minLength := 3, initWidx := 1, bitpos := 0 }

/-- The working registers after reset, where the spec leaves them unspecified (DESIGN CHOICE, log 6). -/
def Work.reset : Work :=
  { i := 0, k := 0, l := 0, left := 0, p := 0, p0 := 0, b := 0, tp1 := 0, tp2 := 0, j := 0, pass := .first, kb := 0
    total := 0, brPos := 0, w := 0, wcur := 0, moff := 0, mcnt := 0, optr := 0, fsm := .readControl, copying := false }

/-- The machine right after power-on reset (10_state.md R47, 70_reset_and_hazards.md R240 to R242). -/
def State.reset : State :=
  { par := Params.hardware, regs := Regs.reset, work := Work.reset, data := [], out := [], snap := [], win := []
    winFilled := 0, draws := 0, inputs := [], replies := [] }

end Sys2Proof.Machine
end

