-- ==== Sys2Proof/Machine/Flags.lean ====
section
/-! DEFINITION. The core has no condition codes (10_state.md R39); the only status bits are those of STATUS. This file
holds their codes, and the 32-bit words the registers read as, field by field (10_state.md R22). -/

namespace Sys2Proof.Machine

/-- The code of STATUS.STATE (10_state.md R24). -/
def Status.stateCode : Status → BitVec 2
  | .idle => 0
  | .busy => 1
  | .done => 2
  | .error _ => 3

/-- The code of an error kind in STATUS.ERR (60_exceptions.md R210). -/
def ErrKind.code : ErrKind → BitVec 2
  | .formatInvalid => 1
  | .outOfRange => 2
  | .resourceExhaustion => 3

/-- The code of STATUS.ERR (10_state.md R24). -/
def Status.errCode : Status → BitVec 2
  | .idle => 0
  | .busy => 0
  | .done => 0
  | .error e => e.code

/-- A field of width `n` placed at bit `lo` of a register whose other bits are 0 (00_scope.md R11). -/
def fieldAt {n : Nat} (lo : Nat) (v : BitVec n) : Word := v.setWidth 32 <<< lo

/-- The field `v[lo + n − 1 : lo]` of a register value (00_scope.md R11). -/
def fieldOf (n lo : Nat) (v : Word) : BitVec n := v.extractLsb' lo n

/-- What STATUS reads as (10_state.md R24). -/
def Status.word (st : Status) : Word := fieldAt 0 st.stateCode ||| fieldAt 2 st.errCode

/-- What BASE_ADD reads as (10_state.md R30). -/
def Regs.baseAddWord (r : Regs) : Word := fieldAt 0 r.base ||| fieldAt 8 r.add

/-- What LZ_CFG reads as (10_state.md R31). -/
def Regs.lzCfgWord (r : Regs) : Word :=
  fieldAt 0 r.indexSize ||| fieldAt 8 r.lengthSize ||| fieldAt 16 r.minLength

/-- What a read of the register at byte offset `off` returns (10_state.md R22, R34; 20_memory.md R64). -/
def Regs.read (r : Regs) : Nat → Word
  | 0x00 => fieldAt 0 r.op
  | 0x04 => r.status.word
  | 0x08 => r.inLen
  | 0x0C => r.outLen
  | 0x10 => fieldAt 0 r.key
  | 0x14 => r.start
  | 0x18 => r.blockSize
  | 0x1C => r.baseAddWord
  | 0x20 => r.lzCfgWord
  | 0x24 => r.initWidx
  | 0x28 => r.bitpos
  | _ => 0

/-- The register file after a host write of `v` at byte offset `off` has stored its fields (10_state.md R22, R34;
20_memory.md R64). STATUS, OUT_LEN and LZ_BITPOS ignore it; what a CMD write starts is not said here. -/
def Regs.write (r : Regs) (off : Nat) (v : Word) : Regs :=
  match off with
  | 0x00 => { r with op := fieldOf 2 0 v }
  | 0x08 => { r with inLen := v }
  | 0x10 => { r with key := fieldOf 8 0 v }
  | 0x14 => { r with start := v }
  | 0x18 => { r with blockSize := v }
  | 0x1C => { r with base := fieldOf 8 0 v, add := fieldOf 8 8 v }
  | 0x20 => { r with indexSize := fieldOf 5 0 v, lengthSize := fieldOf 5 8 v, minLength := fieldOf 8 16 v }
  | 0x24 => { r with initWidx := v }
  | _ => r

end Sys2Proof.Machine
end

