-- ==== Sys2Proof/Machine/Operands.lean ====
section
/-! DEFINITION. The operands of the commands: each a register field taken as an unsigned number, nothing extended by
sign, scaled or shifted (30_encoding.md R81, R82). -/

namespace Sys2Proof.Machine

/-- IS, IS = LZ_CFG.INDEX_SIZE as a number. -/
def State.indexSize (s : State) : Nat := s.regs.indexSize.toNat

/-- LS = LZ_CFG.LENGTH_SIZE as a number. -/
def State.lengthSize (s : State) : Nat := s.regs.lengthSize.toNat

/-- ML = LZ_CFG.MIN_LENGTH as a number. -/
def State.minLength (s : State) : Nat := s.regs.minLength.toNat

/-- IW = LZ_INIT_WIDX.INIT_WIDX as a number. -/
def State.initWidx (s : State) : Nat := s.regs.initWidx.toNat

/-- bs = BLOCK_SIZE.BLOCK_SIZE as a number. -/
def State.blockSize (s : State) : Nat := s.regs.blockSize.toNat

/-- The field widths of the token stream (30_encoding.md R85). -/
def State.format (s : State) : Format := { indexSize := s.indexSize, lengthSize := s.lengthSize }

/-- Is a command running? (10_state.md R24) -/
def State.isBusy (s : State) : Bool := decide (s.regs.status = .busy)

end Sys2Proof.Machine
end

