-- ==== Sys2Proof/Machine/Ops.lean ====
section
/-! DEFINITION. The operations the instructions share: byte memories, starting and ending a command (60_exceptions.md
R211, R213, R214, R216), the bit reader (30_encoding.md R93 to R98) and Emit (42_lzss_decoder.md R168). -/

namespace Sys2Proof.Machine

/-! ### Byte memories in canonical form -/

/-- The byte listed at an address, if one is. -/
def Memory.get : Memory → Nat → Option Byte
  | [], _ => none
  | (b, v) :: m, a => if a = b then some v else Memory.get m a

/-- The memory with `v` listed at address `a`, the addresses still strictly rising. -/
def Memory.set : Memory → Nat → Byte → Memory
  | [], a, v => [(a, v)]
  | (b, u) :: m, a, v =>
    if a < b then (a, v) :: (b, u) :: m
    else if a = b then (a, v) :: m
    else (b, u) :: Memory.set m a v

/-- The memory with nothing listed at address `a`. -/
def Memory.erase (m : Memory) (a : Nat) : Memory := m.filter fun c => decide (c.1 ≠ a)

/-- The memory with nothing listed below address `n`. -/
def Memory.dropBelow (m : Memory) (n : Nat) : Memory := m.filter fun c => decide (n ≤ c.1)

/-- The canonical form: addresses strictly rising. No listed byte can equal what its address reads as unlisted, since that
is no known byte (logs 4, 5); WIN, where it can be known, has `winCanonical` besides. -/
abbrev Memory.wf (m : Memory) : Prop := m.Pairwise fun c d => c.1 < d.1

/-- Every listed address is inside a memory of `n` bytes. -/
abbrev Memory.within (m : Memory) (n : Nat) : Prop := ∀ c ∈ m, c.1 < n

/-- `DATA[i]` (20_memory.md R62); a byte never written is whatever power-on left (70_reset_and_hazards.md R245). -/
def State.readData (s : State) (i : Nat) : Byte := (s.data.get i).getD (Config.powerOnData i)

/-- `DATA[i] <- v` (20_memory.md R62). -/
def State.writeData (s : State) (i : Nat) (v : Byte) : State := { s with data := s.data.set i v }

/-- `SNAP[i]` (10_state.md R44). -/
def State.readSnap (s : State) (i : Nat) : Byte := (s.snap.get i).getD (Config.powerOnSnap i)

/-- `SNAP[i] <- v` (10_state.md R44). -/
def State.writeSnap (s : State) (i : Nat) (v : Byte) : State := { s with snap := s.snap.set i v }

/-- `OUT[i]` (10_state.md R42); a byte no Emit of the last DECOMPRESS wrote is any value. -/
def State.readOut (s : State) (i : Nat) : Byte := (s.out.get i).getD (Config.freeOut s.draws i)

/-- `OUT[i] <- v` (42_lzss_decoder.md R168). -/
def State.writeOut (s : State) (i : Nat) (v : Byte) : State := { s with out := s.out.set i v }

/-- Every OUT byte becomes any value: a new draw, nothing listed (10_state.md R42; log 5). -/
def State.forgetOut (s : State) : State := { s with out := [], draws := s.draws + 1 }

/-- `WIN[i]` (10_state.md R43): WINDOW_INIT where it was filled and not written since. -/
def State.readWin (s : State) (i : Nat) : Byte :=
  (s.win.get i).getD (if i < s.winFilled then s.par.windowInitAt i else Config.powerOnWin i)

/-- `WIN[i] <- v`: writing what the unlisted entry reads as removes the entry. The spec does not define WIN between commands
(10_state.md R43); that the bytes written stay there is the model's choice (DESIGN CHOICE, log 27). -/
def State.writeWin (s : State) (i : Nat) (v : Byte) : State :=
  if i < s.winFilled ∧ v = s.par.windowInitAt i then { s with win := s.win.erase i }
  else { s with win := s.win.set i v }

/-- `for i in 0 .. n-1: WIN[i] <- WINDOW_INIT(i)` (42_lzss_decoder.md R162). -/
def State.fillWin (s : State) (n : Nat) : State :=
  { s with win := s.win.dropBelow n, winFilled := max s.winFilled n }

/-- No WIN entry below the filled bound is listed with the byte it would read as unlisted. -/
abbrev State.winCanonical (s : State) : Prop :=
  ∀ c ∈ s.win, c.1 < s.winFilled → c.2 ≠ s.par.windowInitAt c.1

/-! ### Sequencing -/

/-- Where a piece of a command leaves the machine: it goes on, the command has ended, or its guard has failed. -/
inductive Flow where
  | go (s : State)
  | stop (s : State)
  | fault (r : Fault)
  deriving DecidableEq, Repr

/-- Go on with `f` unless the command has ended. -/
def Flow.andThen : Flow → (State → Flow) → Flow
  | .go s, f => f s
  | .stop s, _ => .stop s
  | .fault r, _ => .fault r

/-- `repeat n: body` (00_scope.md R12). -/
def repeatFlow : Nat → (State → Flow) → State → Flow
  | 0, _, s => .go s
  | n + 1, f, s => (f s).andThen (repeatFlow n f)

/-- The outcome of a step that has run this far. -/
def Flow.outcome : Flow → Host.Outcome State Fault Refusal
  | .go s => .next s
  | .stop s => .next s
  | .fault r => .fault r

/-! ### Starting and ending a command -/

/-- The first lines of a CMD write with a non-zero OP: OP stored, BUSY, no error, OUT_LEN 0 (60_exceptions.md R211). -/
def State.startCommand (s : State) (op : BitVec 2) : State :=
  { s with regs := { s.regs with op := op, status := .busy, outLen := 0 } }

/-- `finish(n)` (60_exceptions.md R213). -/
def State.finish (s : State) (n : Word) : State :=
  { s with regs := { s.regs with outLen := n, status := .done } }

/-- What a raise during DECOMPRESS does besides: LZ_BITPOS and the INVALID state (60_exceptions.md R214,
42_lzss_decoder.md R172). -/
def State.failStream (s : State) (initRun : Bool) : State :=
  { s with
    regs := { s.regs with bitpos := if initRun then s.work.brPos else 0 }
    work := { s.work with fsm := .invalid } }

/-- `raise(E)` (60_exceptions.md R214): the one way a command ends in ERROR. `initRun` says whether DECOMPRESS's Init has
run. After it no OUT byte is defined, whichever command raised (10_state.md R42; logs 5, 10). -/
def State.raise (s : State) (e : ErrKind) (initRun : Bool) : State :=
  let t := if s.regs.op = 3 then s.failStream initRun else s
  { t.forgetOut with regs := { t.regs with outLen := 0, status := .error e } }

/-- The length check every command other than NOP makes first: L <- IN_LEN, and OUT_OF_RANGE if L > IN_CAPACITY
(60_exceptions.md R216). -/
def State.checkLength (s : State) : Flow :=
  let t := { s with work := { s.work with l := s.regs.inLen } }
  if s.par.inCapacity < s.regs.inLen.toNat then .stop (t.raise .outOfRange false) else .go t

/-- A host access is refused while a command runs (70_reset_and_hazards.md R250). -/
def State.unlessBusy (s : State) (o : Host.Outcome State Fault Refusal) : Host.Outcome State Fault Refusal :=
  if s.isBusy then .refused .hostAccessWhileBusy else o

/-! ### The bit reader -/

/-- `Bit(q)` (30_encoding.md R94). -/
def State.streamBit (s : State) (q : Nat) : Bool := (s.readData (q / 8)).toNat.testBit (7 - q % 8)

/-- The `n` stream bits from `q` on. -/
def State.streamBits (s : State) (q : Nat) : Nat → List Bool
  | 0 => []
  | n + 1 => s.streamBit q :: s.streamBits (q + 1) n

/-- The stream bits not yet consumed. -/
def State.bitsLeft (s : State) : Nat := s.work.total.toNat - s.work.brPos.toNat

/-- The next `n` bits under zero_fill_saturating: those that are left, then zeros (30_encoding.md R97). -/
def State.paddedBits (s : State) (n : Nat) : List Bool :=
  s.streamBits s.work.brPos.toNat (min n s.bitsLeft) ++ List.replicate (n - min n s.bitsLeft) false

/-- The cursor moved on by `n` bits. -/
def State.advance (s : State) (n : Nat) : State :=
  { s with work := { s.work with brPos := s.work.brPos + BitVec.ofNat 32 n } }

/-- `ReadBits(n)` under PAST_END_POLICY (30_encoding.md R95 to R98), its value and the state given to `k`. -/
def State.withBits (s : State) (n : Nat) (k : Nat → State → Flow) : Flow :=
  match s.par.pastEnd with
  | .failFast =>
    if s.work.total.toNat < s.work.brPos.toNat + n then .stop (s.raise .formatInvalid true)
    else k (natOfBits (s.streamBits s.work.brPos.toNat n)) (s.advance n)
  | .zeroFillSaturating => k (natOfBits (s.paddedBits n)) (s.advance (min n s.bitsLeft))

/-- The cursor's part of `ReadBits(n)`, where the value is already known. -/
def State.skipBits (s : State) (n : Nat) (k : State → Flow) : Flow := s.withBits n fun _ t => k t

/-! ### Producing a byte -/

/-- The next window index (42_lzss_decoder.md R167). -/
def State.windowSucc (s : State) (x : BitVec 13) : BitVec 13 := BitVec.ofNat 13 ((x.toNat + 1) % s.work.w.toNat)

/-- `Emit(v)` (42_lzss_decoder.md R168), going on with `k`. -/
def State.emit (s : State) (v : Byte) (k : State → Flow) : Flow :=
  if s.work.optr.toNat = s.par.outCapacity then .stop (s.raise .resourceExhaustion true)
  else
    let t := (s.writeOut s.work.optr.toNat v).writeWin s.work.wcur.toNat v
    k { t with work := { s.work with optr := s.work.optr + 1, wcur := s.windowSucc s.work.wcur } }

end Sys2Proof.Machine
end

