-- ==== Sys2Proof/Machine/Block.lean ====
section
/-! DEFINITION. DECRYPT_BLOCK, the block unshuffler (41_block_unshuffler.md): its initial step, the iteration of each
pass, its byte step, and the whole command as one transaction. -/

namespace Sys2Proof.Machine

/-- Is the remainder short enough to be left out? (41_block_unshuffler.md R132) -/
def trimmed (q : QuarterDiv) (rem bs : Nat) : Bool :=
  match q with
  | .floor => decide (rem < bs / 4)
  | .exact => decide (4 * rem < bs)

/-- `ActiveLength(L, bs)` (41_block_unshuffler.md R132). -/
def activeLength (q : QuarterDiv) (len bs : Nat) : Nat :=
  let left := if trimmed q (len % bs) bs then len - len % bs else len
  if 0 < left ∧ len % 2 = 1 then left - 1 else left

/-- `for i in 0 .. n-1: SNAP[i] <- DATA[i]` (41_block_unshuffler.md R133). The spec does not define SNAP between commands
(10_state.md R44); that the bytes copied stay there is the model's choice (DESIGN CHOICE, log 27). -/
def State.snapshot (s : State) : Nat → State
  | 0 => s
  | n + 1 => (s.snapshot n).writeSnap n (s.readData n)

/-- The initial step: the CMD write, the two checks, the snapshot, LEFT, KB and P; no block is open, J = 0
(41_block_unshuffler.md R130, R131, R148). -/
def beginBlock (s : State) : Flow :=
  (s.startCommand 2).checkLength.andThen fun s =>
    if s.blockSize = 0 then .stop (s.raise .outOfRange false)
    else
      let t := s.snapshot s.work.l.toNat
      .go { t with
        work := { s.work with
          left := BitVec.ofNat 32 (activeLength s.par.quarterDiv s.work.l.toNat s.blockSize)
          kb := s.regs.base, p := 0, j := 0 } }

/-- The set-up of a block and of its first pass (41_block_unshuffler.md R130, R134). -/
def openBlock (s : State) : State :=
  let b := min s.blockSize s.work.left.toNat
  { s with
    work := { s.work with
      b := BitVec.ofNat 32 b, p0 := s.work.p
      tp1 := (s.work.p.toNat : Int) + b - 1, tp2 := (s.work.p.toNat : Int) + b - 2
      j := BitVec.ofNat 32 ((b + 1) / 2), pass := .first } }

/-- The set-up of a block's second pass (41_block_unshuffler.md R130, R136). -/
def openSecond (s : State) : State :=
  { s with work := { s.work with j := BitVec.ofNat 32 (s.work.b.toNat / 2), pass := .second } }

/-- The end of a block (41_block_unshuffler.md R130). -/
def closeBlock (s : State) : State := { s with work := { s.work with left := s.work.left - s.work.b } }

/-- `DATA[t] <- SNAP[P] xor KB`, `KB <- KB +8 ADD`, `P <- P + 1` and one iteration less, under the guard of
41_block_unshuffler.md R143 on both indices. -/
def putByte (s : State) (t : Int) (k : State → Flow) : Flow :=
  if 0 ≤ t ∧ t < s.work.l.toNat ∧ s.work.p.toNat < s.work.l.toNat then
    let u := s.writeData t.toNat (s.readSnap s.work.p.toNat ^^^ s.work.kb)
    k { u with
      work := { s.work with kb := s.work.kb + s.regs.add, p := s.work.p + 1, j := s.work.j - 1 } }
  else .fault .blockIndexOutOfRange

/-- One iteration of the first pass (41_block_unshuffler.md R135). -/
def firstPassByte (s : State) : Flow :=
  putByte s s.work.tp1 fun s => .go { s with work := { s.work with tp1 := s.work.tp1 - 2 } }

/-- One iteration of the second pass (41_block_unshuffler.md R136). -/
def secondPassByte (s : State) : Flow :=
  putByte s s.work.tp2 fun s => .go { s with work := { s.work with tp2 := s.work.tp2 - 2 } }

/-- A whole block: both passes (41_block_unshuffler.md R130). -/
def runBlock (s : State) : Flow :=
  let t := openBlock s
  (repeatFlow t.work.j.toNat firstPassByte t).andThen fun s =>
    let u := openSecond s
    (repeatFlow u.work.j.toNat secondPassByte u).andThen fun s => .go (closeBlock s)

/-- `while LEFT > 0`, at most `n` blocks: each takes at least one byte off LEFT (41_block_unshuffler.md R130). -/
def blockLoop : Nat → State → Flow
  | 0, s => .go s
  | n + 1, s => if s.work.left.toNat = 0 then .go s else (runBlock s).andThen (blockLoop n)

/-- All blocks and finish(L) (41_block_unshuffler.md R130). -/
def blockRun (s : State) : Flow :=
  (blockLoop s.work.left.toNat s).andThen fun s => .stop (s.finish s.work.l)

/-- After a byte: the second pass follows the first, and a block whose passes are done is closed. -/
def settleBlock (s : State) : State :=
  let t := if s.work.j = 0 ∧ s.work.pass = .first then openSecond s else s
  if t.work.j = 0 then closeBlock t else t

/-- The byte step: the block set-up folded into the first byte of a block, one iteration of a pass; or the final step
(41_block_unshuffler.md R148). -/
def blockStep (s : State) : Flow :=
  if s.work.j = 0 ∧ s.work.left = 0 then .stop (s.finish s.work.l)
  else
    let t := if s.work.j = 0 then openBlock s else s
    (match t.work.pass with
      | .first => firstPassByte t
      | .second => secondPassByte t).andThen fun s => .go (settleBlock s)

/-- DECRYPT_BLOCK as one transaction (41_block_unshuffler.md R130). -/
def execDecryptBlock (s : State) : Host.Outcome State Fault Refusal :=
  s.unlessBusy ((beginBlock s).andThen blockRun).outcome

end Sys2Proof.Machine
end

