-- ==== Sys2Proof/Machine/Control.lean ====
section
/-! DEFINITION. NOP: the command word with OP = 0 (60_exceptions.md R212). -/

namespace Sys2Proof.Machine

/-- NOP stores OP = 0 in CMD and changes nothing else (60_exceptions.md R212). -/
def State.storeNop (s : State) : State := { s with regs := { s.regs with op := 0 } }

/-- NOP (60_exceptions.md R212); as any CMD write, refused while BUSY (R250). -/
def execNop (s : State) : Host.Outcome State Fault Refusal := s.unlessBusy (.next s.storeNop)

end Sys2Proof.Machine
end

