-- ==== Sys2Proof/Machine/Legacy.lean ====
section
/-! DEFINITION. DECRYPT_LEGACY, the additive stream cipher (40_stream_cipher.md): its initial step, its byte step, and
the whole command as one transaction. -/

namespace Sys2Proof.Machine

/-- The running key's step (40_stream_cipher.md R110; 00_scope.md R7). -/
def legacyKeyStep : Byte := 7

/-- The initial step: the CMD write, the length check, K and I (40_stream_cipher.md R110, R113). -/
def beginLegacy (s : State) : Flow :=
  (s.startCommand 1).checkLength.andThen fun s =>
    .go { s with work := { s.work with k := s.regs.key, i := s.regs.start } }

/-- One iteration of the loop: DATA[I] <- DATA[I] −8 K; K <- K +8 7; I <- I + 1 (40_stream_cipher.md R110). -/
def legacyByte (s : State) : State :=
  let t := s.writeData s.work.i.toNat (s.readData s.work.i.toNat - s.work.k)
  { t with work := { s.work with k := s.work.k + legacyKeyStep, i := s.work.i + 1 } }

/-- `LegacyStep` (40_stream_cipher.md R113). -/
def legacyStep (s : State) : Flow :=
  if s.work.i.toNat < s.work.l.toNat then .go (legacyByte s) else .stop (s.finish s.work.l)

/-- The loop, which runs max(0, L − I) times, and finish(L) (40_stream_cipher.md R110, R113). -/
def legacyRun (s : State) : Flow :=
  (repeatFlow (s.work.l.toNat - s.work.i.toNat) (fun s => .go (legacyByte s)) s).andThen fun s =>
    .stop (s.finish s.work.l)

/-- DECRYPT_LEGACY as one transaction (40_stream_cipher.md R110). -/
def execDecryptLegacy (s : State) : Host.Outcome State Fault Refusal :=
  s.unlessBusy ((beginLegacy s).andThen legacyRun).outcome

end Sys2Proof.Machine
end

