-- ==== Sys2Proof/Machine/Lzss.lean ====
section
/-! DEFINITION. DECOMPRESS, the LZSS decoder (42_lzss_decoder.md): its initial step, the transitions of its state machine,
its micro-step, and the whole command as one transaction. -/

namespace Sys2Proof.Machine

/-- `CheckParams()` (42_lzss_decoder.md R161), in the order of 60_exceptions.md R217. -/
def badParams (s : State) : Bool :=
  decide (Config.maxIndexSize < s.indexSize) || decide (Config.maxLengthSize < s.lengthSize)
    || decide (2 ^ s.indexSize ≤ s.initWidx)

/-- `Init()` (42_lzss_decoder.md R162). OUT has no defined byte from here until a DONE gives it some (10_state.md R42). -/
def initStream (s : State) : State :=
  let t := (s.fillWin (2 ^ s.indexSize)).forgetOut
  { t with
    work := { s.work with
      w := BitVec.ofNat 14 (2 ^ s.indexSize), wcur := BitVec.ofNat 13 s.initWidx
      total := BitVec.ofNat 32 (8 * s.work.l.toNat), brPos := 0, optr := 0, fsm := .readControl, copying := false } }

/-- The initial step: the CMD write, the checks, Init (42_lzss_decoder.md R160, R185). -/
def beginDecompress (s : State) : Flow :=
  (s.startCommand 3).checkLength.andThen fun s =>
    if badParams s then .stop (s.raise .outOfRange false) else .go (initStream s)

/-- The decoder's state changed. -/
def State.toFsm (s : State) (f : Fsm) : State := { s with work := { s.work with fsm := f } }

/-- EMIT_MATCH entered at a window index, its length not yet read (42_lzss_decoder.md R164). -/
def State.toMatch (s : State) (off : Nat) : State :=
  { s with work := { s.work with moff := BitVec.ofNat 13 off, fsm := .emitMatch, copying := false } }

/-- READ_CONTROL (42_lzss_decoder.md R164). -/
def readControl (s : State) : Flow :=
  s.withBits 1 fun c s =>
    if c = 1 then .go (s.toFsm .emitLiteral)
    else s.withBits s.indexSize fun off s =>
      if off = 0 then .go (s.toFsm .terminated) else .go (s.toMatch off)

/-- A literal's byte produced, and back to READ_CONTROL (42_lzss_decoder.md R165). -/
def putLiteral (v : Byte) (s : State) : Flow := s.emit v fun s => .go (s.toFsm .readControl)

/-- EMIT_LITERAL (42_lzss_decoder.md R165). -/
def emitLiteral (s : State) : Flow := s.withBits 8 fun v s => putLiteral (BitVec.ofNat 8 v) s

/-- The copy loop set up for `count` bytes; a count of 0 goes straight back to READ_CONTROL (42_lzss_decoder.md R166,
R169). -/
def startCopy (count : Nat) (s : State) : State :=
  { s with
    work := { s.work with
      mcnt := BitVec.ofNat 32 count
      copying := decide (count ≠ 0)
      fsm := if count = 0 then .readControl else .emitMatch } }

/-- EMIT_MATCH, entry (42_lzss_decoder.md R166). -/
def enterMatch (s : State) : Flow := s.withBits s.lengthSize fun n s => .go (startCopy (n + s.minLength) s)

/-- The end of a copy step: MOFF moves on, one copy less, and READ_CONTROL after the last (42_lzss_decoder.md R169, R170). -/
def afterCopy (s : State) : State :=
  { s with
    work := { s.work with
      moff := s.windowSucc s.work.moff, mcnt := s.work.mcnt - 1
      copying := decide (s.work.mcnt ≠ 1)
      fsm := if s.work.mcnt = 1 then .readControl else .emitMatch } }

/-- The copy step: the window is read before it is written (42_lzss_decoder.md R170). -/
def copyStep (s : State) : Flow := s.emit (s.readWin s.work.moff.toNat) fun s => .go (afterCopy s)

/-- The whole copy loop for `count` bytes (42_lzss_decoder.md R169). -/
def copyMatch (count : Nat) (s : State) : Flow :=
  repeatFlow (startCopy count s).work.mcnt.toNat copyStep (startCopy count s)

/-- TERMINATED (42_lzss_decoder.md R171). -/
def terminated (s : State) : Flow :=
  let t := { s with regs := { s.regs with bitpos := s.work.brPos } }
  .stop (if s.work.brPos = s.work.total then t.finish s.work.optr else t.raise .formatInvalid true)

/-- One transition of the state machine or one copy step (42_lzss_decoder.md R185). -/
def lzssStep (s : State) : Flow :=
  match s.work.fsm with
  | .readControl => readControl s
  | .emitLiteral => emitLiteral s
  | .emitMatch => if s.work.copying then copyStep s else enterMatch s
  | .terminated => terminated s
  | .invalid => .go s

/-- One turn of the token loop (42_lzss_decoder.md R160). -/
def decodeOne (s : State) : Flow :=
  (readControl s).andThen fun s =>
    match s.work.fsm with
    | .emitLiteral => emitLiteral s
    | .emitMatch => s.withBits s.lengthSize fun n s => copyMatch (n + s.minLength) s
    | .terminated => terminated s
    | .readControl => .go s
    | .invalid => .go s

/-- The token loop, which a stream of TOTAL bits leaves within TOTAL + 1 turns (42_lzss_decoder.md R160, R178). -/
def streamRun (s : State) : Flow := repeatFlow (s.work.total.toNat + 1) decodeOne s

/-- DECOMPRESS as one transaction (42_lzss_decoder.md R160). -/
def execDecompress (s : State) : Host.Outcome State Fault Refusal :=
  s.unlessBusy ((beginDecompress s).andThen streamRun).outcome

end Sys2Proof.Machine
end

