-- ==== Sys2Proof/Machine/Tokens.lean ====
section
/-! DEFINITION. The tokens of the LZSS stream as instructions (42_lzss_decoder.md R173 to R175): what the decoder does with
a token whose fields are already known. -/

namespace Sys2Proof.Machine

/-- Is the decoder about to read a token? (42_lzss_decoder.md R164) -/
def State.atToken (s : State) : Bool :=
  s.isBusy && decide (s.regs.op = 3) && decide (s.work.fsm = .readControl)

/-- A token is read only there (30_encoding.md R84; log 11). -/
def State.onlyAtToken (s : State) (f : Flow) : Host.Outcome State Fault Refusal :=
  if s.atToken then f.outcome else .refused .tokenOutsideStream

/-- LIT v (42_lzss_decoder.md R173). -/
def execLit (v : Byte) (s : State) : Host.Outcome State Fault Refusal :=
  s.onlyAtToken (s.skipBits 1 fun s => (s.toFsm .emitLiteral).skipBits 8 (putLiteral v))

/-- MATCH off, len (42_lzss_decoder.md R174). -/
def execMatch (off len : Nat) (s : State) : Host.Outcome State Fault Refusal :=
  s.onlyAtToken (s.skipBits 1 fun s => s.skipBits s.indexSize fun s =>
    (s.toMatch off).skipBits s.lengthSize fun s => copyMatch (len + s.minLength) s)

/-- END (42_lzss_decoder.md R175). -/
def execEnd (s : State) : Host.Outcome State Fault Refusal :=
  s.onlyAtToken (s.skipBits 1 fun s => s.skipBits s.indexSize fun s => terminated (s.toFsm .terminated))

end Sys2Proof.Machine
end

