-- ==== Sys2Proof/Machine/Dispatch.lean ====
section
/-! DEFINITION. One arm per constructor of Instr: the meaning of each instruction. -/

namespace Sys2Proof.Machine

def exec (i : Instr) (s : State) : Host.Outcome State Fault Refusal :=
  match i with
  | .nop => Sys2Proof.Machine.execNop s
  | .decryptLegacy => Sys2Proof.Machine.execDecryptLegacy s
  | .decryptBlock => Sys2Proof.Machine.execDecryptBlock s
  | .decompress => Sys2Proof.Machine.execDecompress s
  | .lit value => Sys2Proof.Machine.execLit value s
  | .matchCopy offset len => Sys2Proof.Machine.execMatch offset len s
  | .endMark => Sys2Proof.Machine.execEnd s

end Sys2Proof.Machine
end

