-- ==== Sys2Proof/Machine/CoreStep.lean ====
section
/-! DEFINITION. How the core moves while a command runs: one micro-step (40_stream_cipher.md R113, 41_block_unshuffler.md
R148, 42_lzss_decoder.md R185), or one whole token where the decoder is about to read one. -/

namespace Sys2Proof.Machine

/-- One micro-step of the running command; the core makes none while it is not BUSY (20_memory.md R70). -/
def microStep (s : State) : Flow :=
  if s.isBusy then
    match s.regs.op.toNat with
    | 1 => legacyStep s
    | 2 => blockStep s
    | 3 => lzssStep s
    | _ => .go s
  else .go s

/-- How many stream bits a token can need (30_encoding.md R85). -/
def tokenSpan (f : Format) : Nat := 1 + max 8 (f.indexSize + f.lengthSize)

/-- The stream bits the next token is decoded from: those that are left, and zeros after them under
zero_fill_saturating (30_encoding.md R95 to R97). -/
def State.fetchBits (s : State) : List Bool :=
  match s.par.pastEnd with
  | .failFast => s.streamBits s.work.brPos.toNat (min (tokenSpan s.format) s.bitsLeft)
  | .zeroFillSaturating => s.paddedBits (tokenSpan s.format)

/-- The token at BR_POS, which plays the program counter (10_state.md R38), or how the stream cuts it off. -/
def fetchToken (s : State) : Except DecodeError Instr :=
  match decodeToken s.format s.fetchBits with
  | .ok (i, _) => .ok i
  | .error e => .error e

/-- The core's step: a whole token where the decoder is about to read one and the stream holds one; else a micro-step,
whose reads raise where the stream ends (log 13). -/
def coreStep (s : State) : Host.Outcome State Fault Refusal :=
  if s.atToken then
    match fetchToken s with
    | .ok i => exec i s
    | .error _ => (microStep s).outcome
  else (microStep s).outcome

end Sys2Proof.Machine
end

