-- ==== Sys2Proof/Machine/HostAccess.lean ====
section
/-! DEFINITION. What the outside world does to the machine: the host's accesses (20_memory.md R61, R64;
70_reset_and_hazards.md R250) and reset (R240, R242, R243). -/

namespace Sys2Proof.Machine

/-- The initial step of the command a CMD write selects (60_exceptions.md R211): the core runs the rest of it. -/
def startOnly (i : Instr) (s : State) : Flow :=
  match i with
  | .nop => .go s.storeNop
  | .decryptLegacy => beginLegacy s
  | .decryptBlock => beginBlock s
  | .decompress => beginDecompress s
  | .lit _ => .go s
  | .matchCopy _ _ => .go s
  | .endMark => .go s

/-- `HostWriteReg(off, v)` (20_memory.md R64): only a write to CMD has an effect besides the register's (R67). -/
def hostWriteReg (s : State) (off : Nat) (v : Word) : Flow :=
  if off = 0 then startOnly (decodeCommand v) s else .go { s with regs := s.regs.write off v }

/-- A read's value goes to the host (log 18). -/
def State.reply (s : State) (r : Reply) : State := { s with replies := s.replies ++ [r] }

/-- `HostWriteData(i, v)` (20_memory.md R61). -/
def hostWriteData (s : State) (i : Nat) (v : Byte) : State :=
  if i < s.par.inCapacity then s.writeData i v else s

/-- `HostReadData(i)` (20_memory.md R61). -/
def hostReadData (s : State) (i : Nat) : Byte := if i < s.par.inCapacity then s.readData i else 0

/-- `HostReadOut(i)` (20_memory.md R61). -/
def hostReadOut (s : State) (i : Nat) : Byte := if i < s.par.outCapacity then s.readOut i else 0

/-- DATA[0..n) with every byte any value of draw `d` (70_reset_and_hazards.md R243; log 8). -/
def mixData (d : Nat) (m : Memory) : Nat → Memory
  | 0 => m
  | n + 1 => (mixData d m n).set n (Config.resetMix d n)

/-- Reset: the registers take their reset values, a running command is abandoned and leaves DATA[0..L) unspecified, no OUT
byte is defined, and no memory is cleared (70_reset_and_hazards.md R240, R242, R243; logs 8, 9). -/
def applyReset (s : State) : State :=
  { s.forgetOut with
    regs := Regs.reset
    work := Work.reset
    data := if s.isBusy then mixData (s.draws + 1) s.data s.work.l.toNat else s.data }

/-- Is the event a host access that 70_reset_and_hazards.md R250 forbids while a command runs? -/
def Event.needsIdle : Event → Bool
  | .command _ => true
  | .writeReg _ _ => true
  | .readReg off => decide (off ≠ 0x04)
  | .writeData _ _ => true
  | .readData _ => true
  | .readOut _ => true
  | .wait => false
  | .core => false
  | .micro => false
  | .reset => false

/-- What the event at the head of the inputs does, the rest of the inputs being `es`. -/
def runEvent (e : Event) (es : List Event) (s : State) : Host.Outcome State Fault Refusal :=
  let t := { s with inputs := es }
  match e with
  | .command v => exec (decodeCommand v) t
  | .writeReg off v => (hostWriteReg t off v).outcome
  | .readReg off => .next (t.reply (.word (t.regs.read off)))
  | .writeData i v => .next (hostWriteData t i v)
  | .readData i => .next (t.reply (.byte (hostReadData t i)))
  | .readOut i => .next (t.reply (.byte (hostReadOut t i)))
  | .wait => if s.isBusy then coreStep s else .next t
  | .core => coreStep t
  | .micro => (microStep t).outcome
  | .reset => .next (applyReset t)

/-- A row of the opcode table placed as the next thing to run (log 16, log 17): a command word as the host's next CMD write,
or a token at the front of the stream of a DECOMPRESS that has just been initialised under the default configuration. -/
def placeWord (s : State) (nbits w : Nat) : State :=
  if isTokenRow nbits then
    let bytes := bytesOfBits 4 (tableTokenBits nbits w)
    let t := { s with
      regs := { s.regs with op := 3, status := .busy, inLen := 4, indexSize := 13, lengthSize := 4 }
      work := { s.work with l := 4 }
      data := (List.range 4).foldl (fun m i => m.set i (bytes.getD i 0)) s.data
      inputs := .core :: s.inputs }
    initStream t
  else
    { s with
      regs := { s.regs with status := if s.isBusy then .idle else s.regs.status }
      inputs := .command (BitVec.ofNat 32 w) :: s.inputs }

/-- One step: the event at the head of the inputs; with none left, the core moves if a command runs and else waits
(70_reset_and_hazards.md R241). -/
def nextStep (s : State) : Host.Outcome State Fault Refusal :=
  match s.inputs with
  | [] => coreStep s
  | e :: es => if e.needsIdle then s.unlessBusy (runEvent e es s) else runEvent e es s

end Sys2Proof.Machine
end

