-- ==== Sys2Proof/Safety.lean ====
section
/-! DEFINITION. The terms the claims are stated in: the states a run can reach (`State.Inv`), and the closed forms of
40_stream_cipher.md R114, 41_block_unshuffler.md R140, R141 and 42_lzss_decoder.md R183. -/

namespace Sys2Proof.Machine

/-! ### Safe states -/

/-- The memories are in canonical form and inside their sizes (10_state.md R40). -/
structure State.MemInv (s : State) : Prop where
  dataWf : s.data.wf
  outWf : s.out.wf
  snapWf : s.snap.wf
  winWf : s.win.wf
  winCanonical : s.winCanonical
  dataWithin : s.data.within s.par.inCapacity
  outWithin : s.out.within s.par.outCapacity
  snapWithin : s.snap.within s.par.inCapacity
  winWithin : s.win.within (2 ^ Config.maxIndexSize)
  winFilled : s.winFilled ≤ 2 ^ Config.maxIndexSize

/-- A command runs on the operand length it copied, which the memory holds (10_state.md R25, 60_exceptions.md R216). -/
structure State.RunInv (s : State) : Prop where
  opNotNop : s.regs.op ≠ 0
  length : s.work.l = s.regs.inLen
  lengthFits : s.work.l.toNat ≤ s.par.inCapacity

/-- The active length of the running DECRYPT_BLOCK (41_block_unshuffler.md R132). -/
def State.activeLen (s : State) : Nat := activeLength s.par.quarterDiv s.regs.inLen.toNat s.blockSize

/-- Where DECRYPT_BLOCK stands between two byte steps (41_block_unshuffler.md R134 to R138): between blocks, in a first pass
or in a second pass, with P, TP1 and TP2 as the number J of iterations left gives them. -/
structure State.BlockInv (s : State) : Prop where
  sizeNotZero : s.blockSize ≠ 0
  between : s.work.j = 0 → s.work.p.toNat + s.work.left.toNat = s.activeLen
  inside : s.work.j ≠ 0 →
    s.work.b.toNat = min s.blockSize s.work.left.toNat ∧ s.work.p0.toNat + s.work.left.toNat = s.activeLen
  firstPass : s.work.j ≠ 0 → s.work.pass = .first →
    s.work.p.toNat + s.work.j.toNat = s.work.p0.toNat + (s.work.b.toNat + 1) / 2
      ∧ s.work.p0.toNat ≤ s.work.p.toNat
      ∧ s.work.tp1 = s.work.p0.toNat + s.work.b.toNat - 1 - 2 * ((s.work.p.toNat : Int) - s.work.p0.toNat)
      ∧ s.work.tp2 = (s.work.p0.toNat : Int) + s.work.b.toNat - 2
  secondPass : s.work.j ≠ 0 → s.work.pass = .second →
    s.work.p.toNat + s.work.j.toNat = s.work.p0.toNat + s.work.b.toNat
      ∧ s.work.p0.toNat + (s.work.b.toNat + 1) / 2 ≤ s.work.p.toNat
      ∧ s.work.tp2 = s.work.p0.toNat + s.work.b.toNat - 2
          - 2 * ((s.work.p.toNat : Int) - s.work.p0.toNat - ((s.work.b.toNat + 1) / 2 : Nat))

/-- Where DECOMPRESS stands (42_lzss_decoder.md R162 to R170, R183): legal parameters, the cursors inside their ranges, and
the window a mirror of the output. -/
structure State.StreamInv (s : State) : Prop where
  indexSize : s.indexSize ≤ Config.maxIndexSize
  lengthSize : s.lengthSize ≤ Config.maxLengthSize
  initWidx : s.initWidx < 2 ^ s.indexSize
  windowSize : s.work.w.toNat = 2 ^ s.indexSize
  total : s.work.total.toNat = 8 * s.work.l.toNat
  cursor : s.work.brPos.toNat ≤ s.work.total.toNat
  emitted : s.work.optr.toNat ≤ s.par.outCapacity
  writeCursor : s.work.wcur.toNat = (s.initWidx + s.work.optr.toNat) % 2 ^ s.indexSize
  filled : 2 ^ s.indexSize ≤ s.winFilled
  notInvalid : s.work.fsm ≠ .invalid
  matchOffset : s.work.fsm = .emitMatch → s.work.moff.toNat < 2 ^ s.indexSize
  copyLoop : s.work.copying = true → s.work.fsm = .emitMatch ∧ s.work.mcnt ≠ 0
  outListed : ∀ i, (s.out.get i).isSome ↔ i < s.work.optr.toNat
  mirror : ∀ j, j < s.work.optr.toNat → s.work.optr.toNat ≤ j + 2 ^ s.indexSize →
    s.readWin ((s.initWidx + j) % 2 ^ s.indexSize) = s.readOut j
  unwritten : ∀ x, x < 2 ^ s.indexSize → (∀ j, j < s.work.optr.toNat → (s.initWidx + j) % 2 ^ s.indexSize ≠ x) →
    s.readWin x = s.par.windowInitAt x

/-- The invariant of the machine: what holds at reset and what every step keeps. -/
structure State.Inv (s : State) : Prop where
  par : s.par.wf
  mem : s.MemInv
  running : s.isBusy = true → s.RunInv
  block : s.isBusy = true → s.regs.op = 2 → s.BlockInv
  stream : s.isBusy = true → s.regs.op = 3 → s.StreamInv

/-- `n` steps of the machine, stopping at the first fault or refusal. -/
def runSteps : Nat → State → Host.Outcome State Fault Refusal
  | 0, s => .next s
  | n + 1, s =>
    match step s with
    | .next t => runSteps n t
    | .fault r => .fault r
    | .refused r => .refused r

/-- How many micro-steps a command takes at most after its initial step (70_reset_and_hazards.md R257). -/
def stepBound (s : State) : Instr → Nat
  | .nop => 0
  | .decryptLegacy => (s.regs.inLen.toNat - s.regs.start.toNat) + 1
  | .decryptBlock => s.regs.inLen.toNat + 1
  | .decompress => 2 * (8 * s.regs.inLen.toNat) + s.par.outCapacity + 1
  | .lit _ => 0
  | .matchCopy _ _ => 0
  | .endMark => 0

/-! ### The register map (10_state.md R22) -/

/-- The offsets of the eleven registers. -/
def registerOffsets : List Nat := [0x00, 0x04, 0x08, 0x0C, 0x10, 0x14, 0x18, 0x1C, 0x20, 0x24, 0x28]

/-- The registers whose defined fields keep what the host writes, CMD apart. -/
def configOffsets : List Nat := [0x08, 0x10, 0x14, 0x18, 0x1C, 0x20, 0x24]

/-- The bits of a register that have a field; the others are reserved (10_state.md R22, R34). -/
def definedBits : Nat → Word
  | 0x00 => 0x00000003
  | 0x04 => 0x0000000F
  | 0x10 => 0x000000FF
  | 0x1C => 0x0000FFFF
  | 0x20 => 0x00FF1F1F
  | _ => 0xFFFFFFFF

/-! ### Closed forms -/

/-- The key that decrypts byte `i` when the key starts at `k0` at index `start` (40_stream_cipher.md R114). -/
def legacyKeyAt (k0 : Byte) (start i : Nat) : Byte := k0 + BitVec.ofNat 8 (7 * (i - start))

/-- The inverse transform on the bytes from the start index on (40_stream_cipher.md R115). -/
def legacyEncryptFrom (k : Byte) : List Byte → List Byte
  | [] => []
  | b :: bs => (b + k) :: legacyEncryptFrom (k + 7) bs

/-- `Enc(buf, k0, s)` (40_stream_cipher.md R115): a test aid, not an operation of the core. -/
def legacyEncrypt (k0 : Byte) (start : Nat) (buf : List Byte) : List Byte :=
  buf.take start ++ legacyEncryptFrom k0 (buf.drop start)

/-- `key(g)`: the running base at input byte `g` (41_block_unshuffler.md R140). -/
def blockKeyAt (base add : Byte) (g : Nat) : Byte := base + BitVec.ofNat 8 g * add

/-- `pos(P0, B, j)`: where input byte `j` of the block at `p0` of size `b` lands (41_block_unshuffler.md R141). -/
def blockPos (p0 b j : Nat) : Nat :=
  if j < (b + 1) / 2 then p0 + b - 1 - 2 * j else p0 + b - 2 - 2 * (j - (b + 1) / 2)

/-- Where input byte `g` of an active region of `act` bytes cut into blocks of `bs` lands (41_block_unshuffler.md R134,
R141). -/
def blockTarget (bs act g : Nat) : Nat := blockPos (g / bs * bs) (min bs (act - g / bs * bs)) (g % bs)

/-- The last byte of `out` that went to window index `x`, or WINDOW_INIT where none did (42_lzss_decoder.md R183): `k` is how
many bytes of `out` are still looked at. -/
def windowByte (init : Nat → Byte) (w iw : Nat) (out : List Byte) (x : Nat) : Nat → Byte
  | 0 => init x
  | k + 1 => if (iw + k) % w = x then out.getD k 0 else windowByte init w iw out x k

/-- `n` bytes copied out of the window from index `off` on, each added to the output before the next is read
(42_lzss_decoder.md R169, R170). -/
def copyBytes (init : Nat → Byte) (w iw : Nat) : Nat → Nat → List Byte → List Byte
  | 0, _, out => out
  | n + 1, off, out => copyBytes init w iw n ((off + 1) % w) (out ++ [windowByte init w iw out off out.length])

/-- What a token adds to the output: a literal its byte, a match its copies (42_lzss_decoder.md R173, R174). -/
def tokenOutput (init : Nat → Byte) (w iw ml : Nat) (out : List Byte) : Instr → List Byte
  | .lit v => out ++ [v]
  | .matchCopy off len => copyBytes init w iw (len + ml) off out
  | .endMark => out
  | .nop => out
  | .decryptLegacy => out
  | .decryptBlock => out
  | .decompress => out

/-- What a list of tokens decodes to. -/
def streamOutput (init : Nat → Byte) (w iw ml : Nat) (tokens : List Instr) : List Byte :=
  tokens.foldl (tokenOutput init w iw ml) []

/-- Can the bit reader give `n` bits without a raise? (30_encoding.md R95 to R97) -/
abbrev State.canRead (s : State) (n : Nat) : Prop :=
  s.work.brPos.toNat + n ≤ s.work.total.toNat ∨ s.par.pastEnd = .zeroFillSaturating

/-- How far behind the write cursor a match at `off` reads, in bytes of output, 1 to W (42_lzss_decoder.md R176). -/
def matchDistance (w wcur off : Nat) : Nat := if (wcur + w - off) % w = 0 then w else (wcur + w - off) % w

end Sys2Proof.Machine
end

