-- ==== Sys2Proof/Certificates/Slice0/Obligations.lean ====
section
/-! DEFINITION. The statements for the provers. -/

open Sys2Proof Sys2Proof.Machine

/-! ### Reset -/

/-- 10_state.md R47: the registers after reset; the memories hold any value, and so does every working register, about which
nothing is said. -/
def Obligations.ResetRegisterValues : Prop :=
  State.reset.regs.read 0x00 = 0 ∧ State.reset.regs.read 0x04 = 0 ∧ State.reset.regs.status = .idle
  ∧ State.reset.regs.read 0x08 = 0 ∧ State.reset.regs.read 0x0C = 0 ∧ State.reset.regs.read 0x28 = 0
  ∧ State.reset.regs.read 0x10 = 0 ∧ State.reset.regs.read 0x1C = 0 ∧ State.reset.regs.read 0x18 = 0
  ∧ State.reset.regs.read 0x14 = 0
  ∧ State.reset.regs.read 0x20 = 0x0003040D ∧ State.reset.regs.indexSize = 13 ∧ State.reset.regs.lengthSize = 4
  ∧ State.reset.regs.minLength = 3 ∧ State.reset.regs.read 0x24 = 1
  ∧ (∀ i, State.reset.readData i = Config.powerOnData i) ∧ (∀ i, State.reset.readOut i = Config.freeOut State.reset.draws i)
  ∧ (∀ i, State.reset.readSnap i = Config.powerOnSnap i) ∧ (∀ i, State.reset.readWin i = Config.powerOnWin i)

/-- 70_reset_and_hazards.md R240, R242: a reset while no command runs gives every register its reset value and clears no memory.
That no OUT byte is defined afterwards is the model's choice (log 9). -/
def Obligations.ResetWhileIdleKeepsData : Prop :=
  ∀ (s : State) (es : List Event), s.inputs = .reset :: es → s.isBusy = false →
    ∃ t, step s = .next t ∧ t.regs = Regs.reset ∧ t.par = s.par ∧ t.inputs = es ∧ t.replies = s.replies
      ∧ (∀ i, t.readData i = s.readData i) ∧ (∀ i, t.readSnap i = s.readSnap i) ∧ (∀ i, t.readWin i = s.readWin i)
      ∧ ∀ i, t.readOut i = Config.freeOut t.draws i

/-- 70_reset_and_hazards.md R243: a reset during a command abandons it, and leaves DATA[0..L) and OUT unspecified. -/
def Obligations.ResetWhileBusyAbandonsCommand : Prop :=
  ∀ (s : State) (es : List Event), s.inputs = .reset :: es → s.isBusy = true →
    ∃ t, step s = .next t ∧ t.isBusy = false ∧ t.regs = Regs.reset
      ∧ (∀ i, i < s.work.l.toNat → t.readData i = Config.resetMix t.draws i)
      ∧ (∀ i, s.work.l.toNat ≤ i → t.readData i = s.readData i)
      ∧ t.draws = s.draws + 1 ∧ ∀ i, t.readOut i = Config.freeOut t.draws i

/-! ### Host accesses -/

/-- 10_state.md R34, 20_memory.md R64: a host write to a register other than CMD changes that register's defined bits alone, or
nothing where there is no such register or the host may not write it; every register is read whole. -/
def Obligations.RegisterWriteReadsBack : Prop :=
  ∀ (s : State) (off : Nat) (v : Word) (es : List Event),
    s.inputs = .writeReg off v :: es → s.isBusy = false → off ≠ 0 →
    ∃ t, step s = .next t
      ∧ (off ∈ configOffsets → t.regs.read off = v &&& definedBits off)
      ∧ (off ∉ configOffsets → t.regs = s.regs)
      ∧ (∀ o, o ≠ off → t.regs.read o = s.regs.read o)
      ∧ (∀ o, o ∉ registerOffsets → t.regs.read o = 0)
      ∧ t = { s with regs := t.regs, inputs := es }

/-- 10_state.md R34: a reserved bit reads 0 in every state and makes no difference to what a host write does; an offset with no
register reads 0 and ignores writes. -/
def Obligations.ReservedBitsAndUnmappedOffsets : Prop :=
  (∀ (r : Regs) (off : Nat), off ∈ registerOffsets → r.read off &&& ~~~ definedBits off = 0)
  ∧ (∀ (s : State) (es : List Event) (off : Nat) (v : Word), off ∈ registerOffsets →
      step { s with inputs := .writeReg off v :: es }
        = step { s with inputs := .writeReg off (v &&& definedBits off) :: es })
  ∧ ∀ (s : State) (es : List Event) (off : Nat), off ∉ registerOffsets → s.isBusy = false →
      (s.inputs = .readReg off :: es →
        step s = .next { s with inputs := es, replies := s.replies ++ [.word 0] })
      ∧ ∀ v, s.inputs = .writeReg off v :: es → step s = .next { s with inputs := es }

/-- 10_state.md R24: the codes of STATUS; ERR is 0 whenever STATE is not ERROR and non-zero whenever it is; bits 31:4 read 0;
host writes are ignored; it is 0 after reset. -/
def Obligations.StatusWordCodes : Prop :=
  (∀ st : Status, (st.word.extractLsb' 2 2 = 0 ↔ st.word.extractLsb' 0 2 ≠ 3) ∧ st.word.extractLsb' 4 28 = 0)
  ∧ Status.idle.word = 0 ∧ Status.busy.word = 1 ∧ Status.done.word = 2
  ∧ (Status.error .formatInvalid).word = 3 + (1 <<< 2) ∧ (Status.error .outOfRange).word = 3 + (2 <<< 2)
  ∧ (Status.error .resourceExhaustion).word = 3 + (3 <<< 2)
  ∧ (∀ (r : Regs) (v : Word), r.write 0x04 v = r) ∧ (∀ r : Regs, r.read 0x04 = r.status.word)
  ∧ State.reset.regs.read 0x04 = 0

/-- 20_memory.md R61: the host's byte accesses to DATA and OUT; at or above the capacity they read 0 and write nothing. -/
def Obligations.HostByteAccesses : Prop :=
  ∀ (s : State) (es : List Event) (i : Nat), s.isBusy = false →
    (∀ v, s.inputs = .writeData i v :: es →
      ∃ t, step s = .next t
        ∧ (∀ j, t.readData j = if j = i ∧ i < s.par.inCapacity then v else s.readData j)
        ∧ t = { s with data := t.data, inputs := es })
    ∧ (s.inputs = .readData i :: es →
        step s = .next { s with
          inputs := es, replies := s.replies ++ [.byte (if i < s.par.inCapacity then s.readData i else 0)] })
    ∧ (s.inputs = .readOut i :: es →
        step s = .next { s with
          inputs := es, replies := s.replies ++ [.byte (if i < s.par.outCapacity then s.readOut i else 0)] })

/-- 20_memory.md R64, R67: a register read answers the register's word, 0 where there is none, and changes nothing. -/
def Obligations.RegisterReadHasNoSideEffect : Prop :=
  ∀ (s : State) (off : Nat) (es : List Event), s.inputs = .readReg off :: es → s.isBusy = false →
    step s = .next { s with
      inputs := es
      replies := s.replies ++ [.word (if off ∈ registerOffsets then s.regs.read off else 0)] }

/-- 70_reset_and_hazards.md R250: while a command runs a STATUS read returns BUSY and NONE, and every other host access is
refused. -/
def Obligations.BusyRefusesHostAccesses : Prop :=
  ∀ (s : State) (es : List Event), s.isBusy = true →
    (s.inputs = .readReg 0x04 :: es → step s = .next { s with inputs := es, replies := s.replies ++ [.word 1] })
    ∧ (∀ off, off ≠ 0x04 → s.inputs = .readReg off :: es → step s = .refused .hostAccessWhileBusy)
    ∧ (∀ off v, s.inputs = .writeReg off v :: es → step s = .refused .hostAccessWhileBusy)
    ∧ (∀ v, s.inputs = .command v :: es → step s = .refused .hostAccessWhileBusy)
    ∧ (∀ i v, s.inputs = .writeData i v :: es → step s = .refused .hostAccessWhileBusy)
    ∧ (∀ i, s.inputs = .readData i :: es → step s = .refused .hostAccessWhileBusy)
    ∧ (∀ i, s.inputs = .readOut i :: es → step s = .refused .hostAccessWhileBusy)

/-! ### Decoding and stepping -/

/-- 30_encoding.md R80: only `v[1:0]` of a command word is decoded. -/
def Obligations.CommandWordDecoding : Prop :=
  ∀ v : Word,
    (v &&& 3 = 0 → decodeCommand v = .nop) ∧ (v &&& 3 = 1 → decodeCommand v = .decryptLegacy)
    ∧ (v &&& 3 = 2 → decodeCommand v = .decryptBlock) ∧ (v &&& 3 = 3 → decodeCommand v = .decompress)

/-- 30_encoding.md R86: words of the default configuration, written out bit by bit. -/
def Obligations.DefaultTokenWords : Prop :=
  decodeToken Format.default [true, false, true, false, false, false, false, false, true] = .ok (.lit 0x41, [])
  ∧ decodeToken Format.default
      ([false] ++ [false, false, false, false, false, false, false, false, false, false, true, false, true]
        ++ [false, false, false, true]) = .ok (.matchCopy 5 1, [])
  ∧ decodeToken Format.default
      [false, false, false, false, false, false, false, false, false, false, false, false, false, false] = .ok (.endMark, [])
  ∧ decodeCommand 0x00000002 = .decryptBlock ∧ decodeCommand 0xFFFFFFFD = .decryptLegacy

/-- 30_encoding.md R85, R88: decoding the bits of a well-formed token gives the token back, whatever follows it. -/
def Obligations.TokenEncodeDecode : Prop :=
  ∀ (f : Format) (i : Instr) (rest : List Bool), i.isCommand = false → i.wf f = true →
    decodeToken f (tokenBits f i ++ rest) = .ok (i, rest)

/-- 30_encoding.md R80: decoding the word of a command gives the command back. -/
def Obligations.CommandEncodeDecode : Prop :=
  ∀ (f : Format) (i : Instr), i.isCommand = true → decode f (encode f i) = .ok (i, [])

/-- 30_encoding.md R89: a bit sequence either holds a token, well formed, whose bits are exactly those it takes, or is shorter
than the token it opens. -/
def Obligations.TokenDecodeIsExact : Prop :=
  ∀ (f : Format) (bits : List Bool),
    (∃ i rest, decodeToken f bits = .ok (i, rest) ∧ i.isCommand = false ∧ i.wf f = true ∧ bits = tokenBits f i ++ rest)
    ∨ (∃ e, decodeToken f bits = .error e ∧ bits.length < 1 + max 8 (f.indexSize + f.lengthSize))

/-- A CMD write run as one transaction is the meaning of the command its word decodes to. -/
def Obligations.StepRunsCommand : Prop :=
  ∀ (s : State) (v : Word) (es : List Event), s.inputs = .command v :: es → s.isBusy = false →
    step s = exec (decodeCommand v) { s with inputs := es }

/-- Where the decoder is about to read a token and the stream holds all its bits, the step is that token's meaning. That one step
of the core runs a whole token, where 42_lzss_decoder.md R185 counts one step per transition, is the model's choice (DEDUCED,
log 13); StepRunsPaddedToken is about a token the end of the stream cuts off under zero_fill_saturating. -/
def Obligations.StepRunsToken : Prop :=
  ∀ (s : State) (i : Instr) (rest : List Bool), s.inputs = [] → s.atToken = true →
    s.work.brPos.toNat + (tokenBits s.format i).length ≤ s.work.total.toNat →
    i.isCommand = false → i.wf s.format = true →
    s.streamBits s.work.brPos.toNat (s.work.total.toNat - s.work.brPos.toNat) = tokenBits s.format i ++ rest →
    step s = exec i s

/-- 70_reset_and_hazards.md R241: with no input and no command running the core waits. -/
def Obligations.IdleCoreWaits : Prop := ∀ s : State, s.inputs = [] → s.isBusy = false → step s = .next s

/-- 30_encoding.md R100: `wait` lets the core run while it is BUSY and is over when it is not. R100 makes it a loop of STATUS reads;
that the values read are not recorded, and that the core makes one step per poll, is the model's choice (DESIGN CHOICE,
log 23). -/
def Obligations.WaitPollsStatus : Prop :=
  ∀ (s : State) (es : List Event), s.inputs = .wait :: es →
    (s.isBusy = false → step s = .next { s with inputs := es })
    ∧ (s.isBusy = true → step s = coreStep s ∧ ∀ t, step s = .next t → t.inputs = .wait :: es)

/-! ### NOP and the start of a command -/

/-- 60_exceptions.md R212. -/
def Obligations.NopChangesOnlyOp : Prop :=
  ∀ s : State, s.isBusy = false → exec .nop s = .next { s with regs := { s.regs with op := 0 } }

/-- 10_state.md R23, 60_exceptions.md R211: a write to CMD stores OP, and CMD reads as the OP last written; with OP 0 nothing else
changes; with another OP the old outcome is gone, OUT_LEN is 0, and the command is running or has failed its checks. -/
def Obligations.CommandWriteStoresOp : Prop :=
  ∀ (s : State) (v : Word) (es : List Event), s.isBusy = false →
    (s.inputs = .writeReg 0x00 v :: es →
      ∃ t, step s = .next t ∧ t.regs.read 0x00 = v &&& 3
        ∧ (v &&& 3 = 0 → t = { s with regs := { s.regs with op := 0 }, inputs := es })
        ∧ (v &&& 3 ≠ 0 → t.regs.outLen = 0 ∧ (t.regs.status = .busy ∨ t.regs.status = .error .outOfRange)
            ∧ t.work.l = s.regs.inLen ∧ t.data = s.data))
    ∧ (s.inputs = .command v :: es → ∀ t, step s = .next t → t.regs.read 0x00 = v &&& 3)

/-- 60_exceptions.md R216: a command whose IN_LEN exceeds IN_CAPACITY raises OUT_OF_RANGE and touches no memory it could read or
write before; no OUT byte is defined afterwards (R214; logs 5, 10). -/
def Obligations.LengthCheckComesFirst : Prop :=
  ∀ (s : State) (i : Instr), s.isBusy = false → i = .decryptLegacy ∨ i = .decryptBlock ∨ i = .decompress →
    s.par.inCapacity < s.regs.inLen.toNat →
    ∃ t, exec i s = .next t ∧ t.work.l = s.regs.inLen
      ∧ t.regs = { s.regs with
          op := opOf i, status := .error .outOfRange, outLen := 0
          bitpos := if i = .decompress then 0 else s.regs.bitpos }
      ∧ t.data = s.data ∧ t.snap = s.snap ∧ t.win = s.win ∧ t.winFilled = s.winFilled
      ∧ ∀ a, t.readOut a = Config.freeOut t.draws a

/-- 10_state.md R35: no meaning writes a configuration register, a parameter or anything of the host's; a token leaves CMD too, a
command leaves its own OP there (60_exceptions.md R211). -/
def Obligations.ConfigurationIsKept : Prop :=
  ∀ (s t : State) (i : Instr), exec i s = .next t →
    t.regs.inLen = s.regs.inLen ∧ t.regs.key = s.regs.key ∧ t.regs.start = s.regs.start
    ∧ t.regs.blockSize = s.regs.blockSize ∧ t.regs.base = s.regs.base ∧ t.regs.add = s.regs.add
    ∧ t.regs.indexSize = s.regs.indexSize ∧ t.regs.lengthSize = s.regs.lengthSize
    ∧ t.regs.minLength = s.regs.minLength ∧ t.regs.initWidx = s.regs.initWidx
    ∧ t.regs.op = (if i.isCommand then opOf i else s.regs.op)
    ∧ t.par = s.par ∧ t.inputs = s.inputs ∧ t.replies = s.replies

/-- 10_state.md R21: every command but NOP that is started ends in DONE or ERROR. -/
def Obligations.CommandsEndDoneOrError : Prop :=
  ∀ (s : State) (i : Instr), s.par.wf → s.isBusy = false → i = .decryptLegacy ∨ i = .decryptBlock ∨ i = .decompress →
    ∃ t, exec i s = .next t ∧ (t.regs.status = .done ∨ ∃ e, t.regs.status = .error e)

/-- 60_exceptions.md R214, R218: a command that ends in ERROR leaves DATA as it was, OUT_LEN 0 and, whichever command it is, no OUT
byte defined (a free value, logs 5, 10). -/
def Obligations.ErrorLeavesData : Prop :=
  ∀ (s t : State) (i : Instr) (e : ErrKind), s.par.wf → i.isCommand = true → i ≠ .nop →
    exec i s = .next t → t.regs.status = .error e →
    t.data = s.data ∧ t.regs.outLen = 0 ∧ ∀ a, t.readOut a = Config.freeOut t.draws a

/-! ### DECRYPT_LEGACY -/

/-- 40_stream_cipher.md R114: the closed form of DECRYPT_LEGACY, with its outcome, and the key's period of 256. -/
def Obligations.LegacyClosedForm : Prop :=
  (∀ s : State, s.isBusy = false → s.regs.inLen.toNat ≤ s.par.inCapacity →
    ∃ t, exec .decryptLegacy s = .next t
      ∧ t.regs = { s.regs with op := 1, status := .done, outLen := s.regs.inLen }
      ∧ ∀ i, t.readData i =
          if s.regs.start.toNat ≤ i ∧ i < s.regs.inLen.toNat
          then s.readData i - legacyKeyAt s.regs.key s.regs.start.toNat i else s.readData i)
  ∧ (∀ (k : Byte) (a i : Nat), a ≤ i → legacyKeyAt k a (i + 256) = legacyKeyAt k a i)
  ∧ (∀ (k v : Byte) (a : Nat), ∃ m, m < 256 ∧ legacyKeyAt k a (a + m) = v
      ∧ ∀ n, n < 256 → legacyKeyAt k a (a + n) = v → n = m)

/-- 40_stream_cipher.md R111: a start index at or beyond the length succeeds and leaves DATA as it was. -/
def Obligations.LegacyStartBeyondLength : Prop :=
  ∀ s : State, s.isBusy = false → s.regs.inLen.toNat ≤ s.par.inCapacity → s.regs.inLen.toNat ≤ s.regs.start.toNat →
    ∃ t, exec .decryptLegacy s = .next t ∧ t.data = s.data ∧ t.regs.status = .done ∧ t.regs.outLen = s.regs.inLen

/-- 40_stream_cipher.md R116, 10_state.md R35, R36, R42: what DECRYPT_LEGACY leaves unchanged, whatever its outcome; OUT stays as it was
when it succeeds, and no OUT byte is defined when it fails (the model's reading, log 10). -/
def Obligations.LegacyFrame : Prop :=
  ∀ s t : State, exec .decryptLegacy s = .next t →
    t.par = s.par ∧ (t.regs.status = .done → t.out = s.out ∧ t.draws = s.draws)
    ∧ (t.regs.status ≠ .done → ∀ a, t.readOut a = Config.freeOut t.draws a) ∧ t.snap = s.snap ∧ t.win = s.win ∧ t.winFilled = s.winFilled
    ∧ t.inputs = s.inputs ∧ t.replies = s.replies
    ∧ (∃ st n, t.regs = { s.regs with op := 1, status := st, outLen := n })
    ∧ (∃ i k l, t.work = { s.work with i := i, k := k, l := l })
    ∧ ∀ a, a < s.regs.start.toNat ∨ s.regs.inLen.toNat ≤ a → t.readData a = s.readData a

/-- 40_stream_cipher.md R115: decrypting the inverse transform of a buffer gives the buffer. -/
def Obligations.LegacyRoundTrip : Prop :=
  ∀ (s : State) (buf : List Byte), s.isBusy = false → s.regs.inLen.toNat ≤ s.par.inCapacity →
    s.regs.inLen.toNat = buf.length →
    (∀ i, i < buf.length → s.readData i = (legacyEncrypt s.regs.key s.regs.start.toNat buf).getD i 0) →
    ∃ t, exec .decryptLegacy s = .next t ∧ ∀ i, i < buf.length → t.readData i = buf.getD i 0

/-- 40_stream_cipher.md R117: an output byte depends on its own input byte, the key, the start and its index alone; and a second
run subtracts the key sequence a second time. -/
def Obligations.LegacyBytesAreIndependent : Prop :=
  (∀ (s₁ s₂ t₁ t₂ : State) (j : Nat), s₁.regs.key = s₂.regs.key → s₁.regs.start = s₂.regs.start →
    s₁.regs.inLen = s₂.regs.inLen → s₁.par.inCapacity = s₂.par.inCapacity → s₁.readData j = s₂.readData j →
    exec .decryptLegacy s₁ = .next t₁ → exec .decryptLegacy s₂ = .next t₂ → t₁.readData j = t₂.readData j)
  ∧ ∀ s t u : State, s.regs.inLen.toNat ≤ s.par.inCapacity →
    exec .decryptLegacy s = .next t → exec .decryptLegacy t = .next u →
    ∀ i, s.regs.start.toNat ≤ i → i < s.regs.inLen.toNat →
      u.readData i = s.readData i - legacyKeyAt s.regs.key s.regs.start.toNat i
        - legacyKeyAt s.regs.key s.regs.start.toNat i

/-! ### DECRYPT_BLOCK -/

/-- 41_block_unshuffler.md R141, R139: where every active byte lands and with which key, and that the others stay. -/
def Obligations.BlockClosedForm : Prop :=
  ∀ s : State, s.isBusy = false → s.regs.inLen.toNat ≤ s.par.inCapacity → s.blockSize ≠ 0 →
    ∃ t, exec .decryptBlock s = .next t
      ∧ t.regs = { s.regs with op := 2, status := .done, outLen := s.regs.inLen }
      ∧ (∀ g, g < s.activeLen → t.readData (blockTarget s.blockSize s.activeLen g) =
          s.readData g ^^^ blockKeyAt s.regs.base s.regs.add g)
      ∧ (∀ i, i < s.activeLen → ∃ g, g < s.activeLen ∧ blockTarget s.blockSize s.activeLen g = i)
      ∧ ∀ i, s.activeLen ≤ i → t.readData i = s.readData i

/-- 41_block_unshuffler.md R149, 10_state.md R35, R36, R42: what DECRYPT_BLOCK leaves unchanged, whatever its outcome; OUT stays as it
was when it succeeds, and no OUT byte is defined when it fails (the model's reading, log 10). -/
def Obligations.BlockFrame : Prop :=
  ∀ s t : State, exec .decryptBlock s = .next t →
    t.par = s.par ∧ (t.regs.status = .done → t.out = s.out ∧ t.draws = s.draws)
    ∧ (t.regs.status ≠ .done → ∀ a, t.readOut a = Config.freeOut t.draws a) ∧ t.win = s.win ∧ t.winFilled = s.winFilled
    ∧ t.inputs = s.inputs ∧ t.replies = s.replies
    ∧ (∃ st n, t.regs = { s.regs with op := 2, status := st, outLen := n })
    ∧ (∃ l left p p0 b tp1 tp2 j pass kb, t.work = { s.work with
        l := l, left := left, p := p, p0 := p0, b := b, tp1 := tp1, tp2 := tp2, j := j, pass := pass, kb := kb })
    ∧ ∀ a, s.regs.inLen.toNat ≤ a → t.readData a = s.readData a ∧ t.readSnap a = s.readSnap a

/-- 41_block_unshuffler.md R131: a block size of 0 raises OUT_OF_RANGE before SNAP or DATA is written. -/
def Obligations.BlockSizeZeroFails : Prop :=
  ∀ s : State, s.isBusy = false → s.blockSize = 0 →
    ∃ t, exec .decryptBlock s = .next t ∧ t.regs.status = .error .outOfRange ∧ t.regs.outLen = 0
      ∧ t.data = s.data ∧ t.snap = s.snap

/-- 41_block_unshuffler.md R138: no access of DECRYPT_BLOCK is out of range, so its guard never fires, in any state it is started
from. -/
def Obligations.BlockAccessesInRange : Prop := ∀ (s : State) (r : Fault), exec .decryptBlock s ≠ .fault r

/-- 41_block_unshuffler.md R147: decrypting the inverse transform of a plain text gives the plain text. -/
def Obligations.BlockRoundTrip : Prop :=
  ∀ (s : State) (plain : Nat → Byte), s.isBusy = false → s.regs.inLen.toNat ≤ s.par.inCapacity → s.blockSize ≠ 0 →
    (∀ g, g < s.activeLen → s.readData g =
      plain (blockTarget s.blockSize s.activeLen g) ^^^ blockKeyAt s.regs.base s.regs.add g) →
    (∀ i, s.activeLen ≤ i → i < s.regs.inLen.toNat → s.readData i = plain i) →
    ∃ t, exec .decryptBlock s = .next t ∧ ∀ i, i < s.regs.inLen.toNat → t.readData i = plain i

/-- 41_block_unshuffler.md R146, R145: the two readings of the trim test give another active length exactly when the remainder is
the quarter rounded down, is not 0 and the block size is no multiple of 4, except for the one-byte buffer, which has no
active byte under either. -/
def Obligations.QuarterReadingsDiffer : Prop :=
  ∀ len bs : Nat, 1 ≤ bs →
    (len ≠ 1 → (activeLength .floor len bs ≠ activeLength .exact len bs
      ↔ len % bs = bs / 4 ∧ bs % 4 ≠ 0 ∧ 1 ≤ len % bs))
    ∧ ∀ q, activeLength q 1 bs = 0

/-! ### DECOMPRESS -/

/-- 42_lzss_decoder.md R161: the parameter checks raise OUT_OF_RANGE before any memory is touched, and every MIN_LENGTH, INDEX_SIZE 0
and LENGTH_SIZE 0 pass them. -/
def Obligations.DecompressParameterChecks : Prop :=
  ∀ s : State, s.isBusy = false → s.regs.inLen.toNat ≤ s.par.inCapacity →
    (13 < s.indexSize ∨ 16 < s.lengthSize ∨ 2 ^ s.indexSize ≤ s.initWidx →
      ∃ t, exec .decompress s = .next t
        ∧ t.regs = { s.regs with op := 3, status := .error .outOfRange, outLen := 0, bitpos := 0 }
        ∧ t.data = s.data ∧ t.snap = s.snap ∧ t.win = s.win ∧ t.winFilled = s.winFilled)
    ∧ (s.indexSize ≤ 13 → s.lengthSize ≤ 16 → s.initWidx < 2 ^ s.indexSize →
      ∃ t, exec .decompress s = .next t ∧ t.regs.status ≠ .error .outOfRange)

/-- 42_lzss_decoder.md R178: DECOMPRESS always stops, under either policy and whatever the stream. -/
def Obligations.DecompressAlwaysStops : Prop :=
  ∀ s : State, s.par.wf → s.isBusy = false → ∃ t, exec .decompress s = .next t ∧ t.isBusy = false

/-- 42_lzss_decoder.md R186, 10_state.md R35, R36: what DECOMPRESS leaves unchanged, whatever its outcome. -/
def Obligations.DecompressFrame : Prop :=
  ∀ s t : State, exec .decompress s = .next t →
    t.par = s.par ∧ t.data = s.data ∧ t.snap = s.snap ∧ t.inputs = s.inputs ∧ t.replies = s.replies
    ∧ (∃ st n b, t.regs = { s.regs with op := 3, status := st, outLen := n, bitpos := b })
    ∧ (∃ l total brPos w wcur moff mcnt optr fsm copying, t.work = { s.work with
        l := l, total := total, brPos := brPos, w := w, wcur := wcur, moff := moff, mcnt := mcnt, optr := optr
        fsm := fsm, copying := copying })
    ∧ ∀ x, 2 ^ s.indexSize ≤ x → t.readWin x = s.readWin x

/-- 42_lzss_decoder.md R186: the result of DECOMPRESS is a function of DATA[0..L), the LZSS parameters and the model's parameters. -/
def Obligations.DecompressDependsOnInputOnly : Prop :=
  ∀ s₁ s₂ t₁ t₂ : State, s₁.par = s₂.par → s₁.par.wf →
    s₁.regs.inLen = s₂.regs.inLen → s₁.regs.indexSize = s₂.regs.indexSize → s₁.regs.lengthSize = s₂.regs.lengthSize →
    s₁.regs.minLength = s₂.regs.minLength → s₁.regs.initWidx = s₂.regs.initWidx →
    (∀ i, i < s₁.regs.inLen.toNat → s₁.readData i = s₂.readData i) →
    exec .decompress s₁ = .next t₁ → exec .decompress s₂ = .next t₂ →
    t₁.regs.status = t₂.regs.status ∧ t₁.regs.outLen = t₂.regs.outLen ∧ t₁.regs.bitpos = t₂.regs.bitpos
    ∧ ∀ i, i < t₁.regs.outLen.toNat → t₁.readOut i = t₂.readOut i

/-- 42_lzss_decoder.md R171, 10_state.md R33: DONE means every bit was consumed; no outcome consumes more, and an error leaves
OUT_LEN 0. -/
def Obligations.DecompressConsumesExactly : Prop :=
  ∀ s t : State, s.par.wf → exec .decompress s = .next t →
    t.regs.bitpos.toNat ≤ 8 * s.regs.inLen.toNat
    ∧ (t.regs.status = .done → t.regs.bitpos.toNat = 8 * s.regs.inLen.toNat ∧ t.regs.outLen.toNat ≤ s.par.outCapacity)
    ∧ (t.regs.status ≠ .done → t.regs.outLen = 0)

/-- A stream of well-formed tokens closed by END, filling DATA[0..L) exactly, decodes to what the tokens say: literals are emitted and
matches copy out of the window that mirrors the output (42_lzss_decoder.md R160, R171, R173 to R175, R183). -/
def Obligations.DecompressDecodesTokens : Prop :=
  ∀ (s : State) (tokens : List Instr), s.par.wf → s.isBusy = false → s.regs.inLen.toNat ≤ s.par.inCapacity →
    s.indexSize ≤ 13 → s.lengthSize ≤ 16 → s.initWidx < 2 ^ s.indexSize →
    (∀ i ∈ tokens, i.isCommand = false ∧ i ≠ .endMark ∧ i.wf s.format = true) →
    s.streamBits 0 (8 * s.regs.inLen.toNat) = tokens.flatMap (tokenBits s.format) ++ tokenBits s.format .endMark →
    (streamOutput s.par.windowInitAt (2 ^ s.indexSize) s.initWidx s.minLength tokens).length ≤ s.par.outCapacity →
    ∃ t, exec .decompress s = .next t
      ∧ t.regs = { s.regs with
          op := 3, status := .done, bitpos := BitVec.ofNat 32 (8 * s.regs.inLen.toNat)
          outLen := BitVec.ofNat 32
            (streamOutput s.par.windowInitAt (2 ^ s.indexSize) s.initWidx s.minLength tokens).length }
      ∧ ∀ i, i < (streamOutput s.par.windowInitAt (2 ^ s.indexSize) s.initWidx s.minLength tokens).length →
          t.readOut i =
            (streamOutput s.par.windowInitAt (2 ^ s.indexSize) s.initWidx s.minLength tokens).getD i 0

/-- 42_lzss_decoder.md R177: a literal-only stream decodes to its literals; under the default configuration their number is 2
modulo 8. -/
def Obligations.LiteralOnlyStreams : Prop :=
  (∀ (s : State) (vs : List Byte), s.par.wf → s.isBusy = false → s.regs.inLen.toNat ≤ s.par.inCapacity →
    s.indexSize ≤ 13 → s.lengthSize ≤ 16 → s.initWidx < 2 ^ s.indexSize → vs.length ≤ s.par.outCapacity →
    s.streamBits 0 (8 * s.regs.inLen.toNat) =
      vs.flatMap (fun v => tokenBits s.format (.lit v)) ++ tokenBits s.format .endMark →
    ∃ t, exec .decompress s = .next t ∧ t.regs.status = .done ∧ t.regs.outLen.toNat = vs.length
      ∧ ∀ i, i < vs.length → t.readOut i = vs.getD i 0)
  ∧ ∀ (vs : List Byte) (len : Nat),
      (vs.flatMap (fun v => tokenBits Format.default (.lit v)) ++ tokenBits Format.default .endMark).length = 8 * len →
      vs.length % 8 = 2

/-- 42_lzss_decoder.md R181: a bit after END makes the command fail with FORMAT_INVALID under both policies, and LZ_BITPOS is the
position just after END (60_exceptions.md R215). -/
def Obligations.BitsAfterEndFail : Prop :=
  ∀ (s : State) (tokens : List Instr) (rest : List Bool),
    s.par.wf → s.isBusy = false → s.regs.inLen.toNat ≤ s.par.inCapacity →
    s.indexSize ≤ 13 → s.lengthSize ≤ 16 → s.initWidx < 2 ^ s.indexSize →
    (∀ i ∈ tokens, i.isCommand = false ∧ i ≠ .endMark ∧ i.wf s.format = true) →
    s.streamBits 0 (8 * s.regs.inLen.toNat) =
      tokens.flatMap (tokenBits s.format) ++ tokenBits s.format .endMark ++ rest →
    rest ≠ [] →
    (streamOutput s.par.windowInitAt (2 ^ s.indexSize) s.initWidx s.minLength tokens).length ≤ s.par.outCapacity →
    ∃ t, exec .decompress s = .next t ∧ t.regs.status = .error .formatInvalid ∧ t.regs.outLen = 0
      ∧ t.regs.bitpos.toNat = (tokens.flatMap (tokenBits s.format) ++ tokenBits s.format .endMark).length

/-- 42_lzss_decoder.md R180: under fail_fast a valid stream less its last byte fails with FORMAT_INVALID. -/
def Obligations.TruncatedStreamsFail : Prop :=
  ∀ (s t : State) (n : Word), s.par.wf → s.par.pastEnd = .failFast →
    exec .decompress s = .next t → t.regs.status = .done → s.regs.inLen.toNat = n.toNat + 1 →
    ∃ u, exec .decompress { s with regs := { s.regs with inLen := n } } = .next u
      ∧ u.regs.status = .error .formatInvalid

/-- 42_lzss_decoder.md R184, 30_encoding.md R96: the empty input fails at bit 0 under fail_fast and succeeds with empty output under
zero_fill_saturating. -/
def Obligations.EmptyInput : Prop :=
  ∀ s : State, s.par.wf → s.isBusy = false → s.regs.inLen = 0 →
    s.indexSize ≤ 13 → s.lengthSize ≤ 16 → s.initWidx < 2 ^ s.indexSize →
    ∃ t, exec .decompress s = .next t ∧ t.regs.bitpos = 0 ∧ t.regs.outLen = 0
      ∧ (s.par.pastEnd = .failFast → t.regs.status = .error .formatInvalid)
      ∧ (s.par.pastEnd = .zeroFillSaturating → t.regs.status = .done)

/-! ### The tokens -/

/-- 42_lzss_decoder.md R173: what a literal does where its bits can be read and OUT has room, and all that it leaves unchanged. -/
def Obligations.LiteralResult : Prop :=
  ∀ (s : State) (v : Byte), s.Inv → s.atToken = true → s.canRead 9 → s.work.optr.toNat < s.par.outCapacity →
    ∃ t, exec (.lit v) s = .next t
      ∧ t.work.optr.toNat = s.work.optr.toNat + 1
      ∧ t.work.wcur.toNat = (s.work.wcur.toNat + 1) % 2 ^ s.indexSize
      ∧ t.work.brPos.toNat = min (s.work.brPos.toNat + 9) s.work.total.toNat
      ∧ (∀ i, t.readOut i = if i = s.work.optr.toNat then v else s.readOut i)
      ∧ (∀ x, t.readWin x = if x = s.work.wcur.toNat then v else s.readWin x)
      ∧ t.regs = s.regs ∧ t.data = s.data ∧ t.snap = s.snap ∧ t.draws = s.draws ∧ t.par = s.par
      ∧ t.inputs = s.inputs ∧ t.replies = s.replies
      ∧ t.work = { s.work with brPos := t.work.brPos, optr := t.work.optr, wcur := t.work.wcur }

/-- 42_lzss_decoder.md R173, 60_exceptions.md R215: where a literal fails, and the position recorded. -/
def Obligations.LiteralErrors : Prop :=
  ∀ (s : State) (v : Byte), s.Inv → s.atToken = true →
    (s.par.pastEnd = .failFast → s.work.total.toNat < s.work.brPos.toNat + 9 →
      ∃ t, exec (.lit v) s = .next t ∧ t.regs.status = .error .formatInvalid ∧ t.regs.outLen = 0
        ∧ t.regs.bitpos.toNat = min (s.work.brPos.toNat + 1) s.work.total.toNat)
    ∧ (s.canRead 9 → s.work.optr.toNat = s.par.outCapacity →
      ∃ t, exec (.lit v) s = .next t ∧ t.regs.status = .error .resourceExhaustion ∧ t.regs.outLen = 0
        ∧ t.regs.bitpos.toNat = min (s.work.brPos.toNat + 9) s.work.total.toNat)

/-- 42_lzss_decoder.md R174, R170: what a match does where its bits can be read and OUT has room for all its copies, and all that it
leaves unchanged: each copied byte is the window's byte from before the match until the match reaches its own output. -/
def Obligations.MatchResult : Prop :=
  ∀ (s : State) (off len : Nat), s.Inv → s.atToken = true → (Instr.matchCopy off len).wf s.format = true →
    s.canRead (1 + s.indexSize + s.lengthSize) → s.work.optr.toNat + (len + s.minLength) ≤ s.par.outCapacity →
    ∃ t, exec (.matchCopy off len) s = .next t
      ∧ t.work.optr.toNat = s.work.optr.toNat + (len + s.minLength)
      ∧ t.work.wcur.toNat = (s.work.wcur.toNat + (len + s.minLength)) % 2 ^ s.indexSize
      ∧ t.work.brPos.toNat = min (s.work.brPos.toNat + (1 + s.indexSize + s.lengthSize)) s.work.total.toNat
      ∧ (∀ k, k < len + s.minLength → t.readOut (s.work.optr.toNat + k) =
          if k < matchDistance (2 ^ s.indexSize) s.work.wcur.toNat off
          then s.readWin ((off + k) % 2 ^ s.indexSize)
          else t.readOut (s.work.optr.toNat + k - matchDistance (2 ^ s.indexSize) s.work.wcur.toNat off))
      ∧ (∀ i, i < s.work.optr.toNat ∨ s.work.optr.toNat + (len + s.minLength) ≤ i → t.readOut i = s.readOut i)
      ∧ (∀ k, k < len + s.minLength → len + s.minLength ≤ k + 2 ^ s.indexSize →
          t.readWin ((s.work.wcur.toNat + k) % 2 ^ s.indexSize) = t.readOut (s.work.optr.toNat + k))
      ∧ (∀ x, (∀ k, k < len + s.minLength → (s.work.wcur.toNat + k) % 2 ^ s.indexSize ≠ x) → t.readWin x = s.readWin x)
      ∧ t.work.fsm = .readControl
      ∧ t.regs = s.regs ∧ t.data = s.data ∧ t.snap = s.snap ∧ t.draws = s.draws ∧ t.par = s.par
      ∧ t.inputs = s.inputs ∧ t.replies = s.replies
      ∧ t.work = { s.work with
          brPos := t.work.brPos, optr := t.work.optr, wcur := t.work.wcur, moff := t.work.moff, mcnt := t.work.mcnt }

/-- 42_lzss_decoder.md R174, 60_exceptions.md R215: where a match fails, and the position recorded. -/
def Obligations.MatchErrors : Prop :=
  ∀ (s : State) (off len : Nat), s.Inv → s.atToken = true → (Instr.matchCopy off len).wf s.format = true →
    (s.par.pastEnd = .failFast → s.work.total.toNat < s.work.brPos.toNat + (1 + s.indexSize + s.lengthSize) →
      ∃ t, exec (.matchCopy off len) s = .next t ∧ t.regs.status = .error .formatInvalid ∧ t.regs.outLen = 0
        ∧ t.regs.bitpos.toNat =
          if s.work.total.toNat < s.work.brPos.toNat + 1 then s.work.brPos.toNat
          else if s.work.total.toNat < s.work.brPos.toNat + 1 + s.indexSize then s.work.brPos.toNat + 1
          else s.work.brPos.toNat + 1 + s.indexSize)
    ∧ (s.canRead (1 + s.indexSize + s.lengthSize) → s.par.outCapacity < s.work.optr.toNat + (len + s.minLength) →
      ∃ t, exec (.matchCopy off len) s = .next t ∧ t.regs.status = .error .resourceExhaustion ∧ t.regs.outLen = 0
        ∧ t.regs.bitpos.toNat = min (s.work.brPos.toNat + (1 + s.indexSize + s.lengthSize)) s.work.total.toNat)

/-- 42_lzss_decoder.md R176: a match that starts `d` bytes behind the write cursor, 1 ≤ d < count, emits those `d` bytes repeated. -/
def Obligations.SelfReferentialCopy : Prop :=
  ∀ (s t : State) (off len d : Nat), s.Inv → s.atToken = true → (Instr.matchCopy off len).wf s.format = true →
    s.canRead (1 + s.indexSize + s.lengthSize) → s.work.optr.toNat + (len + s.minLength) ≤ s.par.outCapacity →
    (s.work.wcur.toNat + 2 ^ s.indexSize - off) % 2 ^ s.indexSize = d → 1 ≤ d → d < len + s.minLength →
    exec (.matchCopy off len) s = .next t →
    ∀ k, k < len + s.minLength →
      t.readOut (s.work.optr.toNat + k) = s.readWin ((off + k % d) % 2 ^ s.indexSize)

/-- 42_lzss_decoder.md R175, R171: END where its bits can be read: DONE with the output emitted so far if no bit is left, FORMAT_INVALID
if one is; and all that it leaves unchanged. -/
def Obligations.EndResult : Prop :=
  ∀ s : State, s.Inv → s.atToken = true → s.canRead (1 + s.indexSize) →
    ∃ t, exec .endMark s = .next t
      ∧ t.regs.bitpos.toNat = min (s.work.brPos.toNat + (1 + s.indexSize)) s.work.total.toNat
      ∧ (s.work.total.toNat ≤ s.work.brPos.toNat + (1 + s.indexSize) →
          t.regs = { s.regs with status := .done, outLen := s.work.optr, bitpos := s.work.total }
          ∧ t.work.fsm = .terminated ∧ t.out = s.out ∧ t.draws = s.draws)
      ∧ (s.work.brPos.toNat + (1 + s.indexSize) < s.work.total.toNat →
          t.regs = { s.regs with status := .error .formatInvalid, outLen := 0, bitpos := t.regs.bitpos }
          ∧ t.work.fsm = .invalid ∧ ∀ i, t.readOut i = Config.freeOut t.draws i)
      ∧ t.data = s.data ∧ t.snap = s.snap ∧ t.win = s.win ∧ t.winFilled = s.winFilled ∧ t.par = s.par
      ∧ t.inputs = s.inputs ∧ t.replies = s.replies
      ∧ t.work = { s.work with brPos := t.work.brPos, fsm := t.work.fsm }

/-- 42_lzss_decoder.md R175: END whose bits pass the last input bit fails under fail_fast at the read that would pass it. -/
def Obligations.EndCutOff : Prop :=
  ∀ s : State, s.Inv → s.atToken = true → s.par.pastEnd = .failFast →
    s.work.total.toNat < s.work.brPos.toNat + (1 + s.indexSize) →
    ∃ t, exec .endMark s = .next t ∧ t.regs.status = .error .formatInvalid ∧ t.regs.outLen = 0
      ∧ t.regs.bitpos.toNat = min (s.work.brPos.toNat + 1) s.work.total.toNat

/-- A token has no meaning outside READ_CONTROL of a running DECOMPRESS (the model's choice, log 11). -/
def Obligations.TokensOnlyInStream : Prop :=
  ∀ (s : State) (i : Instr), i.isCommand = false → s.atToken = false → exec i s = .refused .tokenOutsideStream

/-! ### Whole-machine rules -/

/-- Every step keeps the invariant: canonical memories inside their sizes, the cursors of the running command inside their ranges, and the
window a mirror of the output (20_memory.md R62, 41_block_unshuffler.md R138, 42_lzss_decoder.md R167, R183). -/
def Obligations.StepKeepsInvariant : Prop := ∀ s t : State, s.Inv → step s = .next t → t.Inv

/-- The invariant holds at reset. -/
def Obligations.ResetMeetsInvariant : Prop := State.reset.Inv

/-- In a state that meets the invariant no step faults: DECRYPT_BLOCK's guard never fires (41_block_unshuffler.md R143). -/
def Obligations.SafeStatesNeverFault : Prop := ∀ (s : State) (r : Fault), s.Inv → step s ≠ .fault r

/-- 00_scope.md R16, 92_eei_decisions.md D27: a command started by a CMD write and run by the core's steps ends in the very state its
transaction gives. A core step at READ_CONTROL is a whole token (the model's choice, DEDUCED, log 13). -/
def Obligations.SteppingAgreesWithTransaction : Prop :=
  ∀ (s : State) (v : Word), s.par.wf → s.isBusy = false → s.inputs = [] →
    ∃ u t n, step { s with inputs := [.writeReg 0x00 v] } = .next u ∧ exec (decodeCommand v) s = .next t
      ∧ runSteps n u = .next t

/-- 00_scope.md R16, 70_reset_and_hazards.md R257: the micro-steps end in the very state the transaction gives, within R257's bounds
under fail_fast. -/
def Obligations.MicroStepsAgreeWithinBounds : Prop :=
  ∀ (s : State) (v : Word), s.par.wf → s.isBusy = false → s.inputs = [] →
    ∃ u t n, step { s with inputs := [.writeReg 0x00 v] } = .next u ∧ exec (decodeCommand v) s = .next t
      ∧ runSteps n { u with inputs := List.replicate n .micro } = .next t
      ∧ (s.par.pastEnd = .failFast → n ≤ stepBound s (decodeCommand v))

/-! ### The alternative policy -/

/-- 30_encoding.md R97: under zero_fill_saturating, where the bits that are left, followed by zeros, are a token's bits, the step is
that token's meaning, even where the stream ends inside it. That one step runs a whole token is the model's choice (DEDUCED,
log 13). -/
def Obligations.StepRunsPaddedToken : Prop :=
  ∀ (s : State) (i : Instr), s.inputs = [] → s.atToken = true → s.par.pastEnd = .zeroFillSaturating →
    i.isCommand = false → i.wf s.format = true →
    s.paddedBits (tokenBits s.format i).length = tokenBits s.format i →
    step s = exec i s
end

