-- ==== Sys2Proof/Laws/Bits.lean ====
section
/-! SUPPORT. Bit sequences and numbers: the fields of a token read back what was written in them (20_memory.md R65,
30_encoding.md R85). -/

namespace Sys2Proof

/-- Accumulating bits onto a number already read. -/
theorem foldl_bits (l : List Bool) (v : Nat) : l.foldl (fun v b => 2 * v + b.toNat) v = v * 2 ^ l.length + natOfBits l := by
  induction l generalizing v with
  | nil => simp [natOfBits]
  | cons b l ih =>
    unfold natOfBits
    rw [List.foldl_cons, List.foldl_cons, ih, ih (2 * 0 + b.toNat), List.length_cons, Nat.pow_succ]
    ring

/-- The first bit is the most significant one. -/
theorem natOfBits_cons (b : Bool) (l : List Bool) : natOfBits (b :: l) = b.toNat * 2 ^ l.length + natOfBits l := by
  conv_lhs => unfold natOfBits
  rw [List.foldl_cons, foldl_bits]; simp

/-- A number of `n` bits is below 2^n. -/
theorem natOfBits_lt (l : List Bool) : natOfBits l < 2 ^ l.length := by
  induction l with
  | nil => simp [natOfBits]
  | cons b l ih => rw [natOfBits_cons, List.length_cons, Nat.pow_succ]; cases b <;> simp <;> omega

@[simp] theorem bitsOf_length (n v : Nat) : (bitsOf n v).length = n := by
  induction n with
  | zero => rfl
  | succ n ih => simp [bitsOf, ih]

/-- Reading the `n` low bits of a number gives the number modulo 2^n. -/
theorem natOfBits_bitsOf (n v : Nat) : natOfBits (bitsOf n v) = v % 2 ^ n := by
  induction n with
  | zero => simp [bitsOf, natOfBits, Nat.mod_one]
  | succ n ih =>
    rw [bitsOf, natOfBits_cons, ih, bitsOf_length, Nat.mod_pow_succ, Nat.toNat_testBit]
    ring

/-- The bits of the number a bit sequence accumulates to are that sequence. -/
theorem bitsOf_natOfBits (l : List Bool) (m : Nat) : bitsOf l.length (natOfBits l + m * 2 ^ l.length) = l := by
  induction l generalizing m with
  | nil => rfl
  | cons b l ih =>
    rw [List.length_cons, bitsOf, natOfBits_cons]
    have hl := natOfBits_lt l
    congr 1
    · rw [Nat.testBit_eq_decide_div_mod_eq, Nat.pow_succ]
      have : (b.toNat * 2 ^ l.length + natOfBits l + m * (2 ^ l.length * 2)) / 2 ^ l.length = b.toNat + m * 2 := by
        rw [show b.toNat * 2 ^ l.length + natOfBits l + m * (2 ^ l.length * 2) = natOfBits l + (b.toNat + m * 2) * 2 ^ l.length by ring]
        rw [Nat.add_mul_div_right _ _ (Nat.two_pow_pos _), Nat.div_eq_of_lt hl]; omega
      rw [this]
      cases b <;> simp
    · rw [show b.toNat * 2 ^ l.length + natOfBits l + m * 2 ^ (l.length + 1) = natOfBits l + (b.toNat + m * 2) * 2 ^ l.length by rw [Nat.pow_succ]; ring]
      exact ih _

theorem bitsOf_natOfBits_of_length {l : List Bool} {n : Nat} (h : l.length = n) : bitsOf n (natOfBits l) = l := by
  subst h; simpa using bitsOf_natOfBits l 0

/-- A field written in front of more bits is read back, and the bits after it are left. -/
theorem takeField_append (n v : Nat) (rest : List Bool) : takeField n (bitsOf n v ++ rest) = some (v % 2 ^ n, rest) := by
  have h1 : (bitsOf n v ++ rest).take n = bitsOf n v := by
    conv_lhs => rw [show n = (bitsOf n v).length from (bitsOf_length n v).symm]
    rw [bitsOf_length]; exact List.take_left' (bitsOf_length n v)
  have h2 : (bitsOf n v ++ rest).drop n = rest := List.drop_left' (bitsOf_length n v)
  unfold takeField
  rw [if_pos (by rw [List.length_append, bitsOf_length]; omega), h1, h2, natOfBits_bitsOf]

/-- All that reading a field can do: too few bits, or a number that fits and the bits after it. -/
theorem takeField_cases (n : Nat) (bits : List Bool) :
    (bits.length < n ∧ takeField n bits = none)
    ∨ ∃ v rest, v < 2 ^ n ∧ takeField n bits = some (v, rest) ∧ bits = bitsOf n v ++ rest := by
  by_cases h : n ≤ bits.length
  · right
    have hl : (bits.take n).length = n := by rw [List.length_take]; omega
    refine ⟨natOfBits (bits.take n), bits.drop n, by have := natOfBits_lt (bits.take n); rwa [hl] at this, by unfold takeField; rw [if_pos h], ?_⟩
    rw [bitsOf_natOfBits_of_length hl, List.take_append_drop]
  · left
    exact ⟨by omega, by unfold takeField; rw [if_neg h]⟩

/-- A field of zeros reads as 0. -/
theorem natOfBits_zeros (n : Nat) : natOfBits (List.replicate n false) = 0 := by
  induction n with
  | zero => rfl
  | succ n ih => rw [List.replicate_succ, natOfBits_cons, ih]; simp

/-- The length of a token (30_encoding.md R85). -/
theorem tokenBits_length (f : Format) (i : Instr) : (tokenBits f i).length =
    match i with
    | .lit _ => 9
    | .matchCopy _ _ => 1 + f.indexSize + f.lengthSize
    | .endMark => 1 + f.indexSize
    | .nop => 0
    | .decryptLegacy => 0
    | .decryptBlock => 0
    | .decompress => 0 := by
  cases i <;> simp [tokenBits, bitsOf_length] <;> omega

end Sys2Proof
end

