-- ==== Sys2Proof/Laws/State.lean ====
section
/-! SUPPORT. What each update of the state does to each field of it: later proofs cite these lemmas and unfold no record
update. -/

namespace Sys2Proof.Machine

section
variable (s : State) (i : Nat) (v : Byte)
@[simp] theorem writeData_par : (s.writeData i v).par = s.par := rfl
@[simp] theorem writeData_regs : (s.writeData i v).regs = s.regs := rfl
@[simp] theorem writeData_work : (s.writeData i v).work = s.work := rfl
@[simp] theorem writeData_data : (s.writeData i v).data = s.data.set i v := rfl
@[simp] theorem writeData_out : (s.writeData i v).out = s.out := rfl
@[simp] theorem writeData_snap : (s.writeData i v).snap = s.snap := rfl
@[simp] theorem writeData_win : (s.writeData i v).win = s.win := rfl
@[simp] theorem writeData_winFilled : (s.writeData i v).winFilled = s.winFilled := rfl
@[simp] theorem writeData_draws : (s.writeData i v).draws = s.draws := rfl
@[simp] theorem writeData_inputs : (s.writeData i v).inputs = s.inputs := rfl
@[simp] theorem writeData_replies : (s.writeData i v).replies = s.replies := rfl
end

section
variable (s : State) (i : Nat) (v : Byte)
@[simp] theorem writeSnap_par : (s.writeSnap i v).par = s.par := rfl
@[simp] theorem writeSnap_regs : (s.writeSnap i v).regs = s.regs := rfl
@[simp] theorem writeSnap_work : (s.writeSnap i v).work = s.work := rfl
@[simp] theorem writeSnap_data : (s.writeSnap i v).data = s.data := rfl
@[simp] theorem writeSnap_out : (s.writeSnap i v).out = s.out := rfl
@[simp] theorem writeSnap_snap : (s.writeSnap i v).snap = s.snap.set i v := rfl
@[simp] theorem writeSnap_win : (s.writeSnap i v).win = s.win := rfl
@[simp] theorem writeSnap_winFilled : (s.writeSnap i v).winFilled = s.winFilled := rfl
@[simp] theorem writeSnap_draws : (s.writeSnap i v).draws = s.draws := rfl
@[simp] theorem writeSnap_inputs : (s.writeSnap i v).inputs = s.inputs := rfl
@[simp] theorem writeSnap_replies : (s.writeSnap i v).replies = s.replies := rfl
end

section
variable (s : State) (i : Nat) (v : Byte)
@[simp] theorem writeOut_par : (s.writeOut i v).par = s.par := rfl
@[simp] theorem writeOut_regs : (s.writeOut i v).regs = s.regs := rfl
@[simp] theorem writeOut_work : (s.writeOut i v).work = s.work := rfl
@[simp] theorem writeOut_data : (s.writeOut i v).data = s.data := rfl
@[simp] theorem writeOut_out : (s.writeOut i v).out = s.out.set i v := rfl
@[simp] theorem writeOut_snap : (s.writeOut i v).snap = s.snap := rfl
@[simp] theorem writeOut_win : (s.writeOut i v).win = s.win := rfl
@[simp] theorem writeOut_winFilled : (s.writeOut i v).winFilled = s.winFilled := rfl
@[simp] theorem writeOut_draws : (s.writeOut i v).draws = s.draws := rfl
@[simp] theorem writeOut_inputs : (s.writeOut i v).inputs = s.inputs := rfl
@[simp] theorem writeOut_replies : (s.writeOut i v).replies = s.replies := rfl
end

section
variable (s : State)
@[simp] theorem forgetOut_par : (s.forgetOut).par = s.par := rfl
@[simp] theorem forgetOut_regs : (s.forgetOut).regs = s.regs := rfl
@[simp] theorem forgetOut_work : (s.forgetOut).work = s.work := rfl
@[simp] theorem forgetOut_data : (s.forgetOut).data = s.data := rfl
@[simp] theorem forgetOut_out : (s.forgetOut).out = [] := rfl
@[simp] theorem forgetOut_snap : (s.forgetOut).snap = s.snap := rfl
@[simp] theorem forgetOut_win : (s.forgetOut).win = s.win := rfl
@[simp] theorem forgetOut_winFilled : (s.forgetOut).winFilled = s.winFilled := rfl
@[simp] theorem forgetOut_draws : (s.forgetOut).draws = s.draws + 1 := rfl
@[simp] theorem forgetOut_inputs : (s.forgetOut).inputs = s.inputs := rfl
@[simp] theorem forgetOut_replies : (s.forgetOut).replies = s.replies := rfl
end

section
variable (s : State) (i : Nat) (v : Byte)
@[simp] theorem writeWin_par : (s.writeWin i v).par = s.par := by unfold State.writeWin; split <;> rfl
@[simp] theorem writeWin_regs : (s.writeWin i v).regs = s.regs := by unfold State.writeWin; split <;> rfl
@[simp] theorem writeWin_work : (s.writeWin i v).work = s.work := by unfold State.writeWin; split <;> rfl
@[simp] theorem writeWin_data : (s.writeWin i v).data = s.data := by unfold State.writeWin; split <;> rfl
@[simp] theorem writeWin_out : (s.writeWin i v).out = s.out := by unfold State.writeWin; split <;> rfl
@[simp] theorem writeWin_snap : (s.writeWin i v).snap = s.snap := by unfold State.writeWin; split <;> rfl
@[simp] theorem writeWin_winFilled : (s.writeWin i v).winFilled = s.winFilled := by unfold State.writeWin; split <;> rfl
@[simp] theorem writeWin_draws : (s.writeWin i v).draws = s.draws := by unfold State.writeWin; split <;> rfl
@[simp] theorem writeWin_inputs : (s.writeWin i v).inputs = s.inputs := by unfold State.writeWin; split <;> rfl
@[simp] theorem writeWin_replies : (s.writeWin i v).replies = s.replies := by unfold State.writeWin; split <;> rfl
end

section
variable (s : State) (n : Nat)
@[simp] theorem fillWin_par : (s.fillWin n).par = s.par := rfl
@[simp] theorem fillWin_regs : (s.fillWin n).regs = s.regs := rfl
@[simp] theorem fillWin_work : (s.fillWin n).work = s.work := rfl
@[simp] theorem fillWin_data : (s.fillWin n).data = s.data := rfl
@[simp] theorem fillWin_out : (s.fillWin n).out = s.out := rfl
@[simp] theorem fillWin_snap : (s.fillWin n).snap = s.snap := rfl
@[simp] theorem fillWin_win : (s.fillWin n).win = s.win.dropBelow n := rfl
@[simp] theorem fillWin_winFilled : (s.fillWin n).winFilled = max s.winFilled n := rfl
@[simp] theorem fillWin_draws : (s.fillWin n).draws = s.draws := rfl
@[simp] theorem fillWin_inputs : (s.fillWin n).inputs = s.inputs := rfl
@[simp] theorem fillWin_replies : (s.fillWin n).replies = s.replies := rfl
end

section
variable (s : State) (op : BitVec 2)
@[simp] theorem startCommand_par : (s.startCommand op).par = s.par := rfl
@[simp] theorem startCommand_regs : (s.startCommand op).regs = { s.regs with op := op, status := .busy, outLen := 0 } := rfl
@[simp] theorem startCommand_work : (s.startCommand op).work = s.work := rfl
@[simp] theorem startCommand_data : (s.startCommand op).data = s.data := rfl
@[simp] theorem startCommand_out : (s.startCommand op).out = s.out := rfl
@[simp] theorem startCommand_snap : (s.startCommand op).snap = s.snap := rfl
@[simp] theorem startCommand_win : (s.startCommand op).win = s.win := rfl
@[simp] theorem startCommand_winFilled : (s.startCommand op).winFilled = s.winFilled := rfl
@[simp] theorem startCommand_draws : (s.startCommand op).draws = s.draws := rfl
@[simp] theorem startCommand_inputs : (s.startCommand op).inputs = s.inputs := rfl
@[simp] theorem startCommand_replies : (s.startCommand op).replies = s.replies := rfl
end

section
variable (s : State) (n : Word)
@[simp] theorem finish_par : (s.finish n).par = s.par := rfl
@[simp] theorem finish_regs : (s.finish n).regs = { s.regs with outLen := n, status := .done } := rfl
@[simp] theorem finish_work : (s.finish n).work = s.work := rfl
@[simp] theorem finish_data : (s.finish n).data = s.data := rfl
@[simp] theorem finish_out : (s.finish n).out = s.out := rfl
@[simp] theorem finish_snap : (s.finish n).snap = s.snap := rfl
@[simp] theorem finish_win : (s.finish n).win = s.win := rfl
@[simp] theorem finish_winFilled : (s.finish n).winFilled = s.winFilled := rfl
@[simp] theorem finish_draws : (s.finish n).draws = s.draws := rfl
@[simp] theorem finish_inputs : (s.finish n).inputs = s.inputs := rfl
@[simp] theorem finish_replies : (s.finish n).replies = s.replies := rfl
end

section
variable (s : State) (b : Bool)
@[simp] theorem failStream_par : (s.failStream b).par = s.par := rfl
@[simp] theorem failStream_regs : (s.failStream b).regs = { s.regs with bitpos := if b then s.work.brPos else 0 } := rfl
@[simp] theorem failStream_work : (s.failStream b).work = { s.work with fsm := .invalid } := rfl
@[simp] theorem failStream_data : (s.failStream b).data = s.data := rfl
@[simp] theorem failStream_out : (s.failStream b).out = s.out := rfl
@[simp] theorem failStream_snap : (s.failStream b).snap = s.snap := rfl
@[simp] theorem failStream_win : (s.failStream b).win = s.win := rfl
@[simp] theorem failStream_winFilled : (s.failStream b).winFilled = s.winFilled := rfl
@[simp] theorem failStream_draws : (s.failStream b).draws = s.draws := rfl
@[simp] theorem failStream_inputs : (s.failStream b).inputs = s.inputs := rfl
@[simp] theorem failStream_replies : (s.failStream b).replies = s.replies := rfl
end

section
variable (s : State) (e : ErrKind) (b : Bool)
@[simp] theorem raise_par : (s.raise e b).par = s.par := by unfold State.raise; split <;> rfl
@[simp] theorem raise_data : (s.raise e b).data = s.data := by unfold State.raise; split <;> rfl
@[simp] theorem raise_out : (s.raise e b).out = [] := by unfold State.raise; split <;> rfl
@[simp] theorem raise_draws : (s.raise e b).draws = s.draws + 1 := by unfold State.raise; split <;> rfl
@[simp] theorem raise_snap : (s.raise e b).snap = s.snap := by unfold State.raise; split <;> rfl
@[simp] theorem raise_win : (s.raise e b).win = s.win := by unfold State.raise; split <;> rfl
@[simp] theorem raise_winFilled : (s.raise e b).winFilled = s.winFilled := by unfold State.raise; split <;> rfl
@[simp] theorem raise_inputs : (s.raise e b).inputs = s.inputs := by unfold State.raise; split <;> rfl
@[simp] theorem raise_replies : (s.raise e b).replies = s.replies := by unfold State.raise; split <;> rfl
end

section
variable (s : State) (n : Nat)
@[simp] theorem advance_par : (s.advance n).par = s.par := rfl
@[simp] theorem advance_regs : (s.advance n).regs = s.regs := rfl
@[simp] theorem advance_work : (s.advance n).work = { s.work with brPos := s.work.brPos + BitVec.ofNat 32 n } := rfl
@[simp] theorem advance_data : (s.advance n).data = s.data := rfl
@[simp] theorem advance_out : (s.advance n).out = s.out := rfl
@[simp] theorem advance_snap : (s.advance n).snap = s.snap := rfl
@[simp] theorem advance_win : (s.advance n).win = s.win := rfl
@[simp] theorem advance_winFilled : (s.advance n).winFilled = s.winFilled := rfl
@[simp] theorem advance_draws : (s.advance n).draws = s.draws := rfl
@[simp] theorem advance_inputs : (s.advance n).inputs = s.inputs := rfl
@[simp] theorem advance_replies : (s.advance n).replies = s.replies := rfl
end

section
variable (s : State) (f : Fsm)
@[simp] theorem toFsm_par : (s.toFsm f).par = s.par := rfl
@[simp] theorem toFsm_regs : (s.toFsm f).regs = s.regs := rfl
@[simp] theorem toFsm_work : (s.toFsm f).work = { s.work with fsm := f } := rfl
@[simp] theorem toFsm_data : (s.toFsm f).data = s.data := rfl
@[simp] theorem toFsm_out : (s.toFsm f).out = s.out := rfl
@[simp] theorem toFsm_snap : (s.toFsm f).snap = s.snap := rfl
@[simp] theorem toFsm_win : (s.toFsm f).win = s.win := rfl
@[simp] theorem toFsm_winFilled : (s.toFsm f).winFilled = s.winFilled := rfl
@[simp] theorem toFsm_draws : (s.toFsm f).draws = s.draws := rfl
@[simp] theorem toFsm_inputs : (s.toFsm f).inputs = s.inputs := rfl
@[simp] theorem toFsm_replies : (s.toFsm f).replies = s.replies := rfl
end

section
variable (s : State) (off : Nat)
@[simp] theorem toMatch_par : (s.toMatch off).par = s.par := rfl
@[simp] theorem toMatch_regs : (s.toMatch off).regs = s.regs := rfl
@[simp] theorem toMatch_work : (s.toMatch off).work = { s.work with moff := BitVec.ofNat 13 off, fsm := .emitMatch, copying := false } := rfl
@[simp] theorem toMatch_data : (s.toMatch off).data = s.data := rfl
@[simp] theorem toMatch_out : (s.toMatch off).out = s.out := rfl
@[simp] theorem toMatch_snap : (s.toMatch off).snap = s.snap := rfl
@[simp] theorem toMatch_win : (s.toMatch off).win = s.win := rfl
@[simp] theorem toMatch_winFilled : (s.toMatch off).winFilled = s.winFilled := rfl
@[simp] theorem toMatch_draws : (s.toMatch off).draws = s.draws := rfl
@[simp] theorem toMatch_inputs : (s.toMatch off).inputs = s.inputs := rfl
@[simp] theorem toMatch_replies : (s.toMatch off).replies = s.replies := rfl
end

section
variable (s : State) (r : Reply)
@[simp] theorem reply_par : (s.reply r).par = s.par := rfl
@[simp] theorem reply_regs : (s.reply r).regs = s.regs := rfl
@[simp] theorem reply_work : (s.reply r).work = s.work := rfl
@[simp] theorem reply_data : (s.reply r).data = s.data := rfl
@[simp] theorem reply_out : (s.reply r).out = s.out := rfl
@[simp] theorem reply_snap : (s.reply r).snap = s.snap := rfl
@[simp] theorem reply_win : (s.reply r).win = s.win := rfl
@[simp] theorem reply_winFilled : (s.reply r).winFilled = s.winFilled := rfl
@[simp] theorem reply_draws : (s.reply r).draws = s.draws := rfl
@[simp] theorem reply_inputs : (s.reply r).inputs = s.inputs := rfl
@[simp] theorem reply_replies : (s.reply r).replies = s.replies ++ [r] := rfl
end

section
variable (s : State)
@[simp] theorem storeNop_par : (s.storeNop).par = s.par := rfl
@[simp] theorem storeNop_regs : (s.storeNop).regs = { s.regs with op := 0 } := rfl
@[simp] theorem storeNop_work : (s.storeNop).work = s.work := rfl
@[simp] theorem storeNop_data : (s.storeNop).data = s.data := rfl
@[simp] theorem storeNop_out : (s.storeNop).out = s.out := rfl
@[simp] theorem storeNop_snap : (s.storeNop).snap = s.snap := rfl
@[simp] theorem storeNop_win : (s.storeNop).win = s.win := rfl
@[simp] theorem storeNop_winFilled : (s.storeNop).winFilled = s.winFilled := rfl
@[simp] theorem storeNop_draws : (s.storeNop).draws = s.draws := rfl
@[simp] theorem storeNop_inputs : (s.storeNop).inputs = s.inputs := rfl
@[simp] theorem storeNop_replies : (s.storeNop).replies = s.replies := rfl
end

section
variable (s : State) (n : Nat)
@[simp] theorem startCopy_par : (startCopy n s).par = s.par := rfl
@[simp] theorem startCopy_regs : (startCopy n s).regs = s.regs := rfl
@[simp] theorem startCopy_data : (startCopy n s).data = s.data := rfl
@[simp] theorem startCopy_out : (startCopy n s).out = s.out := rfl
@[simp] theorem startCopy_snap : (startCopy n s).snap = s.snap := rfl
@[simp] theorem startCopy_win : (startCopy n s).win = s.win := rfl
@[simp] theorem startCopy_winFilled : (startCopy n s).winFilled = s.winFilled := rfl
@[simp] theorem startCopy_draws : (startCopy n s).draws = s.draws := rfl
@[simp] theorem startCopy_inputs : (startCopy n s).inputs = s.inputs := rfl
@[simp] theorem startCopy_replies : (startCopy n s).replies = s.replies := rfl
end

section
variable (s : State)
@[simp] theorem afterCopy_par : (afterCopy s).par = s.par := rfl
@[simp] theorem afterCopy_regs : (afterCopy s).regs = s.regs := rfl
@[simp] theorem afterCopy_data : (afterCopy s).data = s.data := rfl
@[simp] theorem afterCopy_out : (afterCopy s).out = s.out := rfl
@[simp] theorem afterCopy_snap : (afterCopy s).snap = s.snap := rfl
@[simp] theorem afterCopy_win : (afterCopy s).win = s.win := rfl
@[simp] theorem afterCopy_winFilled : (afterCopy s).winFilled = s.winFilled := rfl
@[simp] theorem afterCopy_draws : (afterCopy s).draws = s.draws := rfl
@[simp] theorem afterCopy_inputs : (afterCopy s).inputs = s.inputs := rfl
@[simp] theorem afterCopy_replies : (afterCopy s).replies = s.replies := rfl
end

section
variable (s : State)
@[simp] theorem legacyByte_par : (legacyByte s).par = s.par := rfl
@[simp] theorem legacyByte_regs : (legacyByte s).regs = s.regs := rfl
@[simp] theorem legacyByte_work : (legacyByte s).work = { s.work with k := s.work.k + legacyKeyStep, i := s.work.i + 1 } := rfl
@[simp] theorem legacyByte_data : (legacyByte s).data = s.data.set s.work.i.toNat (s.readData s.work.i.toNat - s.work.k) := rfl
@[simp] theorem legacyByte_out : (legacyByte s).out = s.out := rfl
@[simp] theorem legacyByte_snap : (legacyByte s).snap = s.snap := rfl
@[simp] theorem legacyByte_win : (legacyByte s).win = s.win := rfl
@[simp] theorem legacyByte_winFilled : (legacyByte s).winFilled = s.winFilled := rfl
@[simp] theorem legacyByte_draws : (legacyByte s).draws = s.draws := rfl
@[simp] theorem legacyByte_inputs : (legacyByte s).inputs = s.inputs := rfl
@[simp] theorem legacyByte_replies : (legacyByte s).replies = s.replies := rfl
end

section
variable (s : State)
@[simp] theorem openBlock_par : (openBlock s).par = s.par := rfl
@[simp] theorem openBlock_regs : (openBlock s).regs = s.regs := rfl
@[simp] theorem openBlock_data : (openBlock s).data = s.data := rfl
@[simp] theorem openBlock_out : (openBlock s).out = s.out := rfl
@[simp] theorem openBlock_snap : (openBlock s).snap = s.snap := rfl
@[simp] theorem openBlock_win : (openBlock s).win = s.win := rfl
@[simp] theorem openBlock_winFilled : (openBlock s).winFilled = s.winFilled := rfl
@[simp] theorem openBlock_draws : (openBlock s).draws = s.draws := rfl
@[simp] theorem openBlock_inputs : (openBlock s).inputs = s.inputs := rfl
@[simp] theorem openBlock_replies : (openBlock s).replies = s.replies := rfl
end

section
variable (s : State)
@[simp] theorem openSecond_par : (openSecond s).par = s.par := rfl
@[simp] theorem openSecond_regs : (openSecond s).regs = s.regs := rfl
@[simp] theorem openSecond_data : (openSecond s).data = s.data := rfl
@[simp] theorem openSecond_out : (openSecond s).out = s.out := rfl
@[simp] theorem openSecond_snap : (openSecond s).snap = s.snap := rfl
@[simp] theorem openSecond_win : (openSecond s).win = s.win := rfl
@[simp] theorem openSecond_winFilled : (openSecond s).winFilled = s.winFilled := rfl
@[simp] theorem openSecond_draws : (openSecond s).draws = s.draws := rfl
@[simp] theorem openSecond_inputs : (openSecond s).inputs = s.inputs := rfl
@[simp] theorem openSecond_replies : (openSecond s).replies = s.replies := rfl
end

section
variable (s : State)
@[simp] theorem closeBlock_par : (closeBlock s).par = s.par := rfl
@[simp] theorem closeBlock_regs : (closeBlock s).regs = s.regs := rfl
@[simp] theorem closeBlock_data : (closeBlock s).data = s.data := rfl
@[simp] theorem closeBlock_out : (closeBlock s).out = s.out := rfl
@[simp] theorem closeBlock_snap : (closeBlock s).snap = s.snap := rfl
@[simp] theorem closeBlock_win : (closeBlock s).win = s.win := rfl
@[simp] theorem closeBlock_winFilled : (closeBlock s).winFilled = s.winFilled := rfl
@[simp] theorem closeBlock_draws : (closeBlock s).draws = s.draws := rfl
@[simp] theorem closeBlock_inputs : (closeBlock s).inputs = s.inputs := rfl
@[simp] theorem closeBlock_replies : (closeBlock s).replies = s.replies := rfl
end

section
variable (s : State)
@[simp] theorem initStream_par : (initStream s).par = s.par := rfl
@[simp] theorem initStream_regs : (initStream s).regs = s.regs := rfl
@[simp] theorem initStream_data : (initStream s).data = s.data := rfl
@[simp] theorem initStream_out : (initStream s).out = [] := rfl
@[simp] theorem initStream_snap : (initStream s).snap = s.snap := rfl
@[simp] theorem initStream_win : (initStream s).win = s.win.dropBelow (2 ^ s.indexSize) := rfl
@[simp] theorem initStream_winFilled : (initStream s).winFilled = max s.winFilled (2 ^ s.indexSize) := rfl
@[simp] theorem initStream_draws : (initStream s).draws = s.draws + 1 := rfl
@[simp] theorem initStream_inputs : (initStream s).inputs = s.inputs := rfl
@[simp] theorem initStream_replies : (initStream s).replies = s.replies := rfl
end

section
variable (s : State)

@[simp] theorem settleBlock_par : (settleBlock s).par = s.par := by unfold settleBlock; dsimp only; split <;> split <;> rfl
@[simp] theorem settleBlock_regs : (settleBlock s).regs = s.regs := by unfold settleBlock; dsimp only; split <;> split <;> rfl
@[simp] theorem settleBlock_data : (settleBlock s).data = s.data := by unfold settleBlock; dsimp only; split <;> split <;> rfl
@[simp] theorem settleBlock_out : (settleBlock s).out = s.out := by unfold settleBlock; dsimp only; split <;> split <;> rfl
@[simp] theorem settleBlock_snap : (settleBlock s).snap = s.snap := by unfold settleBlock; dsimp only; split <;> split <;> rfl
@[simp] theorem settleBlock_win : (settleBlock s).win = s.win := by unfold settleBlock; dsimp only; split <;> split <;> rfl
@[simp] theorem settleBlock_winFilled : (settleBlock s).winFilled = s.winFilled := by
  unfold settleBlock; dsimp only; split <;> split <;> rfl
@[simp] theorem settleBlock_draws : (settleBlock s).draws = s.draws := by unfold settleBlock; dsimp only; split <;> split <;> rfl
@[simp] theorem settleBlock_inputs : (settleBlock s).inputs = s.inputs := by
  unfold settleBlock; dsimp only; split <;> split <;> rfl
@[simp] theorem settleBlock_replies : (settleBlock s).replies = s.replies := by
  unfold settleBlock; dsimp only; split <;> split <;> rfl

end

/-! ### What `raise` does (60_exceptions.md R214) -/

section
variable (s : State) (e : ErrKind) (b : Bool)

@[simp] theorem raise_status : (s.raise e b).regs.status = .error e := by unfold State.raise; split <;> rfl
@[simp] theorem raise_outLen : (s.raise e b).regs.outLen = 0 := by unfold State.raise; split <;> rfl
@[simp] theorem raise_op : (s.raise e b).regs.op = s.regs.op := by unfold State.raise; split <;> rfl

theorem raise_cipher (h : s.regs.op ≠ 3) :
    s.raise e b =
      { s with regs := { s.regs with outLen := 0, status := .error e }, out := [], draws := s.draws + 1 } := by
  unfold State.raise; rw [if_neg h]; rfl

theorem raise_stream (h : s.regs.op = 3) :
    s.raise e b =
      { s with
        regs := { s.regs with bitpos := if b then s.work.brPos else 0, outLen := 0, status := .error e }
        work := { s.work with fsm := .invalid }
        out := [], draws := s.draws + 1 } := by
  unfold State.raise; rw [if_pos h]; rfl

end

end Sys2Proof.Machine
end

