-- ==== Sys2Proof/Laws/Memory.lean ====
section
/-! SUPPORT. The laws of the byte memories: read after write, and that every operation keeps the canonical form. -/

namespace Sys2Proof.Machine

/-! ### Reading the list after an update -/

theorem Memory.get_set (m : Memory) (a b : Nat) (v : Byte) :
    (m.set a v).get b = if b = a then some v else m.get b := by
  induction m with
  | nil => simp only [Memory.set, Memory.get]
  | cons c m ih =>
    obtain ⟨x, u⟩ := c
    unfold Memory.set
    split
    · simp only [Memory.get]
    · split
      · subst_vars; simp only [Memory.get]; split <;> rfl
      · simp only [Memory.get, ih]
        split <;> split <;> first | rfl | omega

@[simp] theorem Memory.get_set_same (m : Memory) (a : Nat) (v : Byte) : (m.set a v).get a = some v := by
  simp [Memory.get_set]

theorem Memory.get_set_other (m : Memory) {a b : Nat} (v : Byte) (h : b ≠ a) : (m.set a v).get b = m.get b := by
  simp [Memory.get_set, h]

theorem Memory.get_filter (m : Memory) (p : Nat → Bool) (b : Nat) :
    Memory.get (m.filter fun c => p c.1) b = if p b then m.get b else none := by
  induction m with
  | nil => simp [Memory.get]
  | cons c m ih =>
    obtain ⟨x, u⟩ := c
    by_cases hx : p x
    · rw [List.filter_cons_of_pos (by simpa using hx)]
      simp only [Memory.get, ih]
      by_cases hb : b = x
      · subst hb; simp [hx]
      · simp [hb]
    · rw [List.filter_cons_of_neg (by simpa using hx), ih]
      by_cases hb : b = x
      · subst hb; simp [hx]
      · simp [Memory.get, hb]

theorem Memory.get_erase (m : Memory) (a b : Nat) : (m.erase a).get b = if b = a then none else m.get b := by
  have := Memory.get_filter m (fun x => decide (x ≠ a)) b
  by_cases h : b = a <;> simp_all [Memory.erase]

theorem Memory.get_dropBelow (m : Memory) (n b : Nat) : (m.dropBelow n).get b = if n ≤ b then m.get b else none := by
  have := Memory.get_filter m (fun x => decide (n ≤ x)) b
  by_cases h : n ≤ b <;> simp_all [Memory.dropBelow]

theorem Memory.get_none_of_within {m : Memory} {n a : Nat} (h : m.within n) (ha : n ≤ a) : m.get a = none := by
  induction m with
  | nil => rfl
  | cons c m ih =>
    obtain ⟨x, u⟩ := c
    have hx : x < n := h (x, u) (by simp)
    rw [Memory.get, if_neg (by omega)]
    exact ih fun c hc => h c (by simp [hc])

theorem Memory.get_isSome_iff (m : Memory) (a : Nat) : (m.get a).isSome ↔ ∃ c ∈ m, c.1 = a := by
  induction m with
  | nil => simp [Memory.get]
  | cons c m ih =>
    obtain ⟨x, u⟩ := c
    by_cases h : a = x
    · simp [Memory.get, h]
    · have hx : x ≠ a := fun e => h e.symm
      simp [Memory.get, h, ih, hx]

/-! ### The canonical form -/

theorem Memory.mem_set {m : Memory} {a : Nat} {v : Byte} {c : Host.Cell} (h : c ∈ m.set a v) : c = (a, v) ∨ c ∈ m := by
  induction m with
  | nil => simpa [Memory.set] using h
  | cons d m ih =>
    obtain ⟨x, u⟩ := d
    unfold Memory.set at h
    split at h
    · simpa using h
    · split at h
      · simp only [List.mem_cons] at h ⊢
        rcases h with h | h
        · exact .inl h
        · exact .inr (.inr h)
      · simp only [List.mem_cons] at h ⊢
        rcases h with h | h
        · exact .inr (.inl h)
        · rcases ih h with h | h
          · exact .inl h
          · exact .inr (.inr h)

theorem Memory.wf_set {m : Memory} (h : m.wf) (a : Nat) (v : Byte) : (m.set a v).wf := by
  induction m with
  | nil => simp [Memory.set, Memory.wf]
  | cons d m ih =>
    obtain ⟨x, u⟩ := d
    have hm := List.pairwise_cons.mp h
    unfold Memory.set
    split
    · rename_i hax
      refine List.pairwise_cons.mpr ⟨?_, h⟩
      intro c hc
      rcases List.mem_cons.mp hc with rfl | hc
      · exact hax
      · have := hm.1 c hc; simp only at this ⊢; omega
    · split
      · subst_vars
        exact List.pairwise_cons.mpr ⟨hm.1, hm.2⟩
      · refine List.pairwise_cons.mpr ⟨?_, ih hm.2⟩
        intro c hc
        rcases Memory.mem_set hc with rfl | hc
        · simp only; omega
        · exact hm.1 c hc

theorem Memory.wf_filter {m : Memory} (h : m.wf) (p : Host.Cell → Bool) : Memory.wf (m.filter p) :=
  List.Pairwise.filter p h

theorem Memory.wf_erase {m : Memory} (h : m.wf) (a : Nat) : (m.erase a).wf := Memory.wf_filter h _

theorem Memory.wf_dropBelow {m : Memory} (h : m.wf) (n : Nat) : (m.dropBelow n).wf := Memory.wf_filter h _

theorem Memory.wf_mixData {m : Memory} (h : m.wf) (d n : Nat) : (mixData d m n).wf := by
  induction n with
  | zero => exact h
  | succ n ih => exact Memory.wf_set ih n _

theorem Memory.within_set {m : Memory} {n a : Nat} (h : m.within n) (ha : a < n) (v : Byte) : (m.set a v).within n := by
  intro c hc
  rcases Memory.mem_set hc with rfl | hc
  · exact ha
  · exact h c hc

theorem Memory.within_filter {m : Memory} {n : Nat} (h : m.within n) (p : Host.Cell → Bool) :
    Memory.within (m.filter p) n :=
  fun c hc => h c (List.mem_filter.mp hc).1

theorem Memory.within_mono {m : Memory} {n k : Nat} (h : m.within n) (hk : n ≤ k) : m.within k :=
  fun c hc => Nat.lt_of_lt_of_le (h c hc) hk

theorem Memory.within_mixData {m : Memory} {k n : Nat} (h : m.within k) (hn : n ≤ k) (d : Nat) :
    (mixData d m n).within k := by
  induction n with
  | zero => exact h
  | succ n ih => exact Memory.within_set (ih (by omega)) (by omega) _

theorem Memory.get_mixData (d : Nat) (m : Memory) (n a : Nat) :
    (mixData d m n).get a = if a < n then some (Config.resetMix d a) else m.get a := by
  induction n with
  | zero => simp [mixData]
  | succ n ih =>
    rw [mixData, Memory.get_set, ih]
    by_cases h : a = n
    · subst h; simp
    · by_cases h' : a < n
      · simp [h, h', Nat.lt_succ_of_lt h']
      · simp [h, h', show ¬ a < n + 1 by omega]

/-- Equal memories are equal data: a canonical memory is known from what it lists at each address. -/
theorem Memory.ext_get {m k : Memory} (hm : m.wf) (hk : k.wf) (h : ∀ a, m.get a = k.get a) : m = k := by
  induction m generalizing k with
  | nil =>
    cases k with
    | nil => rfl
    | cons d k => obtain ⟨y, w⟩ := d; have := h y; simp [Memory.get] at this
  | cons c m ih =>
    obtain ⟨x, u⟩ := c
    have hm' := List.pairwise_cons.mp hm
    cases k with
    | nil => have := h x; simp [Memory.get] at this
    | cons d k =>
      obtain ⟨y, w⟩ := d
      have hk' := List.pairwise_cons.mp hk
      have below : ∀ {l : Memory} {z a : Nat}, (∀ c ∈ l, z < c.1) → a ≤ z → l.get a = none := by
        intro l z a hl ha
        induction l with
        | nil => rfl
        | cons e l ihl =>
          obtain ⟨q, r⟩ := e
          have : z < q := hl (q, r) (by simp)
          rw [Memory.get, if_neg (by omega)]
          exact ihl fun c hc => hl c (by simp [hc])
      have hxy : x = y := by
        rcases Nat.lt_trichotomy x y with hlt | heq | hgt
        · have h1 := h x
          simp only [Memory.get, if_pos, if_neg (show ¬ x = y by omega)] at h1
          rw [below hk'.1 (by simp only; omega)] at h1; cases h1
        · exact heq
        · have h1 := h y
          simp only [Memory.get, if_pos, if_neg (show ¬ y = x by omega)] at h1
          rw [below hm'.1 (by simp only; omega)] at h1; cases h1
      subst hxy
      have huw : u = w := by have := h x; simpa [Memory.get] using this
      subst huw
      congr 1
      refine ih hm'.2 hk'.2 fun a => ?_
      by_cases ha : a = x
      · subst ha; rw [below hm'.1 (Nat.le_refl _), below hk'.1 (Nat.le_refl _)]
      · have := h a; simpa [Memory.get, ha] using this

/-! ### Reading a memory of the machine after a write -/

theorem readData_writeData (s : State) (i j : Nat) (v : Byte) :
    (s.writeData i v).readData j = if j = i then v else s.readData j := by
  unfold State.readData
  rw [writeData_data, Memory.get_set]
  split <;> rfl

theorem readSnap_writeSnap (s : State) (i j : Nat) (v : Byte) :
    (s.writeSnap i v).readSnap j = if j = i then v else s.readSnap j := by
  unfold State.readSnap
  rw [writeSnap_snap, Memory.get_set]
  split <;> rfl

theorem readOut_writeOut (s : State) (i j : Nat) (v : Byte) :
    (s.writeOut i v).readOut j = if j = i then v else s.readOut j := by
  unfold State.readOut
  rw [writeOut_out, writeOut_draws, Memory.get_set]
  split <;> rfl

theorem readWin_writeWin (s : State) (i j : Nat) (v : Byte) :
    (s.writeWin i v).readWin j = if j = i then v else s.readWin j := by
  unfold State.readWin
  rw [writeWin_winFilled, writeWin_par]
  unfold State.writeWin
  split
  · rename_i h
    simp only [Memory.get_erase]
    split
    · rename_i hj; subst hj; simp [h.1, h.2]
    · rfl
  · simp only [Memory.get_set]
    split <;> rfl

theorem readWin_fillWin (s : State) (n j : Nat) :
    (s.fillWin n).readWin j = if j < n then s.par.windowInitAt j else s.readWin j := by
  unfold State.readWin
  rw [fillWin_win, fillWin_winFilled, fillWin_par, Memory.get_dropBelow]
  by_cases h : j < n
  · simp [h, show ¬ n ≤ j by omega]
  · have h' : n ≤ j := by omega
    simp only [h, if_false, h', if_true, lt_max_iff, or_false]

/-- A read of a memory depends on that memory alone (for OUT on the draw, for WIN on its fill, besides). -/
theorem readData_congr {s t : State} (h : t.data = s.data) (i : Nat) : t.readData i = s.readData i := by
  unfold State.readData; rw [h]

theorem readSnap_congr {s t : State} (h : t.snap = s.snap) (i : Nat) : t.readSnap i = s.readSnap i := by
  unfold State.readSnap; rw [h]

/-- After a raise no OUT byte is defined, whichever command raised (60_exceptions.md R214, 10_state.md R42). -/
theorem readOut_raise (s : State) (e : ErrKind) (b : Bool) (i : Nat) :
    (s.raise e b).readOut i = Config.freeOut (s.raise e b).draws i := by
  unfold State.readOut; rw [raise_out]; rfl

theorem readOut_congr {s t : State} (h : t.out = s.out) (hd : t.draws = s.draws) (i : Nat) :
    t.readOut i = s.readOut i := by
  unfold State.readOut; rw [h, hd]

theorem readWin_congr {s t : State} (h : t.win = s.win) (hf : t.winFilled = s.winFilled) (hp : t.par = s.par) (i : Nat) :
    t.readWin i = s.readWin i := by
  unfold State.readWin; rw [h, hf, hp]

/-- Writing WIN keeps its canonical form. -/
theorem winCanonical_writeWin {s : State} (h : s.winCanonical) (i : Nat) (v : Byte) : (s.writeWin i v).winCanonical := by
  intro c hc hlt
  rw [writeWin_winFilled] at hlt
  rw [writeWin_par]
  unfold State.writeWin at hc
  split at hc
  · exact h c (List.mem_filter.mp hc).1 hlt
  · rename_i hn
    rcases Memory.mem_set hc with rfl | hc
    · intro hv; exact hn ⟨hlt, hv⟩
    · exact h c hc hlt

/-- Filling WIN keeps its canonical form. -/
theorem winCanonical_fillWin {s : State} (h : s.winCanonical) (n : Nat) : (s.fillWin n).winCanonical := by
  intro c hc hlt
  rw [fillWin_win] at hc
  rw [fillWin_winFilled] at hlt
  have hm := List.mem_filter.mp hc
  have hn : n ≤ c.1 := by simpa using hm.2
  exact h c hm.1 (by omega)

theorem wf_writeWin {s : State} (h : s.win.wf) (i : Nat) (v : Byte) : (s.writeWin i v).win.wf := by
  unfold State.writeWin; split
  · exact Memory.wf_erase h i
  · exact Memory.wf_set h i v

theorem within_writeWin {s : State} {n i : Nat} (h : s.win.within n) (hi : i < n) (v : Byte) :
    (s.writeWin i v).win.within n := by
  unfold State.writeWin; split
  · exact Memory.within_filter h _
  · exact Memory.within_set h hi v

/-! ### The snapshot (41_block_unshuffler.md R133) -/

section
variable (s : State) (n : Nat)

theorem snapshot_eq : s.snapshot n = { s with snap := (s.snapshot n).snap } := by
  induction n with
  | zero => rfl
  | succ n ih => rw [State.snapshot]; unfold State.writeSnap; rw [ih]

@[simp] theorem snapshot_par : (s.snapshot n).par = s.par := by rw [snapshot_eq]
@[simp] theorem snapshot_regs : (s.snapshot n).regs = s.regs := by rw [snapshot_eq]
@[simp] theorem snapshot_work : (s.snapshot n).work = s.work := by rw [snapshot_eq]
@[simp] theorem snapshot_data : (s.snapshot n).data = s.data := by rw [snapshot_eq]
@[simp] theorem snapshot_out : (s.snapshot n).out = s.out := by rw [snapshot_eq]
@[simp] theorem snapshot_win : (s.snapshot n).win = s.win := by rw [snapshot_eq]
@[simp] theorem snapshot_winFilled : (s.snapshot n).winFilled = s.winFilled := by rw [snapshot_eq]
@[simp] theorem snapshot_draws : (s.snapshot n).draws = s.draws := by rw [snapshot_eq]
@[simp] theorem snapshot_inputs : (s.snapshot n).inputs = s.inputs := by rw [snapshot_eq]
@[simp] theorem snapshot_replies : (s.snapshot n).replies = s.replies := by rw [snapshot_eq]

theorem readSnap_snapshot (i : Nat) : (s.snapshot n).readSnap i = if i < n then s.readData i else s.readSnap i := by
  induction n with
  | zero => simp [State.snapshot]
  | succ n ih =>
    rw [State.snapshot, readSnap_writeSnap, ih]
    by_cases h : i = n
    · subst h; simp
    · by_cases h' : i < n
      · simp [h, h', Nat.lt_succ_of_lt h']
      · simp [h, h', show ¬ i < n + 1 by omega]

theorem wf_snapshot (h : s.snap.wf) : (s.snapshot n).snap.wf := by
  induction n with
  | zero => exact h
  | succ n ih => rw [State.snapshot, writeSnap_snap]; exact Memory.wf_set ih n _

theorem within_snapshot {k : Nat} (h : s.snap.within k) (hn : n ≤ k) : (s.snapshot n).snap.within k := by
  induction n with
  | zero => exact h
  | succ n ih => rw [State.snapshot, writeSnap_snap]; exact Memory.within_set (ih (by omega)) (by omega) _

end

/-- The memories of the reset state are in canonical form. -/
theorem reset_memories_wf : State.reset.data.wf ∧ State.reset.out.wf ∧ State.reset.snap.wf ∧ State.reset.win.wf
    ∧ State.reset.winCanonical := by decide

end Sys2Proof.Machine
end

