-- ==== Sys2Proof/Laws/Ops.lean ====
section
/-! SUPPORT. What the shared operations can do: sequencing, the busy guard, the checks, the bit reader and Emit. -/

namespace Sys2Proof.Machine

/-! ### Sequencing -/

@[simp] theorem Flow.go_andThen (s : State) (f : State → Flow) : (Flow.go s).andThen f = f s := rfl
@[simp] theorem Flow.stop_andThen (s : State) (f : State → Flow) : (Flow.stop s).andThen f = .stop s := rfl
@[simp] theorem Flow.fault_andThen (r : Fault) (f : State → Flow) : (Flow.fault r).andThen f = .fault r := rfl

theorem Flow.andThen_assoc (x : Flow) (f g : State → Flow) :
    (x.andThen f).andThen g = x.andThen fun s => (f s).andThen g := by
  cases x <;> rfl

@[simp] theorem Flow.outcome_go (s : State) : (Flow.go s).outcome = .next s := rfl
@[simp] theorem Flow.outcome_stop (s : State) : (Flow.stop s).outcome = .next s := rfl
@[simp] theorem Flow.outcome_fault (r : Fault) : (Flow.fault r).outcome = .fault r := rfl

theorem Flow.outcome_next {x : Flow} {t : State} : x.outcome = .next t ↔ x = .go t ∨ x = .stop t := by
  cases x <;> simp

@[simp] theorem repeatFlow_zero (f : State → Flow) (s : State) : repeatFlow 0 f s = .go s := rfl
theorem repeatFlow_succ (n : Nat) (f : State → Flow) (s : State) :
    repeatFlow (n + 1) f s = (f s).andThen (repeatFlow n f) := rfl

theorem repeatFlow_add (m n : Nat) (f : State → Flow) (s : State) :
    repeatFlow (m + n) f s = (repeatFlow m f s).andThen (repeatFlow n f) := by
  induction m generalizing s with
  | zero => simp
  | succ m ih =>
    rw [show m + 1 + n = (m + n) + 1 by omega, repeatFlow_succ, repeatFlow_succ, Flow.andThen_assoc]
    congr 1
    funext t
    exact ih t

/-- A body that always goes on, repeated: the function it applies, repeated. -/
theorem repeatFlow_go (n : Nat) (f : State → State) (s : State) :
    repeatFlow n (fun s => .go (f s)) s = .go (f^[n] s) := by
  induction n generalizing s with
  | zero => rfl
  | succ n ih => rw [repeatFlow_succ]; exact ih (f s)

/-- A property a body keeps whenever it goes on holds when the loop goes on. -/
theorem repeatFlow_induct {P : State → Prop} {f : State → Flow} (hf : ∀ s t, P s → f s = .go t → P t) :
    ∀ n s t, P s → repeatFlow n f s = .go t → P t
  | 0, s, t, hs, h => by simp only [repeatFlow_zero, Flow.go.injEq] at h; exact h ▸ hs
  | n + 1, s, t, hs, h => by
    rw [repeatFlow_succ] at h
    cases hfs : f s with
    | go u => rw [hfs] at h; exact repeatFlow_induct hf n u t (hf s u hs hfs) h
    | stop u => rw [hfs] at h; cases h
    | fault r => rw [hfs] at h; cases h

/-! ### The busy guard and the checks -/

theorem unlessBusy_idle {s : State} (h : s.isBusy = false) (o : Host.Outcome State Fault Refusal) :
    s.unlessBusy o = o := by
  unfold State.unlessBusy; rw [h]; rfl

theorem unlessBusy_busy {s : State} (h : s.isBusy = true) (o : Host.Outcome State Fault Refusal) :
    s.unlessBusy o = .refused .hostAccessWhileBusy := by
  unfold State.unlessBusy; rw [h]; rfl

theorem isBusy_iff (s : State) : s.isBusy = true ↔ s.regs.status = .busy := by simp [State.isBusy]

theorem isBusy_eq_false (s : State) : s.isBusy = false ↔ s.regs.status ≠ .busy := by simp [State.isBusy]

/-- The length check passes: L is IN_LEN (60_exceptions.md R216). -/
theorem checkLength_ok {s : State} (h : s.regs.inLen.toNat ≤ s.par.inCapacity) :
    s.checkLength = .go { s with work := { s.work with l := s.regs.inLen } } := by
  unfold State.checkLength; rw [if_neg (by omega)]

/-- The length check fails: OUT_OF_RANGE (60_exceptions.md R216). -/
theorem checkLength_long {s : State} (h : s.par.inCapacity < s.regs.inLen.toNat) :
    s.checkLength = .stop (State.raise { s with work := { s.work with l := s.regs.inLen } } .outOfRange false) := by
  unfold State.checkLength; rw [if_pos h]

/-- Counting up by one below the width. -/
theorem word_succ {x : Word} {n : Nat} (h : x.toNat = n) (hn : n + 1 < 2 ^ 32) : (x + 1).toNat = n + 1 := by
  rw [BitVec.toNat_add, h, show (1 : Word).toNat = 1 from rfl]; omega

/-! ### The bit reader (30_encoding.md R96 to R98) -/

/-- Everything ReadBits(n) can do: raise FORMAT_INVALID under fail_fast when fewer than `n` bits are left, or give `k` a value
and a cursor moved by the bits it really consumed. -/
theorem withBits_cases (s : State) (n : Nat) (k : Nat → State → Flow) :
    (s.par.pastEnd = .failFast ∧ s.work.total.toNat < s.work.brPos.toNat + n
        ∧ s.withBits n k = .stop (s.raise .formatInvalid true))
      ∨ (s.par.pastEnd = .failFast ∧ s.work.brPos.toNat + n ≤ s.work.total.toNat
        ∧ s.withBits n k = k (natOfBits (s.streamBits s.work.brPos.toNat n)) (s.advance n))
      ∨ (s.par.pastEnd = .zeroFillSaturating
        ∧ s.withBits n k = k (natOfBits (s.paddedBits n)) (s.advance (min n s.bitsLeft))) := by
  unfold State.withBits
  cases h : s.par.pastEnd with
  | failFast =>
    by_cases hn : s.work.total.toNat < s.work.brPos.toNat + n
    · exact .inl ⟨rfl, hn, by simp only [if_pos hn]⟩
    · exact .inr (.inl ⟨rfl, by omega, by simp only [if_neg hn]⟩)
  | zeroFillSaturating => exact .inr (.inr ⟨rfl, rfl⟩)

/-- A read that would pass the last bit raises FORMAT_INVALID under fail_fast (30_encoding.md R96). -/
theorem withBits_short {s : State} {n : Nat} (hp : s.par.pastEnd = .failFast)
    (h : s.work.total.toNat < s.work.brPos.toNat + n) (k : Nat → State → Flow) :
    s.withBits n k = .stop (s.raise .formatInvalid true) := by
  unfold State.withBits; simp only [hp, if_pos h]

@[simp] theorem streamBits_length (s : State) (q n : Nat) : (s.streamBits q n).length = n := by
  induction n generalizing q with
  | zero => rfl
  | succ n ih => simp [State.streamBits, ih]

/-- A read of bits that are there gives them, under either policy (30_encoding.md R96, R97). -/
theorem withBits_ok {s : State} {n : Nat} (h : s.work.brPos.toNat + n ≤ s.work.total.toNat) (k : Nat → State → Flow) :
    s.withBits n k = k (natOfBits (s.streamBits s.work.brPos.toNat n)) (s.advance n) := by
  have hm : min n s.bitsLeft = n := by unfold State.bitsLeft; omega
  unfold State.withBits
  cases hp : s.par.pastEnd with
  | failFast => simp only [if_neg (show ¬ s.work.total.toNat < s.work.brPos.toNat + n by omega)]
  | zeroFillSaturating => simp [State.paddedBits, hm]

theorem skipBits_ok {s : State} {n : Nat} (h : s.work.brPos.toNat + n ≤ s.work.total.toNat) (k : State → Flow) :
    s.skipBits n k = k (s.advance n) := by unfold State.skipBits; rw [withBits_ok h]

/-- The cursor after a read that cannot raise, as a number (30_encoding.md R96, R97). -/
theorem skipBits_canRead {s : State} {n : Nat} (h : s.canRead n) (hle : s.work.brPos.toNat ≤ s.work.total.toNat)
    (k : State → Flow) : s.skipBits n k = k (s.advance (min n s.bitsLeft)) := by
  by_cases hn : s.work.brPos.toNat + n ≤ s.work.total.toNat
  · rw [skipBits_ok hn, show min n s.bitsLeft = n by unfold State.bitsLeft; omega]
  · have hp : s.par.pastEnd = .zeroFillSaturating := h.resolve_left hn
    unfold State.skipBits State.withBits; rw [hp]

theorem skipBits_short {s : State} {n : Nat} (hp : s.par.pastEnd = .failFast)
    (h : s.work.total.toNat < s.work.brPos.toNat + n) (k : State → Flow) :
    s.skipBits n k = .stop (s.raise .formatInvalid true) := withBits_short hp h _

theorem advance_brPos_toNat {s : State} {n : Nat} (h : s.work.brPos.toNat + n < 2 ^ 32) :
    (s.advance n).work.brPos.toNat = s.work.brPos.toNat + n := by
  simp only [advance_work, BitVec.toNat_add, BitVec.toNat_ofNat]; omega

theorem advance_min_brPos {s : State} (n : Nat) (hle : s.work.brPos.toNat ≤ s.work.total.toNat) :
    (s.advance (min n s.bitsLeft)).work.brPos.toNat = min (s.work.brPos.toNat + n) s.work.total.toNat := by
  have := s.work.total.isLt
  rw [advance_brPos_toNat (by unfold State.bitsLeft; omega)]; unfold State.bitsLeft; omega

theorem advance_cursor_le {s : State} {n : Nat} (hle : s.work.brPos.toNat + n ≤ s.work.total.toNat) :
    (s.advance n).work.brPos.toNat = s.work.brPos.toNat + n := by
  have := s.work.total.isLt
  exact advance_brPos_toNat (by omega)

/-! ### The cursor as a number -/

/-- The cursor at stream bit `p`. -/
def State.seek (s : State) (p : Nat) : State := { s with work := { s.work with brPos := BitVec.ofNat 32 p } }

theorem advance_eq_seek (s : State) (n : Nat) : s.advance n = s.seek (s.work.brPos.toNat + n) := by
  unfold State.advance State.seek
  congr 2
  rw [BitVec.ofNat_add]; simp

theorem seek_brPos {s : State} {p : Nat} (h : p < 2 ^ 32) : (s.seek p).work.brPos.toNat = p := by
  show (BitVec.ofNat 32 p).toNat = p
  rw [BitVec.toNat_ofNat]; omega

theorem streamBits_congr {s t : State} (h : t.data = s.data) (q n : Nat) : t.streamBits q n = s.streamBits q n := by
  induction n generalizing q with
  | zero => rfl
  | succ n ih => rw [State.streamBits, State.streamBits, ih]; unfold State.streamBit; rw [readData_congr h]

theorem streamBits_add (s : State) (q a b : Nat) : s.streamBits q (a + b) = s.streamBits q a ++ s.streamBits (q + a) b := by
  induction a generalizing q with
  | zero => simp [State.streamBits]
  | succ a ih =>
    rw [show a + 1 + b = (a + b) + 1 by omega, State.streamBits, ih, State.streamBits, List.cons_append]
    rw [show q + 1 + a = q + (a + 1) by omega]

theorem paddedBits_length (s : State) (n : Nat) : (s.paddedBits n).length = n := by
  unfold State.paddedBits; simp

/-- Everything ReadBits(n) can do from a cursor inside the stream, the cursor written as a number: raise under fail_fast, or give the
next `n` bits, zeros after the last, and stop at the last (30_encoding.md R95 to R98). -/
theorem withBits_spec (s : State) (n : Nat) (k : Nat → State → Flow) (hle : s.work.brPos.toNat ≤ s.work.total.toNat) :
    (s.par.pastEnd = .failFast ∧ s.work.total.toNat < s.work.brPos.toNat + n ∧ s.withBits n k = .stop (s.raise .formatInvalid true))
    ∨ (s.canRead n ∧ s.withBits n k = k (natOfBits (s.paddedBits n)) (s.seek (min (s.work.brPos.toNat + n) s.work.total.toNat))) := by
  rcases withBits_cases s n k with h | ⟨-, hle', e⟩ | ⟨hz, e⟩
  · exact .inl h
  · right
    refine ⟨.inl hle', ?_⟩
    rw [e, advance_eq_seek]
    have : s.paddedBits n = s.streamBits s.work.brPos.toNat n := by
      unfold State.paddedBits; rw [show min n s.bitsLeft = n by unfold State.bitsLeft; omega]; simp
    rw [this, show min (s.work.brPos.toNat + n) s.work.total.toNat = s.work.brPos.toNat + n by omega]
  · right
    refine ⟨.inr hz, ?_⟩
    rw [e, advance_eq_seek]
    congr 2; unfold State.bitsLeft; omega

/-- At the end of the stream every read that does not raise gives 0 (30_encoding.md R97). -/
theorem natOfBits_paddedBits_end {s : State} (h : s.work.brPos.toNat = s.work.total.toNat) (n : Nat) : natOfBits (s.paddedBits n) = 0 := by
  unfold State.paddedBits State.bitsLeft
  rw [h]; simp [State.streamBits, natOfBits_zeros]

theorem skipBits_seek {s : State} {n : Nat} (h : s.canRead n) (hle : s.work.brPos.toNat ≤ s.work.total.toNat)
    (k : State → Flow) : s.skipBits n k = k (s.seek (min (s.work.brPos.toNat + n) s.work.total.toNat)) := by
  rw [skipBits_canRead h hle, advance_eq_seek]
  congr 2; unfold State.bitsLeft; omega

theorem canRead_mono {s : State} {m n : Nat} (h : s.canRead n) (hm : m ≤ n) : s.canRead m := by
  rcases h with h | h
  · exact .inl (by omega)
  · exact .inr h

theorem canRead_seek {s : State} {a b : Nat} (h : s.canRead (a + b)) :
    (s.seek (min (s.work.brPos.toNat + a) s.work.total.toNat)).canRead b := by
  rcases h with h | h
  · left
    have := s.work.total.isLt
    rw [seek_brPos (by omega)]; show _ ≤ s.work.total.toNat; omega
  · exact .inr h

/-! ### Emit (42_lzss_decoder.md R168) -/

/-- The state Emit(v) leaves when there is room. -/
def State.emitted (s : State) (v : Byte) : State :=
  { (s.writeOut s.work.optr.toNat v).writeWin s.work.wcur.toNat v with
    work := { s.work with optr := s.work.optr + 1, wcur := s.windowSucc s.work.wcur } }

theorem emit_room {s : State} (h : s.work.optr.toNat ≠ s.par.outCapacity) (v : Byte) (k : State → Flow) :
    s.emit v k = k (s.emitted v) := by
  unfold State.emit; rw [if_neg h]; rfl

theorem emit_full {s : State} (h : s.work.optr.toNat = s.par.outCapacity) (v : Byte) (k : State → Flow) :
    s.emit v k = .stop (s.raise .resourceExhaustion true) := by
  unfold State.emit; rw [if_pos h]

section
variable (s : State) (v : Byte)

@[simp] theorem emitted_par : (s.emitted v).par = s.par := by unfold State.emitted; simp
@[simp] theorem emitted_regs : (s.emitted v).regs = s.regs := by unfold State.emitted; simp
@[simp] theorem emitted_work : (s.emitted v).work =
    { s.work with optr := s.work.optr + 1, wcur := s.windowSucc s.work.wcur } := rfl
@[simp] theorem emitted_data : (s.emitted v).data = s.data := by unfold State.emitted; simp
@[simp] theorem emitted_out : (s.emitted v).out = s.out.set s.work.optr.toNat v := by unfold State.emitted; simp
@[simp] theorem emitted_snap : (s.emitted v).snap = s.snap := by unfold State.emitted; simp
@[simp] theorem emitted_winFilled : (s.emitted v).winFilled = s.winFilled := by unfold State.emitted; simp
@[simp] theorem emitted_draws : (s.emitted v).draws = s.draws := by unfold State.emitted; simp
@[simp] theorem emitted_inputs : (s.emitted v).inputs = s.inputs := by unfold State.emitted; simp
@[simp] theorem emitted_replies : (s.emitted v).replies = s.replies := by unfold State.emitted; simp

theorem readOut_emitted (i : Nat) : (s.emitted v).readOut i = if i = s.work.optr.toNat then v else s.readOut i := by
  unfold State.readOut; rw [emitted_out, emitted_draws, Memory.get_set]; split <;> rfl

theorem readWin_emitted (x : Nat) : (s.emitted v).readWin x = if x = s.work.wcur.toNat then v else s.readWin x := by
  have h : (s.emitted v).readWin x = ((s.writeOut s.work.optr.toNat v).writeWin s.work.wcur.toNat v).readWin x :=
    readWin_congr rfl rfl rfl x
  rw [h, readWin_writeWin]
  split
  · rfl
  · exact readWin_congr rfl rfl rfl x

end

/-- All that Emit changes. -/
theorem emitted_frame (s : State) (v : Byte) : s.emitted v = { s with out := (s.emitted v).out, win := (s.emitted v).win, work := (s.emitted v).work } := by
  unfold State.emitted State.writeWin; split <;> rfl

/-- The next window index, as a number, for a window no larger than its register holds (42_lzss_decoder.md R167). -/
theorem windowSucc_toNat {s : State} {w : Nat} (hw : s.work.w.toNat = w) (h0 : 0 < w) (h13 : w ≤ 2 ^ 13)
    (x : BitVec 13) : (s.windowSucc x).toNat = (x.toNat + 1) % w := by
  unfold State.windowSucc
  rw [BitVec.toNat_ofNat, hw]
  exact Nat.mod_eq_of_lt (Nat.lt_of_lt_of_le (Nat.mod_lt _ h0) h13)

end Sys2Proof.Machine
end

