-- ==== Sys2Proof/Laws/Block.lean ====
section
/-! SUPPORT. What the pieces of DECRYPT_BLOCK do (41_block_unshuffler.md): the active length, an iteration of a pass, a pass. -/

namespace Sys2Proof.Machine

/-! ### The active length (41_block_unshuffler.md R132) -/

theorem activeLength_le (q : QuarterDiv) (len bs : Nat) : activeLength q len bs ≤ len := by
  have := Nat.mod_le len bs
  unfold activeLength
  dsimp only
  split <;> split <;> omega

/-! ### The initial step -/

/-- The state of the initial step once the checks have passed (41_block_unshuffler.md R130, R148). -/
def blockBegun (s : State) : State :=
  { s with
    regs := { s.regs with op := 2, status := .busy, outLen := 0 }
    snap := (s.snapshot s.regs.inLen.toNat).snap
    work := { s.work with
      l := s.regs.inLen, left := BitVec.ofNat 32 s.activeLen, kb := s.regs.base, p := 0, j := 0 } }

theorem snapshot_snap_congr {s t : State} (hd : t.data = s.data) (hs : t.snap = s.snap) (n : Nat) :
    (t.snapshot n).snap = (s.snapshot n).snap := by
  induction n with
  | zero => exact hs
  | succ n ih =>
    rw [State.snapshot, State.snapshot, writeSnap_snap, writeSnap_snap, ih, readData_congr hd]

theorem beginBlock_ok {s : State} (h : s.regs.inLen.toNat ≤ s.par.inCapacity) (hb : s.blockSize ≠ 0) :
    beginBlock s = .go (blockBegun s) := by
  unfold beginBlock
  rw [checkLength_ok (by simpa using h), Flow.go_andThen]
  rw [if_neg (by exact hb)]
  have key : ∀ (t : State) (n : Nat), t.data = s.data → t.snap = s.snap →
      t.snapshot n = { t with snap := (s.snapshot n).snap } :=
    fun t n hd hs => by rw [snapshot_eq, snapshot_snap_congr hd hs]
  dsimp only
  rw [key _ _ (by rfl) (by rfl)]
  rfl

theorem beginBlock_long {s : State} (h : s.par.inCapacity < s.regs.inLen.toNat) :
    beginBlock s = .stop { s with
      regs := { s.regs with op := 2, status := .error .outOfRange, outLen := 0 }
      work := { s.work with l := s.regs.inLen }
      out := [], draws := s.draws + 1 } := by
  unfold beginBlock
  rw [checkLength_long (by simpa using h)]
  rfl

theorem beginBlock_zero {s : State} (h : s.regs.inLen.toNat ≤ s.par.inCapacity) (hb : s.blockSize = 0) :
    beginBlock s = .stop { s with
      regs := { s.regs with op := 2, status := .error .outOfRange, outLen := 0 }
      work := { s.work with l := s.regs.inLen }
      out := [], draws := s.draws + 1 } := by
  unfold beginBlock
  rw [checkLength_ok (by simpa using h), Flow.go_andThen, if_pos (by exact hb)]
  rfl

theorem readSnap_blockBegun (s : State) (i : Nat) :
    (blockBegun s).readSnap i = if i < s.regs.inLen.toNat then s.readData i else s.readSnap i :=
  readSnap_snapshot s s.regs.inLen.toNat i

/-! ### One iteration (41_block_unshuffler.md R135, R136) -/

/-- The state after an iteration of the first pass. -/
def afterFirst (s : State) : State :=
  { s with
    data := s.data.set s.work.tp1.toNat (s.readSnap s.work.p.toNat ^^^ s.work.kb)
    work := { s.work with
      kb := s.work.kb + s.regs.add, p := s.work.p + 1, j := s.work.j - 1, tp1 := s.work.tp1 - 2 } }

/-- The state after an iteration of the second pass. -/
def afterSecond (s : State) : State :=
  { s with
    data := s.data.set s.work.tp2.toNat (s.readSnap s.work.p.toNat ^^^ s.work.kb)
    work := { s.work with
      kb := s.work.kb + s.regs.add, p := s.work.p + 1, j := s.work.j - 1, tp2 := s.work.tp2 - 2 } }

theorem firstPassByte_ok {s : State} (h0 : 0 ≤ s.work.tp1) (h1 : s.work.tp1 < s.work.l.toNat)
    (h2 : s.work.p.toNat < s.work.l.toNat) : firstPassByte s = .go (afterFirst s) := by
  unfold firstPassByte putByte; rw [if_pos ⟨h0, h1, h2⟩]; rfl

theorem secondPassByte_ok {s : State} (h0 : 0 ≤ s.work.tp2) (h1 : s.work.tp2 < s.work.l.toNat)
    (h2 : s.work.p.toNat < s.work.l.toNat) : secondPassByte s = .go (afterSecond s) := by
  unfold secondPassByte putByte; rw [if_pos ⟨h0, h1, h2⟩]; rfl

/-! ### A pass: `n` iterations -/

theorem word_add_one_toNat {x : Word} {n k : Nat} (h : x.toNat = n) (hk : n + 1 < k) (hk' : k ≤ 2 ^ 32) :
    (x + 1).toNat = n + 1 := by
  rw [BitVec.toNat_add, h, show (1 : Word).toNat = 1 from rfl]; omega

theorem byte_ofNat_succ_mul (n : Nat) (a : Byte) : BitVec.ofNat 8 (n + 1) * a = BitVec.ofNat 8 n * a + a := by
  rw [BitVec.ofNat_add, BitVec.add_mul]; simp

theorem word_sub_ofNat_succ (x : Word) (n : Nat) : x - BitVec.ofNat 32 n - 1 = x - BitVec.ofNat 32 (n + 1) := by
  rw [BitVec.ofNat_add, BitVec.sub_sub]; rfl

/-- `n` iterations of the first pass: the registers' values, the bytes written, and that nothing else changes. -/
theorem afterFirst_iterate (n : Nat) (s : State) (hp : s.work.p.toNat + n < 2 ^ 32)
    (ht : 2 * (n : Int) ≤ s.work.tp1 + 2) :
    (afterFirst^[n] s).work = { s.work with
        kb := s.work.kb + BitVec.ofNat 8 n * s.regs.add, p := BitVec.ofNat 32 (s.work.p.toNat + n)
        j := s.work.j - BitVec.ofNat 32 n, tp1 := s.work.tp1 - 2 * n }
    ∧ afterFirst^[n] s = { s with data := (afterFirst^[n] s).data, work := (afterFirst^[n] s).work }
    ∧ (∀ m, m < n → (afterFirst^[n] s).readData (s.work.tp1 - 2 * m).toNat =
        s.readSnap (s.work.p.toNat + m) ^^^ (s.work.kb + BitVec.ofNat 8 m * s.regs.add))
    ∧ (∀ a : Nat, (∀ m : Nat, m < n → (a : Int) ≠ s.work.tp1 - 2 * m) → (afterFirst^[n] s).readData a = s.readData a) := by
  induction n with
  | zero => exact ⟨by simp, rfl, fun m hm => absurd hm (Nat.not_lt_zero m), fun a _ => rfl⟩
  | succ n ih =>
    obtain ⟨hw, hs, hd, hf⟩ := ih (by omega) (by omega)
    rw [Function.iterate_succ_apply']
    generalize afterFirst^[n] s = t at hw hs hd hf
    have hpn : t.work.p.toNat = s.work.p.toNat + n := by rw [hw]; simp; omega
    have hkb : t.work.kb = s.work.kb + BitVec.ofNat 8 n * s.regs.add := by rw [hw]
    have htp : t.work.tp1 = s.work.tp1 - 2 * n := by rw [hw]
    have hj : t.work.j = s.work.j - BitVec.ofNat 32 n := by rw [hw]
    have hadd : t.regs.add = s.regs.add := by rw [hs]
    have hread : ∀ a, (afterFirst t).readData a =
        if a = t.work.tp1.toNat then s.readSnap (s.work.p.toNat + n) ^^^ t.work.kb else t.readData a := by
      intro a
      unfold State.readData afterFirst
      dsimp only
      rw [Memory.get_set, show t.readSnap t.work.p.toNat = s.readSnap (s.work.p.toNat + n) by
        rw [hpn]; exact readSnap_congr (by rw [hs]) _]
      split <;> rfl
    refine ⟨?_, ?_, ?_, ?_⟩
    · have : (afterFirst t).work = { t.work with
          kb := t.work.kb + t.regs.add, p := t.work.p + 1, j := t.work.j - 1, tp1 := t.work.tp1 - 2 } := rfl
      have h1 : t.work.p + 1 = BitVec.ofNat 32 (s.work.p.toNat + (n + 1)) := by
        apply BitVec.eq_of_toNat_eq
        rw [BitVec.toNat_add, hpn, show (1 : Word).toNat = 1 from rfl, BitVec.toNat_ofNat]; omega
      have h2 : t.work.tp1 - 2 = s.work.tp1 - 2 * ((n + 1 : Nat) : Int) := by rw [htp]; push_cast; ring
      have h3 : t.work.kb + t.regs.add = s.work.kb + BitVec.ofNat 8 (n + 1) * s.regs.add := by
        rw [hkb, hadd, byte_ofNat_succ_mul, BitVec.add_assoc]
      rw [this, h1, h2, h3, hj, word_sub_ofNat_succ, hw]
    · rw [hs]; rfl
    · intro m hm
      rw [hread]
      by_cases hmn : m = n
      · subst hmn; rw [if_pos (by rw [htp]), hkb]
      · rw [if_neg (by rw [htp]; omega)]; exact hd m (by omega)
    · intro a ha
      rw [hread, if_neg (by have := ha n (by omega); rw [htp]; omega)]
      exact hf a fun m hm => ha m (by omega)

/-- `n` iterations of the second pass. -/
theorem afterSecond_iterate (n : Nat) (s : State) (hp : s.work.p.toNat + n < 2 ^ 32)
    (ht : 2 * (n : Int) ≤ s.work.tp2 + 2) :
    (afterSecond^[n] s).work = { s.work with
        kb := s.work.kb + BitVec.ofNat 8 n * s.regs.add, p := BitVec.ofNat 32 (s.work.p.toNat + n)
        j := s.work.j - BitVec.ofNat 32 n, tp2 := s.work.tp2 - 2 * n }
    ∧ afterSecond^[n] s = { s with data := (afterSecond^[n] s).data, work := (afterSecond^[n] s).work }
    ∧ (∀ m, m < n → (afterSecond^[n] s).readData (s.work.tp2 - 2 * m).toNat =
        s.readSnap (s.work.p.toNat + m) ^^^ (s.work.kb + BitVec.ofNat 8 m * s.regs.add))
    ∧ (∀ a : Nat, (∀ m : Nat, m < n → (a : Int) ≠ s.work.tp2 - 2 * m) → (afterSecond^[n] s).readData a = s.readData a) := by
  induction n with
  | zero => exact ⟨by simp, rfl, fun m hm => absurd hm (Nat.not_lt_zero m), fun a _ => rfl⟩
  | succ n ih =>
    obtain ⟨hw, hs, hd, hf⟩ := ih (by omega) (by omega)
    rw [Function.iterate_succ_apply']
    generalize afterSecond^[n] s = t at hw hs hd hf
    have hpn : t.work.p.toNat = s.work.p.toNat + n := by rw [hw]; simp; omega
    have hkb : t.work.kb = s.work.kb + BitVec.ofNat 8 n * s.regs.add := by rw [hw]
    have htp : t.work.tp2 = s.work.tp2 - 2 * n := by rw [hw]
    have hj : t.work.j = s.work.j - BitVec.ofNat 32 n := by rw [hw]
    have hadd : t.regs.add = s.regs.add := by rw [hs]
    have hread : ∀ a, (afterSecond t).readData a =
        if a = t.work.tp2.toNat then s.readSnap (s.work.p.toNat + n) ^^^ t.work.kb else t.readData a := by
      intro a
      unfold State.readData afterSecond
      dsimp only
      rw [Memory.get_set, show t.readSnap t.work.p.toNat = s.readSnap (s.work.p.toNat + n) by
        rw [hpn]; exact readSnap_congr (by rw [hs]) _]
      split <;> rfl
    refine ⟨?_, ?_, ?_, ?_⟩
    · have : (afterSecond t).work = { t.work with
          kb := t.work.kb + t.regs.add, p := t.work.p + 1, j := t.work.j - 1, tp2 := t.work.tp2 - 2 } := rfl
      have h1 : t.work.p + 1 = BitVec.ofNat 32 (s.work.p.toNat + (n + 1)) := by
        apply BitVec.eq_of_toNat_eq
        rw [BitVec.toNat_add, hpn, show (1 : Word).toNat = 1 from rfl, BitVec.toNat_ofNat]; omega
      have h2 : t.work.tp2 - 2 = s.work.tp2 - 2 * ((n + 1 : Nat) : Int) := by rw [htp]; push_cast; ring
      have h3 : t.work.kb + t.regs.add = s.work.kb + BitVec.ofNat 8 (n + 1) * s.regs.add := by
        rw [hkb, hadd, byte_ofNat_succ_mul, BitVec.add_assoc]
      rw [this, h1, h2, h3, hj, word_sub_ofNat_succ, hw]
    · rw [hs]; rfl
    · intro m hm
      rw [hread]
      by_cases hmn : m = n
      · subst hmn; rw [if_pos (by rw [htp]), hkb]
      · rw [if_neg (by rw [htp]; omega)]; exact hd m (by omega)
    · intro a ha
      rw [hread, if_neg (by have := ha n (by omega); rw [htp]; omega)]
      exact hf a fun m hm => ha m (by omega)

/-- A loop of the first pass whose every index is in range goes on (41_block_unshuffler.md R138). -/
theorem repeat_firstPassByte (n : Nat) (s : State) (hp : s.work.p.toNat + n ≤ s.work.l.toNat)
    (ht : 2 * (n : Int) ≤ s.work.tp1 + 2) (hl : s.work.tp1 < s.work.l.toNat) :
    repeatFlow n firstPassByte s = .go (afterFirst^[n] s) := by
  induction n generalizing s with
  | zero => rfl
  | succ n ih =>
    have := s.work.l.isLt
    rw [repeatFlow_succ, firstPassByte_ok (by omega) hl (by omega), Flow.go_andThen, Function.iterate_succ_apply]
    have hpn : (afterFirst s).work.p.toNat = s.work.p.toNat + 1 := word_add_one_toNat rfl (k := 2 ^ 32) (by omega) (by omega)
    have htp : (afterFirst s).work.tp1 = s.work.tp1 - 2 := rfl
    have hll : (afterFirst s).work.l = s.work.l := rfl
    exact ih _ (by rw [hpn, hll]; omega) (by rw [htp]; omega) (by rw [htp, hll]; omega)

/-- A loop of the second pass whose every index is in range goes on (41_block_unshuffler.md R138). -/
theorem repeat_secondPassByte (n : Nat) (s : State) (hp : s.work.p.toNat + n ≤ s.work.l.toNat)
    (ht : 2 * (n : Int) ≤ s.work.tp2 + 2) (hl : s.work.tp2 < s.work.l.toNat) :
    repeatFlow n secondPassByte s = .go (afterSecond^[n] s) := by
  induction n generalizing s with
  | zero => rfl
  | succ n ih =>
    have := s.work.l.isLt
    rw [repeatFlow_succ, secondPassByte_ok (by omega) hl (by omega), Flow.go_andThen, Function.iterate_succ_apply]
    have hpn : (afterSecond s).work.p.toNat = s.work.p.toNat + 1 := word_add_one_toNat rfl (k := 2 ^ 32) (by omega) (by omega)
    have htp : (afterSecond s).work.tp2 = s.work.tp2 - 2 := rfl
    have hll : (afterSecond s).work.l = s.work.l := rfl
    exact ih _ (by rw [hpn, hll]; omega) (by rw [htp]; omega) (by rw [htp, hll]; omega)

/-! ### A whole block (41_block_unshuffler.md R130, R134 to R138) -/

theorem ofNat_toNat_lt {n : Nat} (h : n < 2^32) : (BitVec.ofNat 32 n).toNat = n := by
  rw [BitVec.toNat_ofNat]; exact Nat.mod_eq_of_lt h

/-- The size of the block about to be opened (41_block_unshuffler.md R134). -/
def nextSize (s : State) : Nat := min s.blockSize s.work.left.toNat
/-- A block after `n` iterations of its first pass. -/
def firstPassAt (s : State) (n : Nat) : State := afterFirst^[n] (openBlock s)
/-- A block whose first pass is done. -/
def secondPassStart (s : State) : State := openSecond (firstPassAt s ((nextSize s + 1)/2))
/-- A block after `m` iterations of its second pass. -/
def secondPassAt (s : State) (m : Nat) : State := afterSecond^[m] (secondPassStart s)

/-- A block is left, and it lies inside DATA[0..L). -/
structure BlockReady (s : State) : Prop where
  b0 : 0 < nextSize s
  pl : s.work.p.toNat + nextSize s ≤ s.work.l.toNat

theorem nextSize_lt (s : State) : nextSize s < 2^32 := by
  have := s.work.left.isLt; unfold nextSize; omega

/-- The first pass of a block so far: the registers, the bytes written, the bytes not written. -/
theorem firstPassAt_spec (s : State) (h : BlockReady s) (n : Nat) (hn : n ≤ (nextSize s + 1)/2) :
    (firstPassAt s n).work = { s.work with
        kb := s.work.kb + BitVec.ofNat 8 n * s.regs.add, p := BitVec.ofNat 32 (s.work.p.toNat + n)
        j := BitVec.ofNat 32 ((nextSize s + 1)/2) - BitVec.ofNat 32 n, tp1 := (s.work.p.toNat : Int) + nextSize s - 1 - 2 * n
        tp2 := (s.work.p.toNat : Int) + nextSize s - 2, b := BitVec.ofNat 32 (nextSize s), p0 := s.work.p, pass := .first }
    ∧ firstPassAt s n = { s with data := (firstPassAt s n).data, work := (firstPassAt s n).work }
    ∧ (∀ m, m < n → (firstPassAt s n).readData (s.work.p.toNat + nextSize s - 1 - 2 * m) =
        s.readSnap (s.work.p.toNat + m) ^^^ (s.work.kb + BitVec.ofNat 8 m * s.regs.add))
    ∧ (∀ a : Nat, (∀ m : Nat, m < n → a ≠ s.work.p.toNat + nextSize s - 1 - 2 * m) → (firstPassAt s n).readData a = s.readData a) := by
  have := s.work.l.isLt
  have hp := h.pl; have hb := h.b0
  obtain ⟨hw, hs, hd, hf⟩ := afterFirst_iterate n (openBlock s)
    (by show s.work.p.toNat + n < 2^32; omega) (by show 2 * (n:Int) ≤ ((s.work.p.toNat : Int) + nextSize s - 1) + 2; omega)
  have htp : (openBlock s).work.tp1 = (s.work.p.toNat : Int) + nextSize s - 1 := rfl
  refine ⟨hw, hs, ?_, ?_⟩
  · intro m hm
    have := hd m hm
    rw [htp, show ((s.work.p.toNat : Int) + nextSize s - 1 - 2 * m).toNat = s.work.p.toNat + nextSize s - 1 - 2 * m by omega] at this
    exact this
  · intro a ha
    refine hf a fun m hm => ?_
    have := ha m hm
    rw [htp]; omega

/-- The second pass of a block so far. -/
theorem secondPassAt_spec (s : State) (h : BlockReady s) (n : Nat) (hn : n ≤ nextSize s / 2) :
    (secondPassAt s n).work = { s.work with
        kb := s.work.kb + BitVec.ofNat 8 ((nextSize s + 1)/2 + n) * s.regs.add, p := BitVec.ofNat 32 (s.work.p.toNat + ((nextSize s + 1)/2 + n))
        j := BitVec.ofNat 32 (nextSize s /2) - BitVec.ofNat 32 n, tp1 := (s.work.p.toNat : Int) + nextSize s - 1 - 2 * ((nextSize s + 1)/2 : Nat)
        tp2 := (s.work.p.toNat : Int) + nextSize s - 2 - 2 * n, b := BitVec.ofNat 32 (nextSize s), p0 := s.work.p, pass := .second }
    ∧ secondPassAt s n = { s with data := (secondPassAt s n).data, work := (secondPassAt s n).work }
    ∧ (∀ m, m < n → (secondPassAt s n).readData (s.work.p.toNat + nextSize s - 2 - 2 * m) =
        s.readSnap (s.work.p.toNat + ((nextSize s + 1)/2 + m)) ^^^ (s.work.kb + BitVec.ofNat 8 ((nextSize s + 1)/2 + m) * s.regs.add))
    ∧ (∀ a : Nat, (∀ m : Nat, m < n → a ≠ s.work.p.toNat + nextSize s - 2 - 2 * m) → (secondPassAt s n).readData a = (firstPassAt s ((nextSize s + 1)/2)).readData a) := by
  have := s.work.l.isLt
  have hp := h.pl; have hb := h.b0
  obtain ⟨aw, as, -, -⟩ := firstPassAt_spec s h _ (Nat.le_refl _)
  have sw : (secondPassStart s).work = { (firstPassAt s ((nextSize s + 1)/2)).work with j := BitVec.ofNat 32 ((firstPassAt s ((nextSize s + 1)/2)).work.b.toNat / 2), pass := .second } := rfl
  rw [aw] at sw
  dsimp only at sw
  rw [ofNat_toNat_lt (nextSize_lt s)] at sw
  have sp : (secondPassStart s).work.p.toNat = s.work.p.toNat + (nextSize s + 1)/2 := by rw [sw]; exact ofNat_toNat_lt (by omega)
  have st : (secondPassStart s).work.tp2 = (s.work.p.toNat : Int) + nextSize s - 2 := by rw [sw]
  have skb : (secondPassStart s).work.kb = s.work.kb + BitVec.ofNat 8 ((nextSize s + 1)/2) * s.regs.add := by rw [sw]
  have ss : secondPassStart s = { s with data := (firstPassAt s ((nextSize s + 1)/2)).data, work := (secondPassStart s).work } := by
    show { firstPassAt s ((nextSize s + 1)/2) with work := (secondPassStart s).work } = _
    rw [as]
  have sadd : (secondPassStart s).regs.add = s.regs.add := by rw [ss]
  have kk : ∀ m, (secondPassStart s).work.kb + BitVec.ofNat 8 m * s.regs.add = s.work.kb + BitVec.ofNat 8 ((nextSize s + 1)/2 + m) * s.regs.add := by
    intro m; rw [skb, BitVec.ofNat_add, BitVec.add_mul, BitVec.add_assoc]
  obtain ⟨hw, hs, hd, hf⟩ := afterSecond_iterate n (secondPassStart s) (by rw [sp]; omega) (by rw [st]; omega)
  refine ⟨?_, ?_, ?_, ?_⟩
  · show (afterSecond^[n] (secondPassStart s)).work = _
    rw [hw, sadd, kk, sp, st, sw]
    rw [Nat.add_assoc]
  · show afterSecond^[n] (secondPassStart s) = _
    have e : ∀ d w, ({ secondPassStart s with data := d, work := w } : State) = { s with data := d, work := w } := by intro d w; rw [ss]
    exact hs.trans (e _ _)
  · intro m hm
    have := hd m hm
    rw [st, sp, sadd, kk, show ((s.work.p.toNat : Int) + nextSize s - 2 - 2 * m).toNat = s.work.p.toNat + nextSize s - 2 - 2 * m by omega] at this
    refine this.trans ?_
    rw [Nat.add_assoc]
    congr 1
    exact readSnap_congr (by rw [ss]) _
  · intro a ha
    have h1 := hf a fun m hm => by have := ha m hm; rw [st]; omega
    refine h1.trans (readData_congr rfl _)

/-- A whole block as its two passes. -/
theorem runBlock_eq (s : State) (h : BlockReady s) : runBlock s = .go (closeBlock (secondPassAt s (nextSize s / 2))) := by
  have := s.work.l.isLt
  have hp := h.pl; have hb := h.b0
  have hbl := nextSize_lt s
  unfold runBlock
  have hj : (openBlock s).work.j.toNat = (nextSize s + 1)/2 := ofNat_toNat_lt (by omega)
  dsimp only
  rw [hj, repeat_firstPassByte _ _ (by show s.work.p.toNat + _ ≤ s.work.l.toNat; omega)
    (by show 2 * (((nextSize s + 1)/2 : Nat) : Int) ≤ ((s.work.p.toNat : Int) + nextSize s - 1) + 2; omega)
    (by show ((s.work.p.toNat : Int) + nextSize s - 1) < s.work.l.toNat; omega), Flow.go_andThen]
  obtain ⟨aw, as, -, -⟩ := firstPassAt_spec s h _ (Nat.le_refl _)
  change (repeatFlow (openSecond (firstPassAt s ((nextSize s + 1)/2))).work.j.toNat secondPassByte (openSecond (firstPassAt s ((nextSize s + 1)/2)))).andThen _ = _
  obtain ⟨bw, -, -, -⟩ := secondPassAt_spec s h 0 (by omega)
  have bw' : (secondPassStart s).work = _ := bw
  have hj2 : (openSecond (firstPassAt s ((nextSize s + 1)/2))).work.j.toNat = nextSize s / 2 := by
    show (secondPassStart s).work.j.toNat = _
    rw [bw']; simp; omega
  rw [hj2]
  show (repeatFlow _ secondPassByte (secondPassStart s)).andThen _ = _
  rw [repeat_secondPassByte _ _ (by rw [bw']; dsimp only; rw [ofNat_toNat_lt (by omega)]; omega) (by rw [bw']; dsimp only; omega) (by rw [bw']; dsimp only; omega), Flow.go_andThen]
  rfl

/-- A whole block as one fact: where its bytes land and with which key, the cursors after it, and that nothing else changes
(41_block_unshuffler.md R138, R141). -/
theorem runBlock_spec (s : State) (h : BlockReady s) : ∃ t, runBlock s = .go t
    ∧ t.work.p.toNat = s.work.p.toNat + nextSize s ∧ t.work.left.toNat = s.work.left.toNat - nextSize s ∧ t.work.j = 0
    ∧ t.work.kb = s.work.kb + BitVec.ofNat 8 (nextSize s) * s.regs.add ∧ t.work.l = s.work.l
    ∧ t = { s with data := t.data, work := t.work }
    ∧ (∃ left p p0 b tp1 tp2 j pass kb, t.work = { s.work with left := left, p := p, p0 := p0, b := b, tp1 := tp1, tp2 := tp2, j := j, pass := pass, kb := kb })
    ∧ (∀ j, j < nextSize s → t.readData (blockPos s.work.p.toNat (nextSize s) j) = s.readSnap (s.work.p.toNat + j) ^^^ (s.work.kb + BitVec.ofNat 8 j * s.regs.add))
    ∧ ∀ a, a < s.work.p.toNat ∨ s.work.p.toNat + nextSize s ≤ a → t.readData a = s.readData a := by
  have := s.work.l.isLt
  have hp := h.pl; have hb := h.b0; have hbl := nextSize_lt s
  obtain ⟨aw, as, ad, af⟩ := firstPassAt_spec s h _ (Nat.le_refl _)
  obtain ⟨bw, bs, bd, bf⟩ := secondPassAt_spec s h _ (Nat.le_refl _)
  have hh : (nextSize s + 1)/2 + nextSize s / 2 = nextSize s := by omega
  refine ⟨_, runBlock_eq s h, ?_, ?_, ?_, ?_, ?_, ?_, ?_, ?_, ?_⟩
  · show (secondPassAt s (nextSize s / 2)).work.p.toNat = _
    rw [bw]; dsimp only; rw [hh]; exact ofNat_toNat_lt (by omega)
  · show ((secondPassAt s (nextSize s / 2)).work.left - (secondPassAt s (nextSize s / 2)).work.b).toNat = _
    rw [bw]; dsimp only
    have : nextSize s ≤ s.work.left.toNat := by unfold nextSize; omega
    rw [BitVec.toNat_sub, ofNat_toNat_lt hbl]
    have := s.work.left.isLt; omega
  · show (secondPassAt s (nextSize s / 2)).work.j = 0
    rw [bw]; simp
  · show (secondPassAt s (nextSize s / 2)).work.kb = _
    rw [bw]; dsimp only; rw [hh]
  · show (secondPassAt s (nextSize s / 2)).work.l = _
    rw [bw]
  · show closeBlock (secondPassAt s (nextSize s / 2)) = _
    have : closeBlock (secondPassAt s (nextSize s / 2)) = { secondPassAt s (nextSize s / 2) with work := (closeBlock (secondPassAt s (nextSize s / 2))).work } := rfl
    rw [this, bs]
  · have : (closeBlock (secondPassAt s (nextSize s / 2))).work = { (secondPassAt s (nextSize s / 2)).work with left := (secondPassAt s (nextSize s / 2)).work.left - (secondPassAt s (nextSize s / 2)).work.b } := rfl
    rw [this, bw]
    exact ⟨_, _, _, _, _, _, _, _, _, rfl⟩
  · intro j hj
    show (secondPassAt s (nextSize s / 2)).readData _ = _
    unfold blockPos
    split
    · rw [bf _ (by intro m hm; omega)]
      exact ad j (by assumption)
    · have := bd (j - (nextSize s + 1)/2) (by omega)
      rw [this, show (nextSize s + 1)/2 + (j - (nextSize s + 1)/2) = j by omega]
  · intro a ha
    show (secondPassAt s (nextSize s / 2)).readData _ = _
    rw [bf _ (by intro m hm; omega), af _ (by intro m hm; omega)]

/-- A byte lands in its own block (41_block_unshuffler.md R138). -/
theorem blockPos_bounds {p0 b j : Nat} (h : j < b) : p0 ≤ blockPos p0 b j ∧ blockPos p0 b j < p0 + b := by
  unfold blockPos; split <;> omega

/-- A byte of the active region lands in its own block (41_block_unshuffler.md R138). -/
theorem blockTarget_bounds {bs act g : Nat} (hb : 0 < bs) (hg : g < act) :
    g / bs * bs ≤ blockTarget bs act g ∧ blockTarget bs act g < g / bs * bs + min bs (act - g / bs * bs) := by
  unfold blockTarget
  have := Nat.mod_lt g hb
  have h2 := Nat.div_add_mod g bs
  rw [Nat.mul_comm] at h2
  exact blockPos_bounds (by omega)

/-! ### The byte step (41_block_unshuffler.md R148) -/

theorem word_pred {x : Word} {n : Nat} (h : x.toNat = n + 1) : (x - 1).toNat = n := by
  rw [BitVec.toNat_sub, h, show (1 : Word).toNat = 1 from rfl]; have := x.isLt; omega

/-- What holds when a byte is about to be moved: a pass is open, with P, TP1 and TP2 as J gives them. -/
structure ByteReady (s : State) : Prop where
  bs : s.blockSize ≠ 0
  j1 : 1 ≤ s.work.j.toNat
  b : s.work.b.toNat = min s.blockSize s.work.left.toNat
  left : s.work.left.toNat ≠ 0
  act : s.work.p0.toNat + s.work.left.toNat = s.activeLen
  first : s.work.pass = .first → s.work.p.toNat + s.work.j.toNat = s.work.p0.toNat + (s.work.b.toNat + 1) / 2
      ∧ s.work.p0.toNat ≤ s.work.p.toNat
      ∧ s.work.tp1 = s.work.p0.toNat + s.work.b.toNat - 1 - 2 * ((s.work.p.toNat : Int) - s.work.p0.toNat)
      ∧ s.work.tp2 = (s.work.p0.toNat : Int) + s.work.b.toNat - 2
  second : s.work.pass = .second → s.work.p.toNat + s.work.j.toNat = s.work.p0.toNat + s.work.b.toNat
      ∧ s.work.p0.toNat + (s.work.b.toNat + 1) / 2 ≤ s.work.p.toNat
      ∧ s.work.tp2 = s.work.p0.toNat + s.work.b.toNat - 2
          - 2 * ((s.work.p.toNat : Int) - s.work.p0.toNat - ((s.work.b.toNat + 1) / 2 : Nat))

/-- Opening a block makes a byte ready. -/
theorem byteReady_open {s : State} (h : s.BlockInv) (hj : s.work.j = 0) (hl : s.work.left ≠ 0) : ByteReady (openBlock s) := by
  have hb0 := h.sizeNotZero
  have hbet := h.between hj
  have hl0 : s.work.left.toNat ≠ 0 := fun h' => hl (BitVec.eq_of_toNat_eq h')
  have hlt := s.work.left.isLt
  have ob : (openBlock s).work.b.toNat = min s.blockSize s.work.left.toNat := by
    show (BitVec.ofNat 32 _).toNat = _; rw [BitVec.toNat_ofNat]; omega
  have oj : (openBlock s).work.j.toNat = (min s.blockSize s.work.left.toNat + 1) / 2 := by
    show (BitVec.ofNat 32 _).toNat = _; rw [BitVec.toNat_ofNat]; omega
  refine ⟨hb0, by rw [oj]; omega, ob, hl0, hbet, fun _ => ⟨?_, Nat.le_refl _, ?_, ?_⟩, fun h => by cases h⟩
  · rw [oj, ob]; rfl
  · rw [ob]; show (s.work.p.toNat : Int) + (min s.blockSize s.work.left.toNat : Nat) - 1 = _ + _ - 1 - 2 * ((s.work.p.toNat : Int) - s.work.p.toNat); 
    show _ = (s.work.p.toNat : Int) + _ - 1 - _; omega
  · rw [ob]; rfl

/-- Inside a block a byte is ready. -/
theorem byteReady_in {s : State} (h : s.BlockInv) (hj : s.work.j ≠ 0) : ByteReady s := by
  have hj0 : s.work.j.toNat ≠ 0 := fun h' => hj (BitVec.eq_of_toNat_eq h')
  obtain ⟨i1, i2⟩ := h.inside hj
  refine ⟨h.sizeNotZero, by omega, i1, ?_, i2, h.firstPass hj, h.secondPass hj⟩
  intro hl
  have hb : s.work.b.toNat = 0 := by omega
  cases hp : s.work.pass with
  | first => have := h.firstPass hj hp; omega
  | second => have := h.secondPass hj hp; omega

/-- Closing a block whose passes are done leaves the machine between blocks. -/
theorem blockInv_close {s : State} (hbs : s.blockSize ≠ 0) (hj : s.work.j = 0) (hp : s.work.p.toNat = s.work.p0.toNat + s.work.b.toNat)
   (ha : s.work.p0.toNat + s.work.left.toNat = s.activeLen) (hb : s.work.b.toNat ≤ s.work.left.toNat) : (closeBlock s).BlockInv := by
  refine ⟨hbs, fun _ => ?_, fun h => absurd hj h, fun h => absurd hj h, fun h => absurd hj h⟩
  show s.work.p.toNat + (s.work.left - s.work.b).toNat = s.activeLen
  rw [BitVec.toNat_sub]
  have := s.work.left.isLt; have := s.work.b.isLt
  omega

/-- A byte of the first pass keeps the block invariant. -/
theorem settle_first {s : State} (h : ByteReady s) (hp : s.work.pass = .first) (hact : s.activeLen ≤ s.work.l.toNat) : (settleBlock (afterFirst s)).BlockInv := by
  obtain ⟨f1, f2, f3, f4⟩ := h.first hp
  have hb := h.b; have ha := h.act; have hj := h.j1; have hbs := h.bs; have hl := h.left
  have hlt := s.work.l.isLt
  have aj : (afterFirst s).work.j.toNat = s.work.j.toNat - 1 := word_pred (by omega)
  have ap : (afterFirst s).work.p.toNat = s.work.p.toNat + 1 := word_succ rfl (by omega)
  unfold settleBlock
  dsimp only
  by_cases h0 : (afterFirst s).work.j = 0
  · rw [if_pos (show (afterFirst s).work.j = 0 ∧ (afterFirst s).work.pass = .first from ⟨h0, hp⟩)]
    have h0' : s.work.j.toNat - 1 = 0 := by rw [← aj, h0]; rfl
    have oj : (openSecond (afterFirst s)).work.j.toNat = s.work.b.toNat / 2 := by
      show (BitVec.ofNat 32 (s.work.b.toNat / 2)).toNat = _; rw [BitVec.toNat_ofNat]; have := s.work.b.isLt; omega
    by_cases h1 : (openSecond (afterFirst s)).work.j = 0
    · rw [if_pos h1]
      have h1' : s.work.b.toNat / 2 = 0 := by rw [← oj, h1]; rfl
      refine blockInv_close hbs h1 ?_ ha (by show s.work.b.toNat ≤ s.work.left.toNat; omega)
      show (afterFirst s).work.p.toNat = s.work.p0.toNat + s.work.b.toNat
      rw [ap]; omega
    · rw [if_neg h1]
      have h1' : s.work.b.toNat / 2 ≠ 0 := by rw [← oj]; intro h'; exact h1 (BitVec.eq_of_toNat_eq h')
      refine ⟨hbs, fun h' => absurd h' h1, fun _ => ⟨hb, ha⟩, fun _ h' => (by cases h'), fun _ _ => ⟨?_, ?_, ?_⟩⟩
      · rw [oj]; show (afterFirst s).work.p.toNat + _ = s.work.p0.toNat + s.work.b.toNat; rw [ap]; omega
      · show s.work.p0.toNat + (s.work.b.toNat + 1) / 2 ≤ (afterFirst s).work.p.toNat; rw [ap]; omega
      · show s.work.tp2 = s.work.p0.toNat + s.work.b.toNat - 2 - 2 * (((afterFirst s).work.p.toNat : Int) - s.work.p0.toNat - ((s.work.b.toNat + 1) / 2 : Nat))
        rw [ap, f4]; omega
  · rw [if_neg (show ¬ ((afterFirst s).work.j = 0 ∧ (afterFirst s).work.pass = .first) from fun h' => h0 h'.1), if_neg h0]
    refine ⟨hbs, fun h' => absurd h' h0, fun _ => ⟨hb, ha⟩, fun _ _ => ⟨?_, ?_, ?_, f4⟩, fun _ h' => ?_⟩
    · rw [aj, ap]; show _ = s.work.p0.toNat + (s.work.b.toNat + 1) / 2; omega
    · rw [ap]; show s.work.p0.toNat ≤ _; omega
    · rw [ap]; show s.work.tp1 - 2 = s.work.p0.toNat + s.work.b.toNat - 1 - 2 * (_ - s.work.p0.toNat); omega
    · have : s.work.pass = .second := h'
      rw [hp] at this; cases this

/-- A byte of the second pass keeps the block invariant. -/
theorem settle_second {s : State} (h : ByteReady s) (hp : s.work.pass = .second) (hact : s.activeLen ≤ s.work.l.toNat) : (settleBlock (afterSecond s)).BlockInv := by
  obtain ⟨f1, f2, f3⟩ := h.second hp
  have hb := h.b; have ha := h.act; have hj := h.j1; have hbs := h.bs; have hl := h.left
  have hlt := s.work.l.isLt
  have aj : (afterSecond s).work.j.toNat = s.work.j.toNat - 1 := word_pred (by omega)
  have ap : (afterSecond s).work.p.toNat = s.work.p.toNat + 1 := word_succ rfl (by omega)
  have hps : (afterSecond s).work.pass ≠ .first := by show s.work.pass ≠ _; rw [hp]; decide
  unfold settleBlock
  dsimp only
  rw [if_neg (show ¬ ((afterSecond s).work.j = 0 ∧ (afterSecond s).work.pass = .first) from fun h' => hps h'.2)]
  by_cases h0 : (afterSecond s).work.j = 0
  · rw [if_pos h0]
    have h0' : s.work.j.toNat - 1 = 0 := by rw [← aj, h0]; rfl
    refine blockInv_close hbs h0 ?_ ha (by show s.work.b.toNat ≤ s.work.left.toNat; omega)
    rw [ap]; show _ = s.work.p0.toNat + s.work.b.toNat; omega
  · rw [if_neg h0]
    refine ⟨hbs, fun h' => absurd h' h0, fun _ => ⟨hb, ha⟩, fun _ h' => absurd h' hps, fun _ _ => ⟨?_, ?_, ?_⟩⟩
    · rw [aj, ap]; show _ = s.work.p0.toNat + s.work.b.toNat; omega
    · rw [ap]; show s.work.p0.toNat + (s.work.b.toNat + 1) / 2 ≤ _; omega
    · rw [ap]; show s.work.tp2 - 2 = s.work.p0.toNat + s.work.b.toNat - 2 - 2 * (_ - s.work.p0.toNat - ((s.work.b.toNat + 1) / 2 : Nat)); omega

/-- A ready byte passes the guard (41_block_unshuffler.md R138, R143). -/
theorem byteReady_bounds {s : State} (h : ByteReady s) (hact : s.activeLen ≤ s.work.l.toNat) :
   (s.work.pass = .first → firstPassByte s = .go (afterFirst s) ∧ s.work.tp1.toNat < s.work.l.toNat)
   ∧ (s.work.pass = .second → secondPassByte s = .go (afterSecond s) ∧ s.work.tp2.toNat < s.work.l.toNat) := by
  have hb := h.b; have ha := h.act; have hj := h.j1; have hl := h.left; have hbs := h.bs
  refine ⟨fun hp => ?_, fun hp => ?_⟩
  · obtain ⟨f1, f2, f3, f4⟩ := h.first hp
    exact ⟨firstPassByte_ok (by omega) (by omega) (by omega), by omega⟩
  · obtain ⟨f1, f2, f3⟩ := h.second hp
    exact ⟨secondPassByte_ok (by omega) (by omega) (by omega), by omega⟩

/-- Closing or reopening a pass changes working registers alone. -/
theorem settleBlock_eq (s : State) : settleBlock s = { s with work := (settleBlock s).work } := by
  unfold settleBlock; dsimp only; split <;> split <;> rfl
theorem settleBlock_l (s : State) : (settleBlock s).work.l = s.work.l := by
  unfold settleBlock; dsimp only; split <;> split <;> rfl

end Sys2Proof.Machine
end

