-- ==== Sys2Proof/Laws/Legacy.lean ====
section
/-! SUPPORT. What DECRYPT_LEGACY's initial step, its loop and its run can do (40_stream_cipher.md). -/

namespace Sys2Proof.Machine

/-- The initial step when the length fits (40_stream_cipher.md R110). -/
theorem beginLegacy_ok {s : State} (h : s.regs.inLen.toNat ≤ s.par.inCapacity) :
    beginLegacy s = .go { s with
      regs := { s.regs with op := 1, status := .busy, outLen := 0 }
      work := { s.work with l := s.regs.inLen, k := s.regs.key, i := s.regs.start } } := by
  unfold beginLegacy
  rw [checkLength_ok (by simpa using h)]
  rfl

/-- The initial step when it does not (60_exceptions.md R216). -/
theorem beginLegacy_long {s : State} (h : s.par.inCapacity < s.regs.inLen.toNat) :
    beginLegacy s = .stop { s with
      regs := { s.regs with op := 1, status := .error .outOfRange, outLen := 0 }
      work := { s.work with l := s.regs.inLen }
      out := [], draws := s.draws + 1 } := by
  unfold beginLegacy
  rw [checkLength_long (by simpa using h)]
  rfl

@[simp] theorem legacyByte_readData (s : State) (a : Nat) :
    (legacyByte s).readData a =
      if a = s.work.i.toNat then s.readData s.work.i.toNat - s.work.k else s.readData a := by
  unfold State.readData
  rw [legacyByte_data, Memory.get_set]
  split <;> rfl

/-- `n` iterations of the loop: I and K advance, the bytes passed are decrypted, nothing else changes
(40_stream_cipher.md R110, R114). -/
theorem legacyByte_iterate (n : Nat) (s : State) (h : s.work.i.toNat + n < 2 ^ 32) :
    (legacyByte^[n] s).work.i.toNat = s.work.i.toNat + n
    ∧ (legacyByte^[n] s).work.k = s.work.k + BitVec.ofNat 8 (7 * n)
    ∧ legacyByte^[n] s = { s with
        data := (legacyByte^[n] s).data
        work := { s.work with i := (legacyByte^[n] s).work.i, k := (legacyByte^[n] s).work.k } }
    ∧ ∀ a, (legacyByte^[n] s).readData a =
        if s.work.i.toNat ≤ a ∧ a < s.work.i.toNat + n
        then s.readData a - legacyKeyAt s.work.k s.work.i.toNat a else s.readData a := by
  induction n with
  | zero => exact ⟨rfl, by simp, rfl, fun a => by rw [if_neg (by omega)]; rfl⟩
  | succ n ih =>
    obtain ⟨hi, hk, hs, hd⟩ := ih (by omega)
    rw [Function.iterate_succ_apply']
    generalize legacyByte^[n] s = t at hi hk hs hd
    refine ⟨?_, ?_, ?_, ?_⟩
    · simp only [legacyByte_work, BitVec.toNat_add, hi]
      rw [show (1 : Word).toNat = 1 from rfl]; omega
    · simp only [legacyByte_work, hk]
      apply BitVec.eq_of_toNat_eq
      simp only [BitVec.toNat_add, BitVec.toNat_ofNat, legacyKeyStep, show (7 : Byte).toNat = 7 from rfl]
      omega
    · have hw := congrArg State.work hs
      rw [hs]; rfl
    · intro a
      rw [legacyByte_readData, hi]
      by_cases ha : a = s.work.i.toNat + n
      · subst ha
        rw [if_pos rfl, if_pos (by omega), hd, if_neg (by omega), hk]
        unfold legacyKeyAt
        rw [show s.work.i.toNat + n - s.work.i.toNat = n by omega]
      · rw [if_neg ha, hd]
        by_cases hb : s.work.i.toNat ≤ a ∧ a < s.work.i.toNat + n
        · rw [if_pos hb, if_pos (by omega)]
        · rw [if_neg hb, if_neg (by omega)]

/-- The run from the initial step's state: the loop, then finish(L). -/
theorem legacyRun_eq (s : State) :
    legacyRun s = .stop ((legacyByte^[s.work.l.toNat - s.work.i.toNat] s).finish
      (legacyByte^[s.work.l.toNat - s.work.i.toNat] s).work.l) := by
  unfold legacyRun
  rw [repeatFlow_go, Flow.go_andThen]

end Sys2Proof.Machine
end

