-- ==== Sys2Proof/Laws/Lzss.lean ====
section
/-! SUPPORT. What the operations of DECOMPRESS can do (42_lzss_decoder.md): READ_CONTROL, a copy step, a whole copy, and what keeps
the window a mirror of the output. -/

namespace Sys2Proof.Machine

/-! ### READ_CONTROL -/

/-- Everything READ_CONTROL can do: fail at one of its two reads, or go on to a literal, to END or to a match
(42_lzss_decoder.md R164). -/
theorem readControl_cases {s : State} (hle : s.work.brPos.toNat ≤ s.work.total.toNat) :
    (∃ p, p ≤ s.work.total.toNat ∧ s.par.pastEnd = .failFast
        ∧ readControl s = .stop ((s.seek p).raise .formatInvalid true))
    ∨ (s.work.brPos.toNat < s.work.total.toNat
        ∧ readControl s = .go ((s.seek (s.work.brPos.toNat + 1)).toFsm .emitLiteral))
    ∨ (∃ p, p ≤ s.work.total.toNat ∧ readControl s = .go ((s.seek p).toFsm .terminated))
    ∨ (∃ p off, s.work.brPos.toNat < p ∧ p ≤ s.work.total.toNat ∧ 1 ≤ off ∧ off < 2 ^ s.indexSize
        ∧ readControl s = .go ((s.seek p).toMatch off)) := by
  have htot := s.work.total.isLt
  unfold readControl
  rcases withBits_spec s 1 (fun c s =>
    if c = 1 then .go (s.toFsm .emitLiteral)
    else s.withBits s.indexSize fun off s =>
      if off = 0 then .go (s.toFsm .terminated) else .go (s.toMatch off)) hle with ⟨hp, -, e⟩ | ⟨-, e⟩
  · exact .inl ⟨s.work.brPos.toNat, hle, hp, by rw [e]; unfold State.seek; simp⟩
  · rw [e]
    by_cases hc : natOfBits (s.paddedBits 1) = 1
    · have hne : s.work.brPos.toNat ≠ s.work.total.toNat := fun he => by rw [natOfBits_paddedBits_end he] at hc; cases hc
      rw [if_pos hc, show min (s.work.brPos.toNat + 1) s.work.total.toNat = s.work.brPos.toNat + 1 by omega]
      exact .inr (.inl ⟨by omega, rfl⟩)
    · rw [if_neg hc]
      generalize hq : min (s.work.brPos.toNat + 1) s.work.total.toNat = q
      have qb : (s.seek q).work.brPos.toNat = q := seek_brPos (by omega)
      rcases withBits_spec (s.seek q) (s.seek q).indexSize (fun off s =>
        if off = 0 then .go (s.toFsm .terminated) else .go (s.toMatch off)) (by rw [qb]; show _ ≤ s.work.total.toNat; omega)
        with ⟨hp, -, e⟩ | ⟨-, e⟩
      · exact .inl ⟨q, by omega, hp, by rw [e]⟩
      · rw [e, qb]
        generalize hq' : min (q + (s.seek q).indexSize) (s.seek q).work.total.toNat = q'
        have hq'' : min (q + s.indexSize) s.work.total.toNat = q' := hq'
        by_cases h0 : natOfBits ((s.seek q).paddedBits (s.seek q).indexSize) = 0
        · rw [if_pos h0]
          exact .inr (.inr (.inl ⟨q', by omega, rfl⟩))
        · rw [if_neg h0]
          have hne : s.work.brPos.toNat ≠ s.work.total.toNat := fun he => h0 (natOfBits_paddedBits_end (by
            rw [qb]; show q = s.work.total.toNat; omega) _)
          have hlt := natOfBits_lt ((s.seek q).paddedBits (s.seek q).indexSize)
          rw [paddedBits_length] at hlt
          exact .inr (.inr (.inr ⟨q', _, by omega, by omega, by omega, hlt, rfl⟩))

/-! ### Copying -/

/-- The state a copy step leaves when there is room (42_lzss_decoder.md R170). -/
def copied (s : State) : State := afterCopy (s.emitted (s.readWin s.work.moff.toNat))

theorem copyStep_room {s : State} (h : s.work.optr.toNat ≠ s.par.outCapacity) : copyStep s = .go (copied s) := by
  unfold copyStep; rw [emit_room h]; rfl

theorem copied_work (s : State) : (copied s).work = { s.work with
    optr := s.work.optr + 1, wcur := s.windowSucc s.work.wcur, moff := s.windowSucc s.work.moff, mcnt := s.work.mcnt - 1
    copying := decide (s.work.mcnt ≠ 1), fsm := if s.work.mcnt = 1 then .readControl else .emitMatch } := rfl

theorem readWin_copied (s : State) (x : Nat) : (copied s).readWin x = if x = s.work.wcur.toNat then s.readWin s.work.moff.toNat else s.readWin x := by
  rw [← readWin_emitted]; exact readWin_congr rfl rfl rfl x

theorem readOut_copied (s : State) (x : Nat) : (copied s).readOut x = if x = s.work.optr.toNat then s.readWin s.work.moff.toNat else s.readOut x := by
  rw [← readOut_emitted]; exact readOut_congr rfl rfl x

theorem copied_frame (s : State) : copied s = { s with out := (copied s).out, win := (copied s).win, work := (copied s).work } := by
  have : copied s = { s.emitted (s.readWin s.work.moff.toNat) with work := (copied s).work } := rfl
  rw [this, emitted_frame]

/-- Positions closer than a window differ in it. -/
theorem mod_ne {a b w : Nat} (h1 : a < b) (h2 : b < a + w) : a % w ≠ b % w := by
  intro h
  have := (Nat.modEq_iff_dvd' (Nat.le_of_lt h1)).mp h
  have := Nat.le_of_dvd (by omega) this
  omega

/-- `n` copies with room: the registers' values, where each byte comes from (the window's old byte until the copy reaches its own
output), what the window holds, and that nothing else changes (42_lzss_decoder.md R169, R170, R176). -/
theorem copied_iterate {w : Nat} (h0 : 0 < w) (h13 : w ≤ 2 ^ 13) (n : Nat) (s : State) (hw : s.work.w.toNat = w)
    (hn : n ≤ s.work.mcnt.toNat) (hcap : s.par.outCapacity < 2 ^ 32) (ho : s.work.optr.toNat + n ≤ s.par.outCapacity)
    (hc : s.work.wcur.toNat < w) (hm : s.work.moff.toNat < w) :
    repeatFlow n copyStep s = .go (copied^[n] s)
    ∧ (copied^[n] s).work.optr.toNat = s.work.optr.toNat + n
    ∧ (copied^[n] s).work.wcur.toNat = (s.work.wcur.toNat + n) % w
    ∧ (copied^[n] s).work.moff.toNat = (s.work.moff.toNat + n) % w
    ∧ (copied^[n] s).work.mcnt.toNat = s.work.mcnt.toNat - n
    ∧ (copied^[n] s).work = { s.work with
        optr := (copied^[n] s).work.optr, wcur := (copied^[n] s).work.wcur, moff := (copied^[n] s).work.moff
        mcnt := (copied^[n] s).work.mcnt
        copying := if n = 0 then s.work.copying else decide (n ≠ s.work.mcnt.toNat)
        fsm := if n = 0 then s.work.fsm else if n = s.work.mcnt.toNat then .readControl else .emitMatch }
    ∧ copied^[n] s = { s with out := (copied^[n] s).out, win := (copied^[n] s).win, work := (copied^[n] s).work }
    ∧ (∀ k, k < n → (copied^[n] s).readOut (s.work.optr.toNat + k) =
          if k < matchDistance w s.work.wcur.toNat s.work.moff.toNat
          then s.readWin ((s.work.moff.toNat + k) % w)
          else (copied^[n] s).readOut (s.work.optr.toNat + k - matchDistance w s.work.wcur.toNat s.work.moff.toNat))
    ∧ (∀ i, i < s.work.optr.toNat ∨ s.work.optr.toNat + n ≤ i → (copied^[n] s).readOut i = s.readOut i)
    ∧ (∀ k, k < n → n ≤ k + w →
          (copied^[n] s).readWin ((s.work.wcur.toNat + k) % w) = (copied^[n] s).readOut (s.work.optr.toNat + k))
    ∧ (∀ x, (∀ k, k < n → (s.work.wcur.toNat + k) % w ≠ x) → (copied^[n] s).readWin x = s.readWin x) := by
  induction n with
  | zero =>
    refine ⟨rfl, rfl, ?_, ?_, rfl, rfl, rfl, fun k hk => absurd hk (Nat.not_lt_zero k), fun i _ => rfl,
      fun k hk => absurd hk (Nat.not_lt_zero k), fun x _ => rfl⟩
    · exact (Nat.mod_eq_of_lt hc).symm
    · exact (Nat.mod_eq_of_lt hm).symm
  | succ n ih =>
    obtain ⟨hr, hopt, hwc, hmo, hmc, hwk, hs, hout, houtf, hwin, hwinf⟩ := ih (by omega) (by omega)
    rw [Function.iterate_succ_apply']
    generalize copied^[n] s = t at hr hopt hwc hmo hmc hwk hs hout houtf hwin hwinf
    have htp : t.par = s.par := by rw [hs]
    have htw : t.work.w.toNat = w := by rw [hwk]; exact hw
    have hmcn := s.work.mcnt.isLt
    have o1 : (copied t).work.optr.toNat = s.work.optr.toNat + (n + 1) := by
      rw [copied_work]; have := word_succ hopt (by omega); exact this.trans (Nat.add_assoc _ _ _)
    have w1 : (copied t).work.wcur.toNat = (s.work.wcur.toNat + (n + 1)) % w := by
      rw [copied_work]; show (t.windowSucc t.work.wcur).toNat = _
      rw [windowSucc_toNat htw h0 h13, hwc, Nat.mod_add_mod, Nat.add_assoc]
    have m1 : (copied t).work.moff.toNat = (s.work.moff.toNat + (n + 1)) % w := by
      rw [copied_work]; show (t.windowSucc t.work.moff).toNat = _
      rw [windowSucc_toNat htw h0 h13, hmo, Nat.mod_add_mod, Nat.add_assoc]
    have c1 : (copied t).work.mcnt.toNat = s.work.mcnt.toNat - (n + 1) := by
      rw [copied_work]; show (t.work.mcnt - 1).toNat = _
      rw [BitVec.toNat_sub, hmc, show (1 : Word).toNat = 1 from rfl]; omega
    have one : (t.work.mcnt = 1) ↔ n + 1 = s.work.mcnt.toNat := by
      rw [← BitVec.toNat_inj, hmc, show (1 : Word).toNat = 1 from rfl]; omega
    have hd1 : 1 ≤ matchDistance w s.work.wcur.toNat s.work.moff.toNat ∧ matchDistance w s.work.wcur.toNat s.work.moff.toNat ≤ w := by
      unfold matchDistance
      have := Nat.mod_lt (s.work.wcur.toNat + w - s.work.moff.toNat) h0
      split <;> omega
    have hdm : (s.work.moff.toNat + matchDistance w s.work.wcur.toNat s.work.moff.toNat) % w = s.work.wcur.toNat := by
      unfold matchDistance
      have hx : (s.work.moff.toNat + (s.work.wcur.toNat + w - s.work.moff.toNat)) % w = s.work.wcur.toNat := by
        rw [show s.work.moff.toNat + (s.work.wcur.toNat + w - s.work.moff.toNat) = s.work.wcur.toNat + w by omega, Nat.add_mod_right, Nat.mod_eq_of_lt hc]
      split
      · next hz =>
        rw [Nat.add_mod_right]
        rw [Nat.add_mod, hz] at hx
        simpa using hx
      · rw [Nat.add_mod_mod]; exact hx
    generalize matchDistance w s.work.wcur.toNat s.work.moff.toNat = d at hd1 hdm hout
    have ro : ∀ i, i ≠ s.work.optr.toNat + n → (copied t).readOut i = t.readOut i := by
      intro i hi; rw [readOut_copied, hopt, if_neg hi]
    have rn : (copied t).readOut (s.work.optr.toNat + n) = t.readWin ((s.work.moff.toNat + n) % w) := by
      rw [readOut_copied, hopt, if_pos rfl, hmo]
    have rwn : ∀ x, (copied t).readWin x = if x = (s.work.wcur.toNat + n) % w then t.readWin ((s.work.moff.toNat + n) % w) else t.readWin x := by
      intro x; rw [readWin_copied, hwc, hmo]
    refine ⟨?_, o1, w1, m1, c1, ?_, ?_, ?_, ?_, ?_, ?_⟩
    · rw [repeatFlow_add n 1, hr, Flow.go_andThen, repeatFlow_succ, copyStep_room (by rw [hopt, htp]; omega)]; rfl
    · have : (copied t).work = { t.work with
          optr := (copied t).work.optr, wcur := (copied t).work.wcur, moff := (copied t).work.moff
          mcnt := (copied t).work.mcnt, copying := decide (t.work.mcnt ≠ 1), fsm := if t.work.mcnt = 1 then .readControl else .emitMatch } := rfl
      have e : ∀ a b c d f g, ({ t.work with optr := a, wcur := b, moff := c, mcnt := d, copying := f, fsm := g } : Work) =
          { s.work with optr := a, wcur := b, moff := c, mcnt := d, copying := f, fsm := g } := by intros; rw [hwk]
      refine this.trans ((e _ _ _ _ _ _).trans ?_)
      simp only [one, ne_eq, Nat.succ_ne_zero, if_false]
    · rw [copied_frame]
      have e : ∀ o wi wk, ({ t with out := o, win := wi, work := wk } : State) = { s with out := o, win := wi, work := wk } := by intro o wi wk; rw [hs]
      exact e _ _ _
    · intro k hk
      by_cases hkn : k = n
      · subst hkn
        rw [rn]
        by_cases hkd : k < d
        · rw [if_pos hkd]
          apply hwinf
          intro j hj heq
          have e1 : (s.work.moff.toNat + d + j) % w = (s.work.moff.toNat + k) % w := by
            rw [← heq, Nat.add_mod, hdm, Nat.add_mod_mod]
          exact mod_ne (show s.work.moff.toNat + k < s.work.moff.toNat + d + j by omega) (by omega) e1.symm
        · rw [if_neg hkd, ro _ (by omega)]
          have e1 : (s.work.moff.toNat + k) % w = (s.work.wcur.toNat + (k - d)) % w := by
            rw [← hdm, Nat.mod_add_mod]; congr 1; omega
          rw [e1, hwin (k - d) (by omega) (by omega)]
          congr 1; omega
      · rw [ro _ (by omega), hout k (by omega)]
        split
        · rfl
        · exact (ro _ (by omega)).symm
    · intro i hi
      rw [ro _ (by omega)]; exact houtf i (by omega)
    · intro k hk hkw
      rw [rwn]
      by_cases hkn : k = n
      · subst hkn; rw [if_pos rfl, rn]
      · rw [if_neg (by intro h; exact mod_ne (show s.work.wcur.toNat + k < s.work.wcur.toNat + n by omega) (by omega) h), ro _ (by omega)]
        exact hwin k (by omega) (by omega)
    · intro x hx
      rw [rwn, if_neg (fun h => hx n (by omega) h.symm)]
      exact hwinf x fun k hk => hx k (by omega)

/-! ### The streaming invariant -/

theorem State.StreamInv.w13 {s : State} (h : s.StreamInv) : 2 ^ s.indexSize ≤ 2 ^ 13 := Nat.pow_le_pow_right (by omega) h.indexSize

theorem State.StreamInv.wcur_lt {s : State} (h : s.StreamInv) : s.work.wcur.toNat < 2 ^ s.indexSize := by
  rw [h.writeCursor]; exact Nat.mod_lt _ (Nat.two_pow_pos _)

/-- Moving the cursor inside the stream, the match registers and the state of the machine keeps the rest of the invariant. -/
theorem State.StreamInv.cursorFsm {s : State} (h : s.StreamInv) {t : State} (q : Word) (m : BitVec 13) (c : Word) (f : Fsm) (cp : Bool)
    (ht : t = { s with work := { s.work with brPos := q, moff := m, mcnt := c, fsm := f, copying := cp } })
    (hq : q.toNat ≤ s.work.total.toNat) (hf : f ≠ .invalid) (hm : f = .emitMatch → m.toNat < 2 ^ s.indexSize) (hc : cp = true → f = .emitMatch ∧ c ≠ 0) : t.StreamInv := by
  subst ht
  exact ⟨h.indexSize, h.lengthSize, h.initWidx, h.windowSize, h.total, hq, h.emitted, h.writeCursor, h.filled, hf, hm, hc, h.outListed, h.mirror, h.unwritten⟩

theorem badParams_eq_false (s : State) :
    badParams s = false ↔ s.indexSize ≤ 13 ∧ s.lengthSize ≤ 16 ∧ s.initWidx < 2 ^ s.indexSize := by
  unfold badParams Config.maxIndexSize Config.maxLengthSize
  simp only [Bool.or_eq_false_iff, decide_eq_false_iff_not]
  omega

/-- Init establishes the invariant (42_lzss_decoder.md R162). -/
theorem initStream_streamInv {s : State} (hp : s.par.wf) (hl : s.work.l.toNat ≤ s.par.inCapacity)
    (hbad : badParams s = false) : (initStream s).StreamInv := by
  obtain ⟨h1, h2, h3⟩ := (badParams_eq_false s).mp hbad
  have hw13 : 2 ^ s.indexSize ≤ 2 ^ 13 := Nat.pow_le_pow_right (by omega) h1
  have hin := hp.2.1
  refine ⟨h1, h2, h3, ?_, ?_, Nat.zero_le _, Nat.zero_le _, ?_, ?_,
    (fun e => by have e' : Fsm.readControl = .invalid := e; cases e'),
    (fun e => by have e' : Fsm.readControl = .emitMatch := e; cases e'),
    (fun e => by have e' : false = true := e; cases e'), ?_, ?_, ?_⟩
  · show (BitVec.ofNat 14 (2 ^ s.indexSize)).toNat = 2 ^ s.indexSize; rw [BitVec.toNat_ofNat]; omega
  · show (BitVec.ofNat 32 (8 * s.work.l.toNat)).toNat = 8 * s.work.l.toNat; rw [BitVec.toNat_ofNat]; omega
  · show (BitVec.ofNat 13 s.initWidx).toNat = (s.initWidx + 0) % 2 ^ s.indexSize
    rw [BitVec.toNat_ofNat, Nat.add_zero, Nat.mod_eq_of_lt h3]; omega
  · exact Nat.le_max_right _ _
  · intro i; show (none : Option Byte).isSome ↔ i < 0; simp
  · intro j hj; exact absurd hj (Nat.not_lt_zero j)
  · intro x hx _
    refine (readWin_congr (s := s.fillWin (2 ^ s.indexSize)) rfl rfl rfl x).trans ?_
    rw [readWin_fillWin]; exact if_pos hx

/-- Emit keeps the window a mirror of the output (42_lzss_decoder.md R168, R183). -/
theorem State.StreamInv.emit {s : State} (hS : s.StreamInv) (hp : s.par.wf) (hr : s.work.optr.toNat ≠ s.par.outCapacity)
    (v : Byte) : (s.emitted v).StreamInv := by
  have hcap := hp.2.2
  have hem := hS.emitted
  have hw13 := hS.w13
  have h0 : 0 < 2 ^ s.indexSize := Nat.two_pow_pos _
  have o1 : (s.emitted v).work.optr.toNat = s.work.optr.toNat + 1 := word_succ rfl (by omega)
  have w1 : (s.emitted v).work.wcur.toNat = (s.work.wcur.toNat + 1) % 2 ^ s.indexSize :=
    windowSucc_toNat hS.windowSize h0 hw13 _
  have hi : (s.emitted v).indexSize = s.indexSize := by unfold State.indexSize; simp
  have hiw : (s.emitted v).initWidx = s.initWidx := by unfold State.initWidx; simp
  have hpp := emitted_par s v
  refine ⟨by rw [hi]; exact hS.indexSize, by unfold State.lengthSize; rw [emitted_regs]; exact hS.lengthSize,
    by rw [hi, hiw]; exact hS.initWidx, by rw [hi]; exact hS.windowSize, hS.total, hS.cursor, by rw [o1, hpp]; omega, ?_,
    by rw [hi, emitted_winFilled]; exact hS.filled, hS.notInvalid, by rw [hi]; exact hS.matchOffset, hS.copyLoop, ?_, ?_, ?_⟩
  · rw [w1, o1, hi, hiw, hS.writeCursor, Nat.mod_add_mod, Nat.add_assoc]
  · intro i
    rw [emitted_out, Memory.get_set, o1]
    by_cases h' : i = s.work.optr.toNat
    · rw [if_pos h']; simp; omega
    · rw [if_neg h', hS.outListed i]; omega
  · intro j hj hjw
    rw [o1] at hj hjw
    rw [hi] at hjw
    rw [readWin_emitted, readOut_emitted, hi, hiw]
    by_cases hj' : j = s.work.optr.toNat
    · rw [if_pos hj', if_pos (by rw [hj', hS.writeCursor])]
    · rw [if_neg hj', if_neg (by
        rw [hS.writeCursor]
        exact mod_ne (show s.initWidx + j < s.initWidx + s.work.optr.toNat by omega) (by omega))]
      exact hS.mirror j (by omega) (by omega)
  · intro x hx hno
    rw [hi] at hx hno
    rw [hiw, o1] at hno
    rw [readWin_emitted, hpp, if_neg (by
      intro h'; exact hno s.work.optr.toNat (by omega) (by rw [h', hS.writeCursor]))]
    exact hS.unwritten x hx fun j hj => hno j (by omega)

/-- What the invariant says of the memories depends on them and the parameters alone. -/
theorem State.MemInv.same {s t : State} (h : s.MemInv) (hp : t.par = s.par) (hd : t.data = s.data) (ho : t.out = s.out) (hs : t.snap = s.snap) (hw : t.win = s.win) (hf : t.winFilled = s.winFilled) : t.MemInv := by
  obtain ⟨h1, h2, h3, h4, h5, h6, h7, h8, h9, h10⟩ := h
  refine ⟨by rw [hd]; exact h1, by rw [ho]; exact h2, by rw [hs]; exact h3, by rw [hw]; exact h4, ?_, by rw [hd, hp]; exact h6, by rw [ho, hp]; exact h7, by rw [hs, hp]; exact h8, by rw [hw]; exact h9, by rw [hf]; exact h10⟩
  unfold State.winCanonical; rw [hw, hf, hp]; exact h5

/-- The invariant's memory part after a raise or a reset of OUT. -/
theorem State.MemInv.forget {s : State} (h : s.MemInv) {t : State} (hp : t.par = s.par) (hd : t.data = s.data) (ho : t.out = []) (hs : t.snap = s.snap) (hw : t.win = s.win) (hf : t.winFilled = s.winFilled) : t.MemInv := by
  have : ({ s with out := [] } : State).MemInv := ⟨h.dataWf, List.Pairwise.nil, h.snapWf, h.winWf, h.winCanonical, h.dataWithin, (by intro c hc; cases hc), h.snapWithin, h.winWithin, h.winFilled⟩
  exact this.same hp hd ho hs hw hf

/-- Everything a whole copy can do: all `n` copies, or a raise at the first one OUT has no room for (42_lzss_decoder.md R168, R169). -/
theorem copyMatch_cases {s : State} (hS : s.StreamInv) (hp : s.par.wf) (hf : s.work.fsm = .emitMatch) {n : Nat} (hn : n < 2 ^ 32) :
    (s.work.optr.toNat + n ≤ s.par.outCapacity ∧ copyMatch n s = .go (copied^[n] (startCopy n s))
      ∧ (copied^[n] (startCopy n s)).work.fsm = .readControl)
    ∨ (s.par.outCapacity < s.work.optr.toNat + n ∧ ∃ m u, copyMatch n s = .stop (u.raise .resourceExhaustion true) ∧ u = copied^[m] (startCopy n s) ∧ m < n ∧ s.work.optr.toNat + m = s.par.outCapacity) := by
  have hcap := hp.2.2
  have umc : (startCopy n s).work.mcnt.toNat = n := by show (BitVec.ofNat 32 n).toNat = n; rw [BitVec.toNat_ofNat]; omega
  have hemi := hS.emitted
  have hmo : (startCopy n s).work.moff.toNat < 2 ^ s.indexSize := hS.matchOffset hf
  have key := fun m (hm : m ≤ n) (hr : s.work.optr.toNat + m ≤ s.par.outCapacity) =>
    copied_iterate (Nat.two_pow_pos _) hS.w13 m (startCopy n s) hS.windowSize (by omega) (by show s.par.outCapacity < _; omega) hr hS.wcur_lt hmo
  by_cases hr : s.work.optr.toNat + n ≤ s.par.outCapacity
  · left
    obtain ⟨k1, -, -, -, -, k5, -⟩ := key n (by omega) hr
    refine ⟨hr, ?_, ?_⟩
    · unfold copyMatch; rw [umc, k1]
    · rw [k5]; dsimp only
      by_cases h0 : n = 0
      · rw [if_pos h0]; unfold startCopy; exact if_pos h0
      · rw [if_neg h0, if_pos umc.symm]
  · right
    refine ⟨by omega, s.par.outCapacity - s.work.optr.toNat, copied^[s.par.outCapacity - s.work.optr.toNat] (startCopy n s), ?_, rfl, by omega, by omega⟩
    obtain ⟨k1, k2, -, -, -, -, k6, -⟩ := key (s.par.outCapacity - s.work.optr.toNat) (by omega) (by omega)
    unfold copyMatch
    rw [umc]
    conv_lhs => rw [show n = (s.par.outCapacity - s.work.optr.toNat) + ((n - (s.par.outCapacity - s.work.optr.toNat) - 1) + 1) by omega]
    rw [show s.par.outCapacity - s.work.optr.toNat + (n - (s.par.outCapacity - s.work.optr.toNat) - 1 + 1) = n by omega]
    rw [show n = (s.par.outCapacity - s.work.optr.toNat) + ((n - (s.par.outCapacity - s.work.optr.toNat) - 1) + 1) by omega, repeatFlow_add]
    rw [show s.par.outCapacity - s.work.optr.toNat + (n - (s.par.outCapacity - s.work.optr.toNat) - 1 + 1) = n by omega]
    rw [k1, Flow.go_andThen, repeatFlow_succ]
    have hpc : (copied^[s.par.outCapacity - s.work.optr.toNat] (startCopy n s)).par = s.par := by rw [k6]; rfl
    have hfull : (copied^[s.par.outCapacity - s.work.optr.toNat] (startCopy n s)).work.optr.toNat = (copied^[s.par.outCapacity - s.work.optr.toNat] (startCopy n s)).par.outCapacity := by
      rw [hpc, k2]; show s.work.optr.toNat + _ = _; omega
    rw [show copyStep (copied^[s.par.outCapacity - s.work.optr.toNat] (startCopy n s)) = _ from emit_full hfull _ _, Flow.stop_andThen]

/-- OUT holds the bytes `o` and nothing more is emitted. -/
def State.Matches (s : State) (o : List Byte) : Prop :=
  s.work.optr.toNat = o.length ∧ ∀ i, i < o.length → s.readOut i = o.getD i 0

/-- Under the invariant a window byte is the last output byte that went there, or WINDOW_INIT (42_lzss_decoder.md R183). -/
theorem readWin_eq_windowByte {s : State} (hS : s.StreamInv) {o : List Byte} (hm : s.Matches o) {x : Nat} (hx : x < 2 ^ s.indexSize) :
    s.readWin x = windowByte s.par.windowInitAt (2 ^ s.indexSize) s.initWidx o x o.length := by
  have key : ∀ k, k ≤ o.length → (∀ j, k ≤ j → j < o.length → (s.initWidx + j) % 2 ^ s.indexSize ≠ x) →
      s.readWin x = windowByte s.par.windowInitAt (2 ^ s.indexSize) s.initWidx o x k := by
    intro k
    induction k with
    | zero =>
      intro _ hno
      exact hS.unwritten x hx fun j hj => hno j (Nat.zero_le _) (by rw [← hm.1]; exact hj)
    | succ k ih =>
      intro hk hno
      rw [windowByte]
      by_cases hkx : (s.initWidx + k) % 2 ^ s.indexSize = x
      · rw [if_pos hkx, ← hm.2 k (by omega), ← hkx]
        refine hS.mirror k (by rw [hm.1]; omega) ?_
        rw [hm.1]
        by_contra hcon
        refine hno (k + 2 ^ s.indexSize) (by have := Nat.two_pow_pos s.indexSize; omega) (by omega) ?_
        rw [← Nat.add_assoc, Nat.add_mod_right]; exact hkx
      · rw [if_neg hkx]
        refine ih (by omega) fun j hj hjo => ?_
        by_cases hjk : j = k
        · rw [hjk]; exact hkx
        · exact hno j (by omega) hjo
  exact key o.length (Nat.le_refl _) fun j h1 h2 => by omega

end Sys2Proof.Machine
end

