-- ==== Sys2Proof/Laws/PerInstr.lean ====
section
/-! SUPPORT. The law made per instruction: how long the code of each instruction is. -/

namespace Sys2Proof.Laws.CodeLength

/-- A command's word has its reserved bits 0 (30_encoding.md R83); a token has at least its control bit and at most the longest
token's bits (30_encoding.md R85, R88). -/
def Statement (i : Instr) : Prop :=
  ∀ f : Format,
    (i.isCommand = true → encode f i = .command ((opOf i).setWidth 32) ∧ ((opOf i).setWidth 32 : Word) &&& 3 = (opOf i).setWidth 32)
    ∧ (i.isCommand = false → encode f i = .token (tokenBits f i) ∧ 1 ≤ (tokenBits f i).length
        ∧ (tokenBits f i).length ≤ 1 + max 8 (f.indexSize + f.lengthSize))

theorem nop : Statement .nop := fun _ => ⟨fun _ => ⟨rfl, by decide⟩, fun h => (by cases h)⟩

theorem decryptLegacy : Statement .decryptLegacy := fun _ => ⟨fun _ => ⟨rfl, by decide⟩, fun h => (by cases h)⟩

theorem decryptBlock : Statement .decryptBlock := fun _ => ⟨fun _ => ⟨rfl, by decide⟩, fun h => (by cases h)⟩

theorem decompress : Statement .decompress := fun _ => ⟨fun _ => ⟨rfl, by decide⟩, fun h => (by cases h)⟩

theorem lit (value : Byte) : Statement (.lit value) := fun _ =>
  ⟨fun h => (by cases h), fun _ => ⟨rfl, by rw [tokenBits_length]; dsimp only; omega, by rw [tokenBits_length]; dsimp only; omega⟩⟩

theorem matchCopy (offset len : Nat) : Statement (.matchCopy offset len) := fun _ =>
  ⟨fun h => (by cases h), fun _ => ⟨rfl, by rw [tokenBits_length]; dsimp only; omega, by rw [tokenBits_length]; dsimp only; omega⟩⟩

theorem endMark : Statement .endMark := fun _ =>
  ⟨fun h => (by cases h), fun _ => ⟨rfl, by rw [tokenBits_length]; dsimp only; omega, by rw [tokenBits_length]; dsimp only; omega⟩⟩

end Sys2Proof.Laws.CodeLength
end

