-- ==== Sys2Proof/Tests/Slice0.lean ====
section
/-! SUPPORT. Small tests of the decoder, of well-formedness and of single steps, their expected results taken from the spec
(30_encoding.md, 95_test_vectors.md), and one witness for the hypotheses of each statement. -/

namespace Sys2Proof.Tests

open Sys2Proof.Machine

/-! ### Helpers -/

/-- A memory that lists `bytes` from address 0 on. -/
def mem (bytes : List Byte) : Memory := (List.range bytes.length).zip bytes

/-- The machine after reset with DATA and IN_LEN set by the host. -/
def idle (bytes : List Byte) : State :=
  { State.reset with data := mem bytes, regs := { Regs.reset with inLen := BitVec.ofNat 32 bytes.length } }

/-- The next state of an outcome, the reset state where there is none. -/
def after (o : Host.Outcome State Fault Refusal) : State :=
  match o with
  | .next s => s
  | .fault _ => State.reset
  | .refused _ => State.reset

/-- The state of an outcome that is a next state. -/
def isNext (o : Host.Outcome State Fault Refusal) : Bool :=
  match o with
  | .next _ => true
  | .fault _ => false
  | .refused _ => false

/-- The DATA bytes listed. -/
def bytesOf (m : Memory) : List Byte := m.map fun c => c.2

def legacy (bytes : List Byte) (key : Byte) (start : Word) : State :=
  let s := idle bytes
  { s with regs := { s.regs with key := key, start := start } }

def block (bytes : List Byte) (bs : Word) (base add : Byte) : State :=
  let s := idle bytes
  { s with regs := { s.regs with blockSize := bs, base := base, add := add } }

/-- A DECOMPRESS set up with an output capacity, a policy, LZ_CFG and LZ_INIT_WIDX. -/
def lzss (bytes : List Byte) (cap : Nat) (p : PastEnd) (cfg iw : Word) : State :=
  let s := idle bytes
  { s with
    par := { s.par with outCapacity := cap, pastEnd := p }
    regs := (s.regs.write 0x20 cfg).write 0x24 iw }

/-- The same, started: the initial step done, at the first token. -/
def stream (bytes : List Byte) (cap : Nat) (p : PastEnd) (cfg iw : Word) : State :=
  let s := lzss bytes cap p cfg iw
  initStream { s with
    regs := { s.regs with op := 3, status := .busy }
    work := { s.work with l := BitVec.ofNat 32 bytes.length } }

/-- `s` with one event waiting. -/
def withEvent (s : State) (e : Event) : State := { s with inputs := [e] }

/-- A command in the middle of its run. -/
def running (s : State) (op : Word) : State := after (step (withEvent s (.writeReg 0x00 op)))

/-- A state right after Init meets the invariant. -/
theorem inv_initStream {s : State} (hp : s.par.wf) (hd : s.data.wf) (hdw : s.data.within s.par.inCapacity)
    (hs : s.snap = []) (hw : s.win = []) (hf : s.winFilled = 0) (ho : s.regs.op = 3) (hl : s.work.l = s.regs.inLen)
    (hle : s.work.l.toNat ≤ s.par.inCapacity) (hbad : badParams s = false) : (initStream s).Inv := by
  obtain ⟨h1, -, -⟩ := (badParams_eq_false s).mp hbad
  have hw13 : 2 ^ s.indexSize ≤ 2 ^ 13 := Nat.pow_le_pow_right (by omega) h1
  have hwin : (initStream s).win = [] := by rw [initStream_win, hw]; rfl
  refine ⟨hp, ⟨hd, List.Pairwise.nil, ?_, ?_, ?_, hdw, ?_, ?_, ?_, ?_⟩, fun _ => ⟨?_, hl, hle⟩, fun _ h => ?_,
    fun _ _ => initStream_streamInv hp hle hbad⟩
  · rw [initStream_snap, hs]; exact List.Pairwise.nil
  · rw [hwin]; exact List.Pairwise.nil
  · intro c hc; rw [hwin] at hc; cases hc
  · intro c hc; cases hc
  · rw [initStream_snap, hs]; intro c hc; cases hc
  · rw [hwin]; intro c hc; cases hc
  · rw [initStream_winFilled, hf]; simp only [Config.maxIndexSize]; omega
  · rw [initStream_regs, ho]; decide
  · rw [initStream_regs, ho] at h; cases h

/-! ### Well-formedness: for each check a term it refuses -/

theorem test_wf_match_offset_zero : (Instr.matchCopy 0 1).wf Format.default = false := by decide
theorem test_wf_match_offset_large : (Instr.matchCopy 8192 1).wf Format.default = false := by decide
theorem test_wf_match_length_large : (Instr.matchCopy 5 16).wf Format.default = false := by decide
theorem test_wf_match_bounds : (Instr.matchCopy 8191 15).wf Format.default = true
    ∧ (Instr.matchCopy 1 0).wf Format.default = true := by decide
theorem test_wf_no_match_without_index_bits : ∀ off < 2, (Instr.matchCopy off 0).wf ⟨0, 4⟩ = false := by decide
theorem test_wf_format_index_large : Format.legal ⟨14, 4⟩ = false ∧ Format.legal ⟨13, 4⟩ = true := by decide
theorem test_wf_format_length_large : Format.legal ⟨13, 17⟩ = false ∧ Format.legal ⟨13, 16⟩ = true := by decide

/-! ### Decoding: words written out from the spec -/

/-- 30_encoding.md R80. -/
theorem test_decode_commands : decodeCommand 0x00000000 = .nop ∧ decodeCommand 0x00000001 = .decryptLegacy
    ∧ decodeCommand 0x00000002 = .decryptBlock ∧ decodeCommand 0x00000003 = .decompress := by decide
/-- 30_encoding.md R83; 95_test_vectors.md E6. -/
theorem test_decode_command_reserved : decodeCommand 0xFFFFFFFD = .decryptLegacy ∧ decodeCommand 0xFFFFFFFC = .nop := by
  decide
/-- 42_lzss_decoder.md R173: `LIT 0x41` is `101000001`. -/
theorem test_decode_lit : decodeToken Format.default
    [true, false, true, false, false, false, false, false, true] = .ok (.lit 0x41, []) := by decide
/-- 42_lzss_decoder.md R174: `MATCH 1, 0` is `000000000000010000`. -/
theorem test_decode_match : decodeToken Format.default
    [false, false, false, false, false, false, false, false, false, false, false, false, false, true,
     false, false, false, false] = .ok (.matchCopy 1 0, []) := by decide
/-- 95_test_vectors.md Z3: `MATCH 8190, 0` is `0 1111111111110 0000`. -/
theorem test_decode_match_high : decodeToken Format.default
    [false, true, true, true, true, true, true, true, true, true, true, true, true, false,
     false, false, false, false] = .ok (.matchCopy 8190 0, []) := by decide
/-- 95_test_vectors.md Z6: `MATCH 1, 3` with 3 index and 2 length bits is `0 001 11`. -/
theorem test_decode_match_custom : decodeToken ⟨3, 2⟩ [false, false, false, true, true, true, true]
    = .ok (.matchCopy 1 3, [true]) := by decide
/-- 30_encoding.md R86: END is 14 zero bits. -/
theorem test_decode_end : decodeToken Format.default (List.replicate 14 false) = .ok (.endMark, []) := by decide
/-- 30_encoding.md R90 (3): with no index bits END is one bit. -/
theorem test_decode_end_short : decodeToken ⟨0, 0⟩ [false, true] = .ok (.endMark, [true]) := by decide
/-- 30_encoding.md R89: a sequence that runs out is refused by name. -/
theorem test_decode_cut : decodeToken Format.default [] = .error .noControlBit
    ∧ decodeToken Format.default (List.replicate 8 true) = .error .literalCut
    ∧ decodeToken Format.default (List.replicate 13 false) = .error .offsetCut
    ∧ decodeToken Format.default (List.replicate 13 false ++ List.replicate 4 true) = .error .lengthCut := by decide
/-- spec/opcode_table.json: one word of each row. -/
theorem test_decode_table : decodeTableWord 32 0 = some .nop ∧ decodeTableWord 32 1 = some .decryptLegacy
    ∧ decodeTableWord 32 2 = some .decryptBlock ∧ decodeTableWord 32 3 = some .decompress
    ∧ decodeTableWord 16 0x141 = some (.lit 0x41) ∧ decodeTableWord 24 0x51 = some (.matchCopy 5 1)
    ∧ decodeTableWord 16 0 = some .endMark := by decide

/-- Each row's word is what the next step runs from reset (log 17). -/
theorem test_fetch_commands : step (State.reset.withFetchWord 32 1) = exec .decryptLegacy State.reset
    ∧ step (State.reset.withFetchWord 8 3) = exec .decompress State.reset := ⟨rfl, rfl⟩
theorem test_fetch_tokens :
    step (State.reset.withFetchWord 16 0x141) = exec (.lit 0x41) { State.reset.withFetchWord 16 0x141 with inputs := [] }
    ∧ step (State.reset.withFetchWord 24 0x51) = exec (.matchCopy 5 1) { State.reset.withFetchWord 24 0x51 with inputs := [] }
    ∧ step (State.reset.withFetchWord 16 0) = exec .endMark { State.reset.withFetchWord 16 0 with inputs := [] }
    ∧ isNext (step (State.reset.withFetchWord 16 0x141)) = true := ⟨rfl, rfl, rfl, by decide⟩

/-! ### Instructions: 95_test_vectors.md -/

/-- E5. -/
theorem test_nop : (after (exec .nop { idle [1] with regs := { Regs.reset with op := 3, status := .done, outLen := 4 } })).regs
    = { Regs.reset with op := 0, status := .done, outLen := 4 } := by decide
/-- L2: the key and the difference wrap. -/
theorem test_legacy_wrap :
    bytesOf (after (exec .decryptLegacy (legacy [0x10, 0x10, 0x10] 0xFE 0))).data = [0x12, 0x0B, 0x04] := by decide
/-- L3: bytes before START are untouched. -/
theorem test_legacy_start :
    bytesOf (after (exec .decryptLegacy (legacy [0xAA, 0xBB, 0xCC, 0xDD] 1 2))).data = [0xAA, 0xBB, 0xCB, 0xD5] := by decide
/-- B4: the key carries across blocks. -/
theorem test_block_key : bytesOf (after (exec .decryptBlock (block [0, 0, 0, 0, 0, 0, 0, 0] 4 0xA0 3))).data
    = [0xA9, 0xA3, 0xA6, 0xA0, 0xB5, 0xAF, 0xB2, 0xAC] := by decide
/-- B6: an odd length, a short last block of odd size. -/
theorem test_block_odd : bytesOf (after (exec .decryptBlock
    (block [0, 1, 2, 3, 4, 5, 6, 7, 8, 9, 0xA, 0xB, 0xC, 0xD, 0xE, 0xF, 0x10] 8 0 0))).data
    = [7, 3, 6, 2, 5, 1, 4, 0, 0xB, 0xE, 0xA, 0xD, 9, 0xC, 8, 0xF, 0x10] := by decide
/-- Z6: custom parameters, the cursor wraps, an offset equal to the cursor. -/
theorem test_decompress_custom :
    (fun t => (bytesOf t.out, t.regs.status, t.regs.bitpos))
      (after (exec .decompress (lzss [0xB0, 0xD8, 0x9D, 0x1D, 0xC0] 1000 .failFast 0x00010203 7)))
    = ([0x61, 0x62, 0x61, 0x62, 0x61, 0x62, 0x61, 0x62, 0x61], .done, 40) := by decide
/-- Z4b under both policies: a cut END. -/
theorem test_decompress_cut :
    (fun t : State => (t.regs.status, t.regs.outLen, t.regs.bitpos))
      (after (exec .decompress (lzss [0xA0, 0x80, 2, 0, 0] 1000 .failFast 0x0003040D 1))) = (.error .formatInvalid, 0, 28)
    ∧ (fun t : State => (bytesOf t.out, t.regs.status, t.regs.bitpos))
      (after (exec .decompress (lzss [0xA0, 0x80, 2, 0, 0] 1000 .zeroFillSaturating 0x0003040D 1)))
      = ([0x41, 0x41, 0x41, 0x41], .done, 40) := by decide
/-- R173: `LIT 0x41` at WCUR = 1 sets WIN[1] and WCUR = 2. -/
theorem test_lit : (fun t : State => (t.out, t.win, t.work.wcur, t.work.brPos))
    (after (exec (.lit 0x41) (stream [0xA0, 0xD0, 0x80, 0] 8 .failFast 0x0003040D 1)))
    = ([(0, 0x41)], [(1, 0x41)], 2, 9) := by decide
/-- R173: at WCUR = W − 1 the cursor wraps; a byte equal to WINDOW_INIT lists nothing. -/
theorem test_lit_wrap : (fun t : State => (t.win, t.work.wcur))
    (after (exec (.lit 0) (stream [0xA0, 0xD0, 0x80, 0] 8 .failFast 0x0003040D 8191))) = ([], 0) := by decide
/-- R174: after `LIT 0x41` at WCUR = 1, `MATCH 1, 0` emits 41 41 41 and leaves WCUR = 5. -/
theorem test_match_self : (fun t : State => (bytesOf t.out, t.win, t.work.wcur, t.work.brPos))
    (after (exec (.matchCopy 1 0) (after (exec (.lit 0x41) (stream [0xA0, 0x80, 2, 0, 0, 0] 8 .failFast 0x0003040D 1)))))
    = ([0x41, 0x41, 0x41, 0x41], [(1, 0x41), (2, 0x41), (3, 0x41), (4, 0x41)], 5, 27) := by decide
/-- Z18: the copy that has no room. -/
theorem test_match_full : (fun t : State => (t.regs.status, t.regs.outLen, t.regs.bitpos, t.out))
    (after (exec (.matchCopy 1 0) (after (exec (.lit 0x41) (stream [0xA0, 0x80, 2, 0, 0, 0] 3 .failFast 0x0003040D 1)))))
    = (.error .resourceExhaustion, 0, 27, []) := by decide
/-- Z7: END at bit 14 of 16. -/
theorem test_end_leftover : (fun t : State => (t.regs.status, t.regs.bitpos))
    (after (exec .endMark (stream [0, 0] 8 .failFast 0x0003040D 1))) = (.error .formatInvalid, 14) := by decide
/-- R90 (3): END of one bit; the last of eight, after seven of them would be a new token each. -/
theorem test_end_done : (fun t : State => (t.regs.status, t.regs.bitpos, t.work.fsm))
    (after (exec .endMark (stream [0] 8 .failFast 0x00000007 1))) = (.done, 8, .terminated) := by decide

/-! ### Registers and host accesses -/

/-- E1, E2, E3, E4. -/
theorem test_registers : State.reset.regs.read 0x20 = 0x0003040D ∧ (Regs.reset.write 0x10 0xFFFFFFFF).read 0x10 = 0xFF
    ∧ (Regs.reset.write 0x20 0xFFFFFFFF).read 0x20 = 0x00FF1F1F ∧ Regs.reset.read 0x2C = 0
    ∧ Regs.reset.write 0x30 5 = Regs.reset := by decide
/-- E7: the STATUS word of OUT_OF_RANGE. -/
theorem test_status_word : (after (exec .decryptBlock (block [1, 2, 3, 4] 0 0 0))).regs.read 0x04 = 0x0000000B := by decide

/-! ### Witnesses: the hypotheses of each statement can be met -/

theorem witness_ResetWhileIdleKeepsData :
    (withEvent (idle [1]) .reset).inputs = [.reset] ∧ (withEvent (idle [1]) .reset).isBusy = false := by decide
theorem witness_ResetWhileBusyAbandonsCommand :
    (withEvent (running (legacy [1, 2] 1 0) 1) .reset).inputs = [.reset]
    ∧ (withEvent (running (legacy [1, 2] 1 0) 1) .reset).isBusy = true
    ∧ 0 < (withEvent (running (legacy [1, 2] 1 0) 1) .reset).work.l.toNat := by decide
/-- A configuration register, a read-only one, an unmapped and a misaligned offset. -/
theorem witness_RegisterWriteReadsBack : ∀ off ∈ [0x08, 0x24, 0x04, 0x2C, 0x09],
    (withEvent (idle [1]) (.writeReg off 0xFFFFFFFF)).inputs = [.writeReg off 0xFFFFFFFF]
    ∧ (withEvent (idle [1]) (.writeReg off 0xFFFFFFFF)).isBusy = false ∧ off ≠ 0 := by decide
/-- The last register, the first offset after it, and a misaligned one. -/
theorem witness_ReservedBitsAndUnmappedOffsets : 0x28 ∈ registerOffsets ∧ 0x2C ∉ registerOffsets ∧ 0x21 ∉ registerOffsets
    ∧ (idle [1]).isBusy = false ∧ (withEvent (idle [1]) (.readReg 0x2C)).inputs = [.readReg 0x2C]
    ∧ (withEvent (idle [1]) (.writeReg 0x21 5)).inputs = [.writeReg 0x21 5] := by decide
theorem witness_RegisterWriteReadsBack_clauses : 0x08 ∈ configOffsets ∧ 0x04 ∉ configOffsets ∧ 0x2C ∉ registerOffsets := by
  decide
/-- The last index there is, and the first that is not there. -/
theorem witness_HostByteAccesses : ∀ i ∈ [2 ^ 29 - 2, 2 ^ 29 - 1, 2 ^ 32 - 2, 2 ^ 32 - 1],
    (withEvent (idle [1]) (.writeData i 7)).isBusy = false ∧ (withEvent (idle [1]) (.writeData i 7)).inputs = [.writeData i 7]
    ∧ (withEvent (idle [1]) (.readData i)).inputs = [.readData i] ∧ (withEvent (idle [1]) (.readOut i)).inputs = [.readOut i] := by
  decide
theorem witness_RegisterReadHasNoSideEffect : ∀ off ∈ [0x28, 0x2C],
    (withEvent (idle [1]) (.readReg off)).inputs = [.readReg off] ∧ (withEvent (idle [1]) (.readReg off)).isBusy = false := by
  decide
theorem witness_BusyRefusesHostAccesses : (running (legacy [1, 2] 1 0) 1).isBusy = true
    ∧ ∀ e ∈ [Event.readReg 0x04, .readReg 0x0C, .writeReg 0x08 1, .command 1, .writeData 0 1, .readData 0, .readOut 0],
      (withEvent (running (legacy [1, 2] 1 0) 1) e).inputs = [e]
      ∧ (withEvent (running (legacy [1, 2] 1 0) 1) e).isBusy = true := by decide
theorem witness_CommandWordDecoding : (0xFFFFFFFC : Word) &&& 3 = 0 ∧ (0xFFFFFFFD : Word) &&& 3 = 1
    ∧ (0xFFFFFFFE : Word) &&& 3 = 2 ∧ (0xFFFFFFFF : Word) &&& 3 = 3 := by decide
theorem witness_TokenEncodeDecode : (Instr.matchCopy 8191 15).isCommand = false
    ∧ (Instr.matchCopy 8191 15).wf Format.default = true ∧ (Instr.endMark).wf ⟨0, 0⟩ = true := by decide
theorem witness_CommandEncodeDecode : Instr.decompress.isCommand = true := by decide
theorem witness_StepRunsCommand : (withEvent (legacy [1, 2] 1 0) (.command 0xFFFFFFFD)).inputs = [.command 0xFFFFFFFD]
    ∧ (withEvent (legacy [1, 2] 1 0) (.command 0xFFFFFFFD)).isBusy = false := by decide
theorem witness_StepRunsToken : (fun s : State => s.inputs = [] ∧ s.atToken = true
    ∧ s.work.brPos.toNat + (tokenBits s.format (.matchCopy 5 0)).length ≤ s.work.total.toNat
    ∧ (Instr.matchCopy 5 0).isCommand = false ∧ (Instr.matchCopy 5 0).wf s.format = true
    ∧ s.streamBits s.work.brPos.toNat (s.work.total.toNat - s.work.brPos.toNat)
      = tokenBits s.format (.matchCopy 5 0) ++ List.replicate 14 false)
    (stream [0, 0x14, 0, 0] 8 .failFast 0x0003040D 1) := by decide
/-- Z12's last token: a literal whose bits the end of the stream cuts off after one. -/
theorem witness_StepRunsPaddedToken : (fun s : State => s.inputs = [] ∧ s.atToken = true
    ∧ s.par.pastEnd = .zeroFillSaturating ∧ (Instr.lit 0).isCommand = false ∧ (Instr.lit 0).wf s.format = true
    ∧ s.paddedBits (tokenBits s.format (.lit 0)).length = tokenBits s.format (.lit 0)
    ∧ s.work.total.toNat < s.work.brPos.toNat + (tokenBits s.format (.lit 0)).length)
    (stream [0x80] 8 .zeroFillSaturating 0x0003040D 1) := by decide
theorem witness_IdleCoreWaits : (idle [1]).inputs = [] ∧ (idle [1]).isBusy = false := by decide
theorem witness_WaitPollsStatus : (withEvent (idle [1]) .wait).inputs = [.wait] ∧ (withEvent (idle [1]) .wait).isBusy = false
    ∧ (withEvent (running (legacy [1, 2] 1 0) 1) .wait).inputs = [.wait]
    ∧ (withEvent (running (legacy [1, 2] 1 0) 1) .wait).isBusy = true
    ∧ isNext (step (withEvent (running (legacy [1, 2] 1 0) 1) .wait)) = true := by decide
theorem witness_NopChangesOnlyOp : (idle [1]).isBusy = false := by decide
/-- NOP, a command that runs, and one that fails its checks. -/
theorem witness_CommandWriteStoresOp : (block [1] 0 0 0).isBusy = false
    ∧ isNext (step (withEvent (block [1] 0 0 0) (.writeReg 0x00 0xFFFFFFFC))) = true
    ∧ isNext (step (withEvent (block [1] 0 0 0) (.writeReg 0x00 1))) = true
    ∧ isNext (step (withEvent (block [1] 0 0 0) (.command 1))) = true
    ∧ isNext (step (withEvent (block [1] 0 0 0) (.command 2))) = true :=
  ⟨by decide, by decide, by decide, by decide, by decide⟩
theorem witness_LengthCheckComesFirst :
    (fun s : State => s.isBusy = false ∧ s.par.inCapacity < s.regs.inLen.toNat)
      { State.reset with regs := { Regs.reset with inLen := 0x20000000 } } := by decide
theorem witness_ConfigurationIsKept : isNext (exec .decryptBlock (block [1, 2] 2 1 1)) = true
    ∧ isNext (exec (.lit 0x41) (stream [0xA0, 0xD0, 0x80, 0] 8 .failFast 0x0003040D 1)) = true := by decide
theorem witness_CommandsEndDoneOrError : State.reset.par.wf ∧ State.reset.isBusy = false := by decide
theorem witness_ErrorLeavesData : (block [1, 2] 0 0 0).par.wf
    ∧ exec .decryptBlock (block [1, 2] 0 0 0) = .next (after (exec .decryptBlock (block [1, 2] 0 0 0)))
    ∧ (after (exec .decryptBlock (block [1, 2] 0 0 0))).regs.status = .error .outOfRange := ⟨by decide, rfl, by decide⟩
/-- The longest buffer there is, and a start inside it. -/
theorem witness_LegacyClosedForm : (fun s : State => s.isBusy = false ∧ s.regs.inLen.toNat ≤ s.par.inCapacity
    ∧ s.regs.start.toNat < s.regs.inLen.toNat)
      { State.reset with regs := { Regs.reset with inLen := 0x1FFFFFFF, start := 0x1FFFFFFE } } := by decide
theorem witness_LegacyStartBeyondLength : (fun s : State => s.isBusy = false ∧ s.regs.inLen.toNat ≤ s.par.inCapacity
    ∧ s.regs.inLen.toNat ≤ s.regs.start.toNat) (legacy [0xAA, 0xBB] 5 2) := by decide
theorem witness_LegacyFrame : isNext (exec .decryptLegacy (legacy [0xAA, 0xBB] 5 0)) = true := by decide
/-- L8. -/
theorem witness_LegacyRoundTrip :
    (fun (s : State) (buf : List Byte) => s.isBusy = false ∧ s.regs.inLen.toNat ≤ s.par.inCapacity
      ∧ s.regs.inLen.toNat = buf.length
      ∧ ∀ i, i < buf.length → s.readData i = (legacyEncrypt s.regs.key s.regs.start.toNat buf).getD i 0)
      (legacy [0x41, 0x9C, 0xA4, 0xAC, 0xB4] 0x5A 1) [0x41, 0x42, 0x43, 0x44, 0x45] := by decide
theorem witness_LegacyBytesAreIndependent :
    (fun s₁ s₂ : State => s₁.regs.key = s₂.regs.key ∧ s₁.regs.start = s₂.regs.start ∧ s₁.regs.inLen = s₂.regs.inLen
      ∧ s₁.par.inCapacity = s₂.par.inCapacity ∧ s₁.readData 1 = s₂.readData 1 ∧ s₁.readData 0 ≠ s₂.readData 0
      ∧ isNext (exec .decryptLegacy s₁) = true ∧ isNext (exec .decryptLegacy s₂) = true
      ∧ s₁.regs.inLen.toNat ≤ s₁.par.inCapacity
      ∧ isNext (exec .decryptLegacy (after (exec .decryptLegacy s₁))) = true)
      (legacy [1, 2] 5 0) (legacy [3, 2] 5 0) := by decide
theorem witness_BlockClosedForm : (fun s : State => s.isBusy = false ∧ s.regs.inLen.toNat ≤ s.par.inCapacity
    ∧ s.blockSize ≠ 0 ∧ s.activeLen = 4) (block [1, 2, 3, 4, 5] 4 0 0) := by decide
theorem witness_BlockFrame : isNext (exec .decryptBlock (block [1, 2, 3, 4, 5] 4 0 0)) = true := by decide
theorem witness_BlockSizeZeroFails : (block [1, 2] 0 0 0).isBusy = false ∧ (block [1, 2] 0 0 0).blockSize = 0 := by decide
/-- B16. -/
theorem witness_BlockRoundTrip :
    (fun (s : State) (plain : Nat → Byte) => s.isBusy = false ∧ s.regs.inLen.toNat ≤ s.par.inCapacity ∧ s.blockSize ≠ 0
      ∧ (∀ g, g < s.activeLen → s.readData g =
          plain (blockTarget s.blockSize s.activeLen g) ^^^ blockKeyAt s.regs.base s.regs.add g)
      ∧ s.activeLen = 6 ∧ s.regs.inLen.toNat = 7 ∧ s.readData 6 = plain 6)
      (block [0x78, 0x6F, 0x6D, 0x7E, 0xE6, 0xC4, 0x77] 4 0x3C 0x11)
      (fun i => [0x11, 0x22, 0x33, 0x44, 0x55, 0x66, 0x77].getD i 0) := by decide
/-- R146's example, and a pair on which the readings agree. -/
theorem witness_QuarterReadingsDiffer : (1 ≤ 5 ∧ 6 ≠ 1 ∧ activeLength .floor 6 5 ≠ activeLength .exact 6 5)
    ∧ activeLength .floor 8 5 = activeLength .exact 8 5 := by decide
/-- Each check just missed and just met. -/
theorem witness_DecompressParameterChecks :
    (fun s : State => s.isBusy = false ∧ s.regs.inLen.toNat ≤ s.par.inCapacity ∧ s.indexSize = 14)
      (lzss [0] 8 .failFast 0x0003040E 1)
    ∧ (fun s : State => s.isBusy = false ∧ s.regs.inLen.toNat ≤ s.par.inCapacity ∧ s.lengthSize = 17)
      (lzss [0] 8 .failFast 0x0003110D 1)
    ∧ (fun s : State => s.isBusy = false ∧ s.regs.inLen.toNat ≤ s.par.inCapacity ∧ s.indexSize = 3 ∧ s.initWidx = 8)
      (lzss [0] 8 .failFast 0x00030403 8)
    ∧ (fun s : State => s.isBusy = false ∧ s.regs.inLen.toNat ≤ s.par.inCapacity ∧ s.indexSize = 13 ∧ s.lengthSize = 16
      ∧ s.initWidx = 8191) (lzss [0] 8 .failFast 0x0003100D 8191) :=
  ⟨by decide, by decide, by decide, by decide⟩
theorem witness_DecompressAlwaysStops : State.reset.par.wf ∧ State.reset.isBusy = false := by decide
theorem witness_DecompressFrame : isNext (exec .decompress (lzss [0xA0, 0xD0, 0x80, 0] 8 .failFast 0x0003040D 1)) = true := by
  decide
theorem witness_DecompressDependsOnInputOnly :
    (fun s₁ s₂ : State => s₁ ≠ s₂ ∧ s₁.par = s₂.par ∧ s₁.par.wf ∧ s₁.regs.inLen = s₂.regs.inLen
      ∧ s₁.regs.indexSize = s₂.regs.indexSize ∧ s₁.regs.lengthSize = s₂.regs.lengthSize
      ∧ s₁.regs.minLength = s₂.regs.minLength ∧ s₁.regs.initWidx = s₂.regs.initWidx
      ∧ (∀ i, i < s₁.regs.inLen.toNat → s₁.readData i = s₂.readData i)
      ∧ isNext (exec .decompress s₁) = true ∧ isNext (exec .decompress s₂) = true)
      (lzss [0xA0, 0xD0, 0x80, 0] 8 .failFast 0x0003040D 1)
      { lzss [0xA0, 0xD0, 0x80, 0] 8 .failFast 0x0003040D 1 with out := mem [9], draws := 5 } := by decide
theorem witness_DecompressConsumesExactly : (lzss [0xA0, 0xD0, 0x80, 0] 8 .failFast 0x0003040D 1).par.wf
    ∧ exec .decompress (lzss [0xA0, 0xD0, 0x80, 0] 8 .failFast 0x0003040D 1)
      = .next (after (exec .decompress (lzss [0xA0, 0xD0, 0x80, 0] 8 .failFast 0x0003040D 1)))
    ∧ (after (exec .decompress (lzss [0xA0, 0xD0, 0x80, 0] 8 .failFast 0x0003040D 1))).regs.status = .done
    ∧ isNext (exec .decompress (lzss [0xA0] 8 .failFast 0x0003040D 1)) = true
    ∧ (after (exec .decompress (lzss [0xA0] 8 .failFast 0x0003040D 1))).regs.status ≠ .done :=
  ⟨by decide, rfl, by decide, by decide, by decide⟩
/-- Z1 as its tokens. -/
theorem witness_DecompressDecodesTokens :
    (fun (s : State) (tokens : List Instr) => s.par.wf ∧ s.isBusy = false ∧ s.regs.inLen.toNat ≤ s.par.inCapacity
      ∧ s.indexSize ≤ 13 ∧ s.lengthSize ≤ 16 ∧ s.initWidx < 2 ^ s.indexSize
      ∧ (∀ i ∈ tokens, i.isCommand = false ∧ i ≠ .endMark ∧ i.wf s.format = true)
      ∧ s.streamBits 0 (8 * s.regs.inLen.toNat) = tokens.flatMap (tokenBits s.format) ++ tokenBits s.format .endMark
      ∧ (streamOutput s.par.windowInitAt (2 ^ s.indexSize) s.initWidx s.minLength tokens).length ≤ s.par.outCapacity)
      (lzss [0, 0x14, 0, 0] 3 .failFast 0x0003040D 1) [.matchCopy 5 0] := by decide
theorem witness_LiteralOnlyStreams :
    (fun (s : State) (vs : List Byte) => s.par.wf ∧ s.isBusy = false ∧ s.regs.inLen.toNat ≤ s.par.inCapacity
      ∧ s.indexSize ≤ 13 ∧ s.lengthSize ≤ 16 ∧ s.initWidx < 2 ^ s.indexSize ∧ vs.length ≤ s.par.outCapacity
      ∧ s.streamBits 0 (8 * s.regs.inLen.toNat) =
        vs.flatMap (fun v => tokenBits s.format (.lit v)) ++ tokenBits s.format .endMark)
      (lzss [0xA0, 0xD0, 0x80, 0] 2 .failFast 0x0003040D 1) [0x41, 0x42]
    ∧ (([0x41, 0x42] : List Byte).flatMap (fun v => tokenBits Format.default (.lit v))
        ++ tokenBits Format.default .endMark).length = 8 * 4 := by decide
/-- Z14. -/
theorem witness_BitsAfterEndFail :
    (fun (s : State) (tokens : List Instr) (rest : List Bool) => s.par.wf ∧ s.isBusy = false
      ∧ s.regs.inLen.toNat ≤ s.par.inCapacity ∧ s.indexSize ≤ 13 ∧ s.lengthSize ≤ 16 ∧ s.initWidx < 2 ^ s.indexSize
      ∧ (∀ i ∈ tokens, i.isCommand = false ∧ i ≠ .endMark ∧ i.wf s.format = true)
      ∧ s.streamBits 0 (8 * s.regs.inLen.toNat) =
        tokens.flatMap (tokenBits s.format) ++ tokenBits s.format .endMark ++ rest
      ∧ rest ≠ []
      ∧ (streamOutput s.par.windowInitAt (2 ^ s.indexSize) s.initWidx s.minLength tokens).length ≤ s.par.outCapacity)
      (lzss [0xA0, 0xD0, 0x80, 0, 0] 2 .failFast 0x0003040D 1) [.lit 0x41, .lit 0x42] (List.replicate 8 false) := by decide
/-- Z5. -/
theorem witness_TruncatedStreamsFail :
    (fun (s : State) (n : Word) => s.par.wf ∧ s.par.pastEnd = .failFast
      ∧ exec .decompress s = .next (after (exec .decompress s)) ∧ (after (exec .decompress s)).regs.status = .done
      ∧ s.regs.inLen.toNat = n.toNat + 1) (lzss [0xA0, 0xD0, 0x80, 0] 8 .failFast 0x0003040D 1) 3 :=
  ⟨by decide, rfl, rfl, by decide, by decide⟩
/-- Z8 under both policies. -/
theorem witness_EmptyInput : ∀ p ∈ [PastEnd.failFast, .zeroFillSaturating],
    (fun s : State => s.par.wf ∧ s.isBusy = false ∧ s.regs.inLen = 0 ∧ s.indexSize ≤ 13 ∧ s.lengthSize ≤ 16
      ∧ s.initWidx < 2 ^ s.indexSize) (lzss [] 8 p 0x0003040D 1) := by decide

/-- A stream state that meets the invariant, for the statements about tokens. -/
theorem inv_stream (bytes : List Byte) (cap : Nat) (p : PastEnd) (cfg iw : Word)
    (h : (lzss bytes cap p cfg iw).par.wf ∧ (mem bytes).wf ∧ (mem bytes).within (2 ^ 29 - 1)
      ∧ (BitVec.ofNat 32 bytes.length : Word).toNat ≤ 2 ^ 29 - 1
      ∧ (lzss bytes cap p cfg iw).regs.inLen = BitVec.ofNat 32 bytes.length
      ∧ badParams (lzss bytes cap p cfg iw) = false) : (stream bytes cap p cfg iw).Inv :=
  inv_initStream h.1 h.2.1 h.2.2.1 rfl rfl rfl rfl h.2.2.2.2.1.symm h.2.2.2.1 h.2.2.2.2.2

theorem witness_LiteralResult : (fun s : State => s.Inv ∧ s.atToken = true ∧ s.canRead 9
    ∧ s.work.optr.toNat < s.par.outCapacity) (stream [0xA0, 0xD0] 1 .failFast 0x0003040D 8191) :=
  ⟨inv_stream _ _ _ _ _ (by decide), by decide, by decide, by decide⟩
/-- One byte for nine bits; no room for a literal whose bits are there. -/
theorem witness_LiteralErrors :
    (fun s : State => s.Inv ∧ s.atToken = true ∧ s.par.pastEnd = .failFast ∧ s.work.total.toNat < s.work.brPos.toNat + 9)
      (stream [0xA0] 8 .failFast 0x0003040D 1)
    ∧ (fun s : State => s.Inv ∧ s.atToken = true ∧ s.canRead 9 ∧ s.work.optr.toNat = s.par.outCapacity)
      (stream [0xA0, 0xD0] 0 .failFast 0x0003040D 1) :=
  ⟨⟨inv_stream _ _ _ _ _ (by decide), by decide, by decide, by decide⟩,
   ⟨inv_stream _ _ _ _ _ (by decide), by decide, by decide, by decide⟩⟩
theorem witness_MatchResult : (fun s : State => s.Inv ∧ s.atToken = true ∧ (Instr.matchCopy 5 0).wf s.format = true
    ∧ s.canRead (1 + s.indexSize + s.lengthSize) ∧ s.work.optr.toNat + (0 + s.minLength) ≤ s.par.outCapacity)
      (stream [0, 0x14, 0, 0] 3 .failFast 0x0003040D 1) :=
  ⟨inv_stream _ _ _ _ _ (by decide), by decide, by decide, by decide, by decide⟩
theorem witness_MatchErrors :
    (fun s : State => s.Inv ∧ s.atToken = true ∧ (Instr.matchCopy 5 0).wf s.format = true ∧ s.par.pastEnd = .failFast
      ∧ s.work.total.toNat < s.work.brPos.toNat + (1 + s.indexSize + s.lengthSize)) (stream [0, 0x14] 3 .failFast 0x0003040D 1)
    ∧ (fun s : State => s.Inv ∧ s.atToken = true ∧ (Instr.matchCopy 5 0).wf s.format = true
      ∧ s.canRead (1 + s.indexSize + s.lengthSize) ∧ s.par.outCapacity < s.work.optr.toNat + (0 + s.minLength))
      (stream [0, 0x14, 0, 0] 2 .failFast 0x0003040D 1) :=
  ⟨⟨inv_stream _ _ _ _ _ (by decide), by decide, by decide, by decide, by decide⟩,
   ⟨inv_stream _ _ _ _ _ (by decide), by decide, by decide, by decide, by decide⟩⟩
theorem witness_SelfReferentialCopy :
    (fun s : State => s.Inv ∧ s.atToken = true ∧ (Instr.matchCopy 1 0).wf s.format = true
      ∧ s.canRead (1 + s.indexSize + s.lengthSize) ∧ s.work.optr.toNat + (0 + s.minLength) ≤ s.par.outCapacity
      ∧ (s.work.wcur.toNat + 2 ^ s.indexSize - 1) % 2 ^ s.indexSize = 1 ∧ 1 < 0 + s.minLength
      ∧ isNext (exec (.matchCopy 1 0) s) = true) (stream [0, 4, 0, 0] 8 .failFast 0x0003040D 2) :=
  ⟨inv_stream _ _ _ _ _ (by decide), by decide, by decide, by decide, by decide, by decide, by decide, by decide⟩
/-- END on the last bit (7 index bits in one byte), and END with two bits left. -/
theorem witness_EndResult :
    (fun s : State => s.Inv ∧ s.atToken = true ∧ s.canRead (1 + s.indexSize)
      ∧ s.work.total.toNat ≤ s.work.brPos.toNat + (1 + s.indexSize)) (stream [0] 8 .failFast 0x00000007 1)
    ∧ (fun s : State => s.Inv ∧ s.atToken = true ∧ s.canRead (1 + s.indexSize)
      ∧ s.work.brPos.toNat + (1 + s.indexSize) < s.work.total.toNat) (stream [0, 0] 8 .failFast 0x0003040D 1) :=
  ⟨⟨inv_stream _ _ _ _ _ (by decide), by decide, by decide, by decide⟩,
   ⟨inv_stream _ _ _ _ _ (by decide), by decide, by decide, by decide⟩⟩
theorem witness_EndCutOff : (fun s : State => s.Inv ∧ s.atToken = true ∧ s.par.pastEnd = .failFast
    ∧ s.work.total.toNat < s.work.brPos.toNat + (1 + s.indexSize)) (stream [0] 8 .failFast 0x0003040D 1) :=
  ⟨inv_stream _ _ _ _ _ (by decide), by decide, by decide, by decide⟩
theorem witness_TokensOnlyInStream : (Instr.lit 0).isCommand = false ∧ (idle [1]).atToken = false := by decide
theorem witness_StepKeepsInvariant : (fun s : State => s.Inv ∧ isNext (step s) = true)
    (stream [0xA0, 0xD0, 0x80, 0] 8 .failFast 0x0003040D 1) :=
  ⟨inv_stream _ _ _ _ _ (by decide), by decide⟩
theorem witness_SafeStatesNeverFault : (stream [0xA0, 0xD0, 0x80, 0] 8 .failFast 0x0003040D 1).Inv :=
  inv_stream _ _ _ _ _ (by decide)
theorem witness_SteppingAgreesWithTransaction : State.reset.par.wf ∧ State.reset.isBusy = false ∧ State.reset.inputs = [] := by
  decide
theorem witness_MicroStepsAgreeWithinBounds : State.reset.par.wf ∧ State.reset.isBusy = false ∧ State.reset.inputs = []
    ∧ State.reset.par.pastEnd = .failFast := by decide

end Sys2Proof.Tests
end

section
/-! PROOFS. The register map as the host sees it (10_state.md R22, R34): a register access as a step, the masks of the
defined bits, and the offsets that have no register. -/

namespace Sys2Proof.Machine

/-! ### A register access as a step -/

theorem step_writeReg {s : State} {off : Nat} {v : Word} {es : List Event} (h : s.inputs = .writeReg off v :: es) :
    step s = s.unlessBusy (hostWriteReg { s with inputs := es } off v).outcome := by
  simp only [step, nextStep, h, Event.needsIdle, runEvent, if_true]

/-- While no command runs every register may be read; during one STATUS alone may (70_reset_and_hazards.md R250). -/
theorem step_readReg {s : State} {off : Nat} {es : List Event} (h : s.inputs = .readReg off :: es)
    (hb : s.isBusy = false) :
    step s = .next (State.reply { s with inputs := es } (.word (s.regs.read off))) := by
  simp only [step, nextStep, h, runEvent, unlessBusy_idle hb, ite_self]

@[simp] theorem hostWriteReg_cmd (s : State) (v : Word) : hostWriteReg s 0 v = startOnly (decodeCommand v) s := rfl

theorem hostWriteReg_of_ne_cmd (s : State) {off : Nat} (h : off ≠ 0) (v : Word) :
    hostWriteReg s off v = .go { s with regs := s.regs.write off v } := if_neg h

/-! ### Fields and masks -/

theorem fieldAt_and {n : Nat} (lo : Nat) (a b : BitVec n) : fieldAt lo (a &&& b) = fieldAt lo a &&& fieldAt lo b := by
  simp only [fieldAt, BitVec.setWidth_and, BitVec.shiftLeft_and_distrib]

/-- A mask that misses a field's place misses whatever the field holds. -/
theorem fieldAt_and_eq_zero {n lo : Nat} {m : Word} (h : fieldAt lo (BitVec.allOnes n) &&& m = 0) (v : BitVec n) :
    fieldAt lo v &&& m = 0 := by
  calc fieldAt lo v &&& m
      = fieldAt lo (v &&& BitVec.allOnes n) &&& m := by rw [BitVec.and_allOnes]
    _ = fieldAt lo v &&& (fieldAt lo (BitVec.allOnes n) &&& m) := by rw [fieldAt_and, BitVec.and_assoc]
    _ = 0 := by rw [h]; exact BitVec.and_zero

theorem word_or_and_eq_zero {a b m : Word} (ha : a &&& m = 0) (hb : b &&& m = 0) : (a ||| b) &&& m = 0 := by
  rw [BitVec.and_or_distrib_right, ha, hb, BitVec.or_self]

/-- A mask that covers a field's place leaves the field as it is. -/
theorem fieldOf_and {n lo : Nat} {m : Word} (h : fieldOf n lo m = BitVec.allOnes n) (v : Word) :
    fieldOf n lo (v &&& m) = fieldOf n lo v := by
  have hd : fieldOf n lo (v &&& m) = fieldOf n lo v &&& fieldOf n lo m := BitVec.extractLsb'_and
  rw [hd, h, BitVec.and_allOnes]

/-! ### Reserved bits -/

/-- A register of several fields is checked field by field; one that is a single whole word has no reserved bit. It holds
at an offset without a register too, which reads 0. -/
theorem Regs.read_and_reserved (r : Regs) (off : Nat) : r.read off &&& ~~~ definedBits off = 0 := by
  have whole (v : Word) : v &&& ~~~ 0xFFFFFFFF = 0 := BitVec.and_zero
  fun_cases Regs.read r off
  case case1 => exact fieldAt_and_eq_zero (by decide) r.op
  case case2 =>
    exact word_or_and_eq_zero (fieldAt_and_eq_zero (by decide) r.status.stateCode)
      (fieldAt_and_eq_zero (by decide) r.status.errCode)
  case case5 => exact fieldAt_and_eq_zero (by decide) r.key
  case case8 =>
    exact word_or_and_eq_zero (fieldAt_and_eq_zero (by decide) r.base) (fieldAt_and_eq_zero (by decide) r.add)
  case case9 =>
    exact word_or_and_eq_zero
      (word_or_and_eq_zero (fieldAt_and_eq_zero (by decide) r.indexSize) (fieldAt_and_eq_zero (by decide) r.lengthSize))
      (fieldAt_and_eq_zero (by decide) r.minLength)
  case case12 => exact BitVec.zero_and
  all_goals exact whole _

/-- The fields a write stores lie inside the register's defined bits. -/
theorem Regs.write_and_definedBits (r : Regs) (off : Nat) (v : Word) :
    r.write off (v &&& definedBits off) = r.write off v := by
  have whole : v &&& 0xFFFFFFFF = v := BitVec.and_allOnes
  fun_cases Regs.write r off v
  case case9 => simp (disch := assumption) only [Regs.write]
  all_goals simp (disch := decide) only [Regs.write, definedBits, fieldOf_and, whole]

theorem decodeCommand_and_definedBits (v : Word) : decodeCommand (v &&& definedBits 0) = decodeCommand v := by
  have hmod : (v &&& definedBits 0).toNat % 4 = v.toNat % 4 := by
    rw [BitVec.toNat_and, show (definedBits 0).toNat = 2 ^ 2 - 1 from rfl, Nat.and_two_pow_sub_one_eq_mod]
    omega
  simp only [decodeCommand, hmod]

theorem hostWriteReg_and_definedBits (s : State) (off : Nat) (v : Word) :
    hostWriteReg s off (v &&& definedBits off) = hostWriteReg s off v := by
  by_cases h : off = 0
  · subst h
    rw [hostWriteReg_cmd, hostWriteReg_cmd, decodeCommand_and_definedBits]
  · rw [hostWriteReg_of_ne_cmd s h, hostWriteReg_of_ne_cmd s h, Regs.write_and_definedBits]

/-! ### Offsets that have no register -/

theorem Regs.read_unmapped (r : Regs) {off : Nat} (h : off ∉ registerOffsets) : r.read off = 0 := by
  fun_cases Regs.read r off
  case case12 => rfl
  all_goals exact absurd (by decide) h

theorem Regs.write_unmapped (r : Regs) {off : Nat} (h : off ∉ registerOffsets) (v : Word) : r.write off v = r := by
  fun_cases Regs.write r off v
  case case9 => rfl
  all_goals exact absurd (by decide) h

/-- Settles O5: each register's fields lie inside its defined bits, a write looks at those bits only, and an offset without
a register falls to the last case of both the read and the write. -/
theorem reservedBitsAndUnmappedOffsets : Obligations.ReservedBitsAndUnmappedOffsets := by
  unfold Obligations.ReservedBitsAndUnmappedOffsets
  refine ⟨fun r off _ => r.read_and_reserved off, fun s es off v _ => ?_,
    fun s es off hoff hb => ⟨fun hin => ?_, fun v hin => ?_⟩⟩
  · rw [step_writeReg rfl, step_writeReg rfl, hostWriteReg_and_definedBits]
    rfl
  · rw [step_readReg hin hb, Regs.read_unmapped _ hoff]
    rfl
  · have hcmd : off ≠ 0 := fun h => hoff (h ▸ List.mem_cons_self)
    rw [step_writeReg hin, unlessBusy_idle hb, hostWriteReg_of_ne_cmd _ hcmd, Regs.write_unmapped _ hoff]
    rfl

end Sys2Proof.Machine
end

section
/-! PROOFS. The host's byte accesses to DATA and OUT (20_memory.md R61): each access as a step, and what a write to DATA
leaves in every byte and in the rest of the state. -/

namespace Sys2Proof.Machine

/-! ### A byte access as a step, while no command runs -/

section
variable {s : State} {es : List Event} {i : Nat} (hb : s.isBusy = false)
include hb

theorem step_writeData {v : Byte} (h : s.inputs = .writeData i v :: es) :
    step s = .next (hostWriteData { s with inputs := es } i v) := by
  simp only [step, nextStep, h, Event.needsIdle, runEvent, unlessBusy_idle hb, if_true]

theorem step_readData (h : s.inputs = .readData i :: es) :
    step s = .next (State.reply { s with inputs := es } (.byte (hostReadData s i))) := by
  simp only [step, nextStep, h, Event.needsIdle, runEvent, unlessBusy_idle hb, if_true]
  rfl

theorem step_readOut (h : s.inputs = .readOut i :: es) :
    step s = .next (State.reply { s with inputs := es } (.byte (hostReadOut s i))) := by
  simp only [step, nextStep, h, Event.needsIdle, runEvent, unlessBusy_idle hb, if_true]
  rfl

end

/-! ### What a host write to DATA does -/

theorem hostWriteData_below {s : State} {i : Nat} (h : i < s.par.inCapacity) (v : Byte) :
    hostWriteData s i v = s.writeData i v := if_pos h

theorem hostWriteData_above {s : State} {i : Nat} (h : ¬ i < s.par.inCapacity) (v : Byte) :
    hostWriteData s i v = s := if_neg h

theorem readData_hostWriteData (s : State) (i j : Nat) (v : Byte) :
    (hostWriteData s i v).readData j = if j = i ∧ i < s.par.inCapacity then v else s.readData j := by
  by_cases h : i < s.par.inCapacity
  · rw [hostWriteData_below h, readData_writeData]
    simp only [h, and_true]
  · rw [hostWriteData_above h, if_neg fun hj => h hj.2]

theorem hostWriteData_frame (s : State) (i : Nat) (v : Byte) :
    hostWriteData s i v = { s with data := (hostWriteData s i v).data } := by
  by_cases h : i < s.par.inCapacity
  · rw [hostWriteData_below h]
    rfl
  · rw [hostWriteData_above h]

/-- Settles O7: an access is one step that answers or stores through the capacity check, and a write's two sides of that
check are a write of one byte and no change at all. -/
theorem hostByteAccesses : Obligations.HostByteAccesses := by
  unfold Obligations.HostByteAccesses
  intro s es i hb
  refine ⟨fun v hin => ?_, step_readData hb, step_readOut hb⟩
  exact ⟨_, step_writeData hb hin, fun j => readData_hostWriteData { s with inputs := es } i j v,
    hostWriteData_frame { s with inputs := es } i v⟩

end Sys2Proof.Machine
end

section
/-! PROOFS. Decoding of command words (30_encoding.md R80): the decoder sees the two low bits only. -/

namespace Sys2Proof.Machine

/-- The defined bits of CMD are the two low bits. -/
theorem decodeCommand_and_three (v : Word) : decodeCommand (v &&& 3) = decodeCommand v := decodeCommand_and_definedBits v

theorem decodeCommand_of_low_bits {v c : Word} (h : v &&& 3 = c) : decodeCommand v = decodeCommand c := by
  rw [← h, decodeCommand_and_three]

/-- Settles O10: a command word decodes as its two low bits do, and the four values those can have decode by evaluation. -/
theorem commandWordDecoding : Obligations.CommandWordDecoding := by
  unfold Obligations.CommandWordDecoding
  intro v
  exact ⟨fun h => decodeCommand_of_low_bits h, fun h => decodeCommand_of_low_bits h,
    fun h => decodeCommand_of_low_bits h, fun h => decodeCommand_of_low_bits h⟩

end Sys2Proof.Machine
end

section
/-! PROOFS. DECRYPT_LEGACY (40_stream_cipher.md R110 to R117): the command as one transaction, its key sequence, and the
inverse transform. -/

namespace Sys2Proof.Machine

/-! ### The command as one transaction -/

/-- The state of the initial step when the length fits (40_stream_cipher.md R110). -/
def legacyBegun (s : State) : State :=
  { s with
    regs := { s.regs with op := 1, status := .busy, outLen := 0 }
    work := { s.work with l := s.regs.inLen, k := s.regs.key, i := s.regs.start } }

/-- The state after the loop, which runs max(0, L − START) times (40_stream_cipher.md R110). -/
def legacyLooped (s : State) : State := legacyByte^[s.regs.inLen.toNat - s.regs.start.toNat] (legacyBegun s)

/-- The state DECRYPT_LEGACY ends in when the length fits (40_stream_cipher.md R110). -/
def legacyDone (s : State) : State := (legacyLooped s).finish s.regs.inLen

/-- The state DECRYPT_LEGACY ends in when the length does not fit (60_exceptions.md R216). -/
def legacyRejected (s : State) : State :=
  { s with
    regs := { s.regs with op := 1, status := .error .outOfRange, outLen := 0 }
    work := { s.work with l := s.regs.inLen }
    out := [], draws := s.draws + 1 }

/-- The loop stays inside the counter's range, so it changes DATA, I and K alone, and DATA by the closed form of R114. -/
theorem legacyLooped_spec (s : State) :
    legacyLooped s = { legacyBegun s with
      data := (legacyLooped s).data
      work := { (legacyBegun s).work with i := (legacyLooped s).work.i, k := (legacyLooped s).work.k } }
    ∧ ∀ a, (legacyLooped s).readData a =
        if s.regs.start.toNat ≤ a ∧ a < s.regs.inLen.toNat
        then s.readData a - legacyKeyAt s.regs.key s.regs.start.toNat a else s.readData a := by
  have hlen := s.regs.inLen.isLt
  have hstart := s.regs.start.isLt
  obtain ⟨-, -, hframe, hdata⟩ := legacyByte_iterate (s.regs.inLen.toNat - s.regs.start.toNat) (legacyBegun s)
    (by show s.regs.start.toNat + _ < _; omega)
  refine ⟨hframe, fun a => (hdata a).trans (if_congr ?_ rfl rfl)⟩
  show s.regs.start.toNat ≤ a ∧ a < s.regs.start.toNat + (s.regs.inLen.toNat - s.regs.start.toNat) ↔ _
  omega

theorem legacyLooped_regs (s : State) : (legacyLooped s).regs = (legacyBegun s).regs := by
  rw [(legacyLooped_spec s).1]

theorem legacyLooped_l (s : State) : (legacyLooped s).work.l = s.regs.inLen := by
  rw [(legacyLooped_spec s).1]
  rfl

@[simp] theorem legacyDone_par (s : State) : (legacyDone s).par = s.par := by
  rw [legacyDone, finish_par, (legacyLooped_spec s).1]
  rfl

@[simp] theorem legacyDone_regs (s : State) :
    (legacyDone s).regs = { s.regs with op := 1, status := .done, outLen := s.regs.inLen } := by
  rw [legacyDone, finish_regs, legacyLooped_regs]
  rfl

theorem legacyDone_readData (s : State) (a : Nat) :
    (legacyDone s).readData a =
      if s.regs.start.toNat ≤ a ∧ a < s.regs.inLen.toNat
      then s.readData a - legacyKeyAt s.regs.key s.regs.start.toNat a else s.readData a :=
  (legacyLooped_spec s).2 a

/-- A start at or beyond the length leaves no iteration (40_stream_cipher.md R111). -/
theorem legacyDone_data_of_le {s : State} (h : s.regs.inLen.toNat ≤ s.regs.start.toNat) :
    (legacyDone s).data = s.data := by
  rw [legacyDone, finish_data, legacyLooped, Nat.sub_eq_zero_of_le h]
  rfl

theorem exec_decryptLegacy (s : State) :
    exec .decryptLegacy s = s.unlessBusy ((beginLegacy s).andThen legacyRun).outcome := rfl

theorem legacyRun_legacyBegun (s : State) : legacyRun (legacyBegun s) = .stop (legacyDone s) := by
  rw [legacyRun_eq, legacyDone, ← legacyLooped_l]
  rfl

theorem exec_decryptLegacy_ok {s : State} (hb : s.isBusy = false) (hlen : s.regs.inLen.toNat ≤ s.par.inCapacity) :
    exec .decryptLegacy s = .next (legacyDone s) := by
  rw [exec_decryptLegacy, unlessBusy_idle hb, beginLegacy_ok hlen]
  exact congrArg Flow.outcome (legacyRun_legacyBegun s)

theorem exec_decryptLegacy_long {s : State} (hb : s.isBusy = false) (hlen : s.par.inCapacity < s.regs.inLen.toNat) :
    exec .decryptLegacy s = .next (legacyRejected s) := by
  rw [exec_decryptLegacy, unlessBusy_idle hb, beginLegacy_long hlen]
  rfl

/-- Everything DECRYPT_LEGACY can do when it answers a next state. -/
theorem exec_decryptLegacy_next {s t : State} (h : exec .decryptLegacy s = .next t) :
    (s.regs.inLen.toNat ≤ s.par.inCapacity ∧ t = legacyDone s)
      ∨ (s.par.inCapacity < s.regs.inLen.toNat ∧ t = legacyRejected s) := by
  cases hb : s.isBusy with
  | true => rw [exec_decryptLegacy, unlessBusy_busy hb] at h; cases h
  | false =>
    rcases Nat.lt_or_ge s.par.inCapacity s.regs.inLen.toNat with hlen | hlen
    · rw [exec_decryptLegacy_long hb hlen] at h
      cases h
      exact .inr ⟨hlen, rfl⟩
    · rw [exec_decryptLegacy_ok hb hlen] at h
      cases h
      exact .inl ⟨hlen, rfl⟩

/-- Settles O26: the loop runs zero times, so DATA is the old list, and the run still finishes with L. -/
theorem legacyStartBeyondLength : Obligations.LegacyStartBeyondLength := by
  unfold Obligations.LegacyStartBeyondLength
  intro s hb hlen hstart
  exact ⟨legacyDone s, exec_decryptLegacy_ok hb hlen, legacyDone_data_of_le hstart, by simp, by simp⟩

/-! ### The key sequence -/

theorem legacyKeyAt_add (k : Byte) (a m : Nat) : legacyKeyAt k a (a + m) = k + BitVec.ofNat 8 (7 * m) := by
  rw [legacyKeyAt, Nat.add_sub_cancel_left]

/-- The key of the next byte, as the loop's next round has it (40_stream_cipher.md R110). -/
theorem legacyKeyAt_zero_succ (k : Byte) (m : Nat) : legacyKeyAt k 0 (m + 1) = legacyKeyAt (k + 7) 0 m := by
  simp only [legacyKeyAt, Nat.sub_zero]
  rw [show 7 * (m + 1) = 7 + 7 * m by omega, BitVec.ofNat_add, ← BitVec.add_assoc]
  rfl

/-- The keys come round after 256 bytes (40_stream_cipher.md R114). -/
theorem legacyKeyAt_add_period (k : Byte) {a i : Nat} (h : a ≤ i) :
    legacyKeyAt k a (i + 256) = legacyKeyAt k a i := by
  unfold legacyKeyAt
  congr 1
  apply BitVec.eq_of_toNat_eq
  simp only [BitVec.toNat_ofNat]
  omega

/-- A key determines its place modulo 256: 7 · 183 = 1281 is 1 modulo 256. -/
theorem legacyKeyAt_add_eq_iff (k v : Byte) (a m : Nat) :
    legacyKeyAt k a (a + m) = v ↔ m % 256 = 183 * (v - k).toNat % 256 := by
  rw [legacyKeyAt_add, BitVec.add_comm, ← BitVec.eq_sub_iff_add_eq, ← BitVec.toNat_inj, BitVec.toNat_ofNat]
  have hv := (v - k).isLt
  omega

/-- Settles O25: the outcome and the bytes are those of the closed form of the loop; 7 is invertible modulo 256, so each key
value stands at exactly one place of a period. -/
theorem legacyClosedForm : Obligations.LegacyClosedForm := by
  unfold Obligations.LegacyClosedForm
  refine ⟨fun s hb hlen => ?_, fun k a i h => legacyKeyAt_add_period k h, fun k v a => ?_⟩
  · exact ⟨legacyDone s, exec_decryptLegacy_ok hb hlen, legacyDone_regs s, legacyDone_readData s⟩
  · refine ⟨183 * (v - k).toNat % 256, Nat.mod_lt _ (by decide), ?_, fun n hn hkey => ?_⟩
    · rw [legacyKeyAt_add_eq_iff, Nat.mod_mod]
    · rwa [legacyKeyAt_add_eq_iff, Nat.mod_eq_of_lt hn] at hkey

/-! ### The inverse transform -/

theorem legacyEncryptFrom_getElem? (k : Byte) (bs : List Byte) (j : Nat) :
    (legacyEncryptFrom k bs)[j]? = bs[j]?.map (· + legacyKeyAt k 0 j) := by
  induction bs generalizing k j with
  | nil => rfl
  | cons b bs ih =>
    cases j with
    | zero => simp [legacyEncryptFrom, legacyKeyAt]
    | succ j => rw [legacyKeyAt_zero_succ]; exact ih (k + 7) j

/-- Enc leaves the bytes before the start as they are and adds its key to each of the others (40_stream_cipher.md R115). -/
theorem legacyEncrypt_getD (k : Byte) (start : Nat) {buf : List Byte} {i : Nat} (hi : i < buf.length) :
    (legacyEncrypt k start buf).getD i 0 =
      if start ≤ i then buf.getD i 0 + legacyKeyAt k start i else buf.getD i 0 := by
  rw [legacyEncrypt, List.getD_eq_getElem?_getD, List.getD_eq_getElem?_getD]
  by_cases h : start ≤ i
  · obtain ⟨j, rfl⟩ := Nat.exists_eq_add_of_le h
    have hlen : (buf.take start).length = start := by rw [List.length_take]; omega
    rw [if_pos h, List.getElem?_append_right (by omega), hlen, Nat.add_sub_cancel_left, legacyEncryptFrom_getElem?,
      List.getElem?_drop, List.getElem?_eq_getElem hi, legacyKeyAt_add, legacyKeyAt, Nat.sub_zero]
    rfl
  · have hlen : i < (buf.take start).length := by rw [List.length_take]; omega
    rw [if_neg h, List.getElem?_append_left hlen, List.getElem?_take_of_lt (by omega)]

/-- Settles O28: byte by byte, the command subtracts the key that Enc added. -/
theorem legacyRoundTrip : Obligations.LegacyRoundTrip := by
  unfold Obligations.LegacyRoundTrip
  intro s buf hb hcap hlen hdata
  refine ⟨legacyDone s, exec_decryptLegacy_ok hb hcap, fun i hi => ?_⟩
  rw [legacyDone_readData, hdata i hi, legacyEncrypt_getD _ _ hi]
  by_cases h : s.regs.start.toNat ≤ i
  · rw [if_pos ⟨h, by omega⟩, if_pos h, BitVec.add_sub_cancel]
  · rw [if_neg fun hc => h hc.1, if_neg h]

/-! ### Each byte on its own -/

/-- DATA after the command, whatever its outcome: the closed form in the range of a run that passes the length check, the old
byte elsewhere (40_stream_cipher.md R114, R116). -/
theorem exec_decryptLegacy_readData {s t : State} (h : exec .decryptLegacy s = .next t) (a : Nat) :
    t.readData a =
      if s.regs.inLen.toNat ≤ s.par.inCapacity ∧ s.regs.start.toNat ≤ a ∧ a < s.regs.inLen.toNat
      then s.readData a - legacyKeyAt s.regs.key s.regs.start.toNat a else s.readData a := by
  rcases exec_decryptLegacy_next h with ⟨hlen, rfl⟩ | ⟨hlen, rfl⟩
  · simp only [legacyDone_readData, hlen, true_and]
  · rw [if_neg fun hc => Nat.not_le_of_lt hlen hc.1]
    rfl

/-- Settles O29: the byte's closed form mentions no other byte, and a first run keeps KEY, START, IN_LEN and the capacity, so a
second run subtracts the same key. -/
theorem legacyBytesAreIndependent : Obligations.LegacyBytesAreIndependent := by
  unfold Obligations.LegacyBytesAreIndependent
  constructor
  · intro s₁ s₂ t₁ t₂ j hkey hstart hlen hcap hbyte h₁ h₂
    rw [exec_decryptLegacy_readData h₁, exec_decryptLegacy_readData h₂, hkey, hstart, hlen, hcap, hbyte]
  · intro s t u hcap ht hu i hstart hlen
    obtain ⟨-, rfl⟩ | ⟨hlong, -⟩ := exec_decryptLegacy_next ht
    · rw [exec_decryptLegacy_readData hu, legacyDone_readData, legacyDone_par, legacyDone_regs,
        if_pos ⟨hcap, hstart, hlen⟩, if_pos ⟨hstart, hlen⟩]
    · exact absurd hcap (Nat.not_le_of_lt hlong)

end Sys2Proof.Machine
end

section
/-! PROOFS. DECRYPT_BLOCK (41_block_unshuffler.md R130 to R147): the command as one transaction, where the bytes of an active
region land, what holds between two blocks, and the inverse transform. -/

namespace Sys2Proof.Machine

/-! ### The command as one transaction -/

theorem exec_decryptBlock (s : State) :
    exec .decryptBlock s = s.unlessBusy ((beginBlock s).andThen blockRun).outcome := rfl

/-- Settles O32: whether or not the length fits, the initial step stops with OUT_OF_RANGE, and DATA and SNAP are the old
lists. -/
theorem blockSizeZeroFails : Obligations.BlockSizeZeroFails := by
  unfold Obligations.BlockSizeZeroFails
  intro s hb hsize
  rcases Nat.lt_or_ge s.par.inCapacity s.regs.inLen.toNat with hlen | hlen
  · rw [exec_decryptBlock, unlessBusy_idle hb, beginBlock_long hlen]
    exact ⟨_, rfl, rfl, rfl, rfl, rfl⟩
  · rw [exec_decryptBlock, unlessBusy_idle hb, beginBlock_zero hlen hsize]
    exact ⟨_, rfl, rfl, rfl, rfl, rfl⟩

/-! ### Where the bytes of an active region land (41_block_unshuffler.md R141) -/

/-- Each place of a block is the landing place of one of its bytes: the places at an even distance from the block's end are the
first pass's, those at an odd distance the second's. -/
theorem exists_blockPos_eq {p0 b i : Nat} (hlow : p0 ≤ i) (hhigh : i < p0 + b) : ∃ j, j < b ∧ blockPos p0 b j = i := by
  obtain ⟨d, hd⟩ := Nat.exists_eq_add_of_lt hhigh
  rcases Nat.mod_two_eq_zero_or_one d with heven | hodd
  · exact ⟨d / 2, by omega, by rw [blockPos, if_pos (by omega)]; omega⟩
  · exact ⟨(b + 1) / 2 + d / 2, by omega, by rw [blockPos, if_neg (by omega)]; omega⟩

/-- Byte `j` of block `k` lands where the block puts its byte `j`. -/
theorem blockTarget_mul_add {bs act k j : Nat} (hj : j < min bs (act - k * bs)) :
    blockTarget bs act (k * bs + j) = blockPos (k * bs) (min bs (act - k * bs)) j := by
  have hjbs : j < bs := by omega
  have hdiv : (k * bs + j) / bs = k := by
    rw [Nat.mul_comm, Nat.mul_add_div (by omega), Nat.div_eq_of_lt hjbs, Nat.add_zero]
  have hmod : (k * bs + j) % bs = j := by
    rw [Nat.mul_comm, Nat.mul_add_mod, Nat.mod_eq_of_lt hjbs]
  rw [blockTarget, hdiv, hmod]

/-- A byte of an earlier block lands before the block that begins at `k * bs`. -/
theorem blockTarget_lt_mul {bs act g k : Nat} (hact : g < act) (hg : g < k * bs) : blockTarget bs act g < k * bs := by
  have hbs : 0 < bs := Nat.pos_of_ne_zero fun h => by simp [h] at hg
  calc blockTarget bs act g
      < g / bs * bs + min bs (act - g / bs * bs) := (blockTarget_bounds hbs hact).2
    _ ≤ g / bs * bs + bs := Nat.add_le_add_left (Nat.min_le_left _ _) _
    _ = (g / bs + 1) * bs := (Nat.succ_mul _ _).symm
    _ ≤ k * bs := Nat.mul_le_mul_right _ ((Nat.div_lt_iff_lt_mul hbs).mpr hg)

/-- Every place of the active region is the landing place of an active byte. -/
theorem exists_blockTarget_eq {bs act i : Nat} (hbs : 0 < bs) (hi : i < act) :
    ∃ g, g < act ∧ blockTarget bs act g = i := by
  have hmod := Nat.mod_lt i hbs
  have hdiv : i / bs * bs + i % bs = i := Nat.div_add_mod' i bs
  obtain ⟨j, hj, hpos⟩ := exists_blockPos_eq (p0 := i / bs * bs) (b := min bs (act - i / bs * bs)) (i := i)
    (by omega) (by omega)
  exact ⟨i / bs * bs + j, by omega, (blockTarget_mul_add hj).trans hpos⟩

/-! ### The keys (41_block_unshuffler.md R140) -/

theorem blockKeyAt_zero (base add : Byte) : blockKeyAt base add 0 = base := by simp [blockKeyAt]

theorem blockKeyAt_add (base add : Byte) (m n : Nat) :
    blockKeyAt base add (m + n) = blockKeyAt base add m + BitVec.ofNat 8 n * add := by
  rw [blockKeyAt, blockKeyAt, BitVec.ofNat_add, BitVec.add_mul, BitVec.add_assoc]

/-! ### Between two blocks -/

/-- What holds between two blocks of a run that started from `s`: the blocks before P are done as the closed form says, DATA
from P on is untouched, and KB is the key of byte P. -/
structure BlocksDone (s t : State) : Prop where
  frame : t = { blockBegun s with data := t.data, work := t.work }
  length : t.work.l = s.regs.inLen
  cursor : t.work.p.toNat + t.work.left.toNat = s.activeLen
  aligned : t.work.left.toNat ≠ 0 → ∃ k, t.work.p.toNat = k * s.blockSize
  key : t.work.kb = blockKeyAt s.regs.base s.regs.add t.work.p.toNat
  landed : ∀ g, g < t.work.p.toNat → t.readData (blockTarget s.blockSize s.activeLen g) =
    s.readData g ^^^ blockKeyAt s.regs.base s.regs.add g
  untouched : ∀ i, t.work.p.toNat ≤ i → t.readData i = s.readData i

theorem State.activeLen_le (s : State) : s.activeLen ≤ s.regs.inLen.toNat := activeLength_le _ _ _

/-- The initial step leaves every block to be done. -/
theorem blocksDone_blockBegun (s : State) : BlocksDone s (blockBegun s) where
  frame := rfl
  length := rfl
  cursor := by
    have hlen := s.regs.inLen.isLt
    have hact := s.activeLen_le
    exact (Nat.zero_add _).trans (ofNat_toNat_lt (by omega))
  aligned _ := ⟨0, (Nat.zero_mul _).symm⟩
  key := (blockKeyAt_zero _ _).symm
  landed g hg := absurd hg (Nat.not_lt_zero g)
  untouched _ _ := rfl

section
variable {s t : State} (h : BlocksDone s t)
include h

theorem BlocksDone.regs : t.regs = (blockBegun s).regs := by rw [h.frame]

theorem BlocksDone.readSnap {i : Nat} (hi : i < s.regs.inLen.toNat) : t.readSnap i = s.readData i := by
  have hsnap : t.snap = (blockBegun s).snap := by rw [h.frame]
  rw [readSnap_congr hsnap, readSnap_blockBegun, if_pos hi]

/-- The next block ends at the active region's end or is a whole one. -/
theorem BlocksDone.nextSize : nextSize t = min s.blockSize (s.activeLen - t.work.p.toNat) := by
  have hleft : t.work.left.toNat = s.activeLen - t.work.p.toNat := by have := h.cursor; omega
  rw [Machine.nextSize, State.blockSize, h.regs, hleft]
  rfl

theorem BlocksDone.blockReady (hbs : s.blockSize ≠ 0) (hleft : t.work.left.toNat ≠ 0) : BlockReady t := by
  have hcur := h.cursor
  have hact := s.activeLen_le
  have hsize := h.nextSize
  exact ⟨by omega, by rw [h.length]; omega⟩

/-- One more block is done: its own bytes land inside it, the earlier ones lie before it. -/
theorem BlocksDone.runBlock (hbs : s.blockSize ≠ 0) (hleft : t.work.left.toNat ≠ 0) :
    ∃ u, runBlock t = .go u ∧ BlocksDone s u ∧ u.work.left.toNat < t.work.left.toNat := by
  obtain ⟨u, hrun, hp, hl, -, hkb, hlen, hframe, -, hland, hkeep⟩ := runBlock_spec t (h.blockReady hbs hleft)
  obtain ⟨k, hk⟩ := h.aligned hleft
  have hcur := h.cursor
  have hact := s.activeLen_le
  have hadd : t.regs.add = s.regs.add := by rw [h.regs]; rfl
  have hsize := h.nextSize
  generalize Machine.nextSize t = b at hp hl hkb hland hkeep hsize
  refine ⟨u, hrun, ⟨?_, hlen.trans h.length, by omega, fun _ => ⟨k + 1, ?_⟩, ?_, fun g hg => ?_, fun i hi => ?_⟩,
    by omega⟩
  · rw [hframe, h.frame]
  · rw [Nat.succ_mul]; omega
  · rw [hkb, h.key, hadd, hp, blockKeyAt_add]
  · rcases Nat.lt_or_ge g t.work.p.toNat with hold | hnew
    · have hbefore := blockTarget_lt_mul (act := s.activeLen) (by omega) (hk ▸ hold)
      rw [hkeep _ (.inl (hk ▸ hbefore)), h.landed g hold]
    · obtain ⟨j, rfl⟩ := Nat.exists_eq_add_of_le hnew
      have htarget : blockTarget s.blockSize s.activeLen (t.work.p.toNat + j) = blockPos t.work.p.toNat b j := by
        rw [hsize, hk]
        exact blockTarget_mul_add (by omega)
      rw [htarget, hland j (by omega), h.readSnap (by omega), h.key, hadd, blockKeyAt_add]
  · rw [hkeep i (by omega), h.untouched i (by omega)]

end

/-- Enough rounds of the loop do every block that is left. -/
theorem blockLoop_blocksDone {s : State} (hbs : s.blockSize ≠ 0) (n : Nat) {t : State} (h : BlocksDone s t)
    (hn : t.work.left.toNat ≤ n) : ∃ u, blockLoop n t = .go u ∧ BlocksDone s u ∧ u.work.left.toNat = 0 := by
  induction n generalizing t with
  | zero => exact ⟨t, rfl, h, by omega⟩
  | succ n ih =>
    rw [blockLoop]
    by_cases hleft : t.work.left.toNat = 0
    · exact ⟨t, if_pos hleft, h, hleft⟩
    · obtain ⟨u, hrun, hdone, hless⟩ := h.runBlock hbs hleft
      rw [if_neg hleft, hrun, Flow.go_andThen]
      exact ih hdone (by omega)

/-- DECRYPT_BLOCK with a length that fits and a block size ends with every block done. -/
theorem exec_decryptBlock_ok {s : State} (hb : s.isBusy = false) (hlen : s.regs.inLen.toNat ≤ s.par.inCapacity)
    (hbs : s.blockSize ≠ 0) :
    ∃ u, exec .decryptBlock s = .next (u.finish s.regs.inLen) ∧ BlocksDone s u ∧ u.work.p.toNat = s.activeLen := by
  obtain ⟨u, hloop, hdone, hleft⟩ := blockLoop_blocksDone hbs _ (blocksDone_blockBegun s) (Nat.le_refl _)
  refine ⟨u, ?_, hdone, by have := hdone.cursor; omega⟩
  rw [exec_decryptBlock, unlessBusy_idle hb, beginBlock_ok hlen hbs, Flow.go_andThen, blockRun, hloop, Flow.go_andThen,
    hdone.length, Flow.outcome_stop]

/-- Settles O30: once every block is done P is the active length, so the closed form covers each active byte and nothing
beyond. -/
theorem blockClosedForm : Obligations.BlockClosedForm := by
  unfold Obligations.BlockClosedForm
  intro s hb hlen hbs
  obtain ⟨u, hexec, hdone, hp⟩ := exec_decryptBlock_ok hb hlen hbs
  refine ⟨_, hexec, ?_, fun g hg => hdone.landed g (by omega),
    fun i hi => exists_blockTarget_eq (Nat.pos_of_ne_zero hbs) hi, fun i hi => hdone.untouched i (by omega)⟩
  rw [finish_regs, hdone.regs]
  rfl

/-! ### The inverse transform -/

/-- Settles O34: each active place is where some byte lands, and that byte's key is XORed twice. -/
theorem blockRoundTrip : Obligations.BlockRoundTrip := by
  unfold Obligations.BlockRoundTrip
  intro s plain hb hlen hbs hactive htail
  obtain ⟨t, hexec, -, hland, hsurj, hkeep⟩ := blockClosedForm s hb hlen hbs
  refine ⟨t, hexec, fun i hi => ?_⟩
  rcases Nat.lt_or_ge i s.activeLen with hact | hact
  · obtain ⟨g, hg, rfl⟩ := hsurj i hact
    rw [hland g hg, hactive g hg, BitVec.xor_assoc, BitVec.xor_self, BitVec.xor_zero]
  · rw [hkeep i hact, htail i hact hi]

end Sys2Proof.Machine
end

section
/-! PROOFS. DECOMPRESS as one transaction (42_lzss_decoder.md R160 to R162): its initial step, and that OUT_OF_RANGE comes from
the checks alone. -/

namespace Sys2Proof.Machine

/-! ### The initial step -/

theorem exec_decompress (s : State) :
    exec .decompress s = s.unlessBusy ((beginDecompress s).andThen streamRun).outcome := rfl

/-- The state the parameter checks look at: the CMD write is done and the length has fitted (42_lzss_decoder.md R160). -/
def decompressChecked (s : State) : State :=
  { s.startCommand 3 with work := { s.work with l := s.regs.inLen } }

/-- The state of the initial step when the checks pass (42_lzss_decoder.md R162). -/
def decompressBegun (s : State) : State := initStream (decompressChecked s)

section
variable {s : State} (hb : s.isBusy = false) (hlen : s.regs.inLen.toNat ≤ s.par.inCapacity)

include hlen in
theorem beginDecompress_fits :
    beginDecompress s = if badParams s then .stop ((decompressChecked s).raise .outOfRange false)
      else .go (decompressBegun s) := by
  rw [beginDecompress, checkLength_ok (s := s.startCommand 3) hlen]
  rfl

include hb hlen

theorem exec_decompress_ok (hbad : badParams s = false) :
    exec .decompress s = (streamRun (decompressBegun s)).outcome := by
  rw [exec_decompress, unlessBusy_idle hb, beginDecompress_fits hlen, hbad]
  rfl

theorem exec_decompress_bad (hbad : badParams s = true) :
    exec .decompress s = .next ((decompressChecked s).raise .outOfRange false) := by
  rw [exec_decompress, unlessBusy_idle hb, beginDecompress_fits hlen, hbad]
  rfl

end

/-! ### No OUT_OF_RANGE after the checks -/

/-- STATUS does not tell of an OUT_OF_RANGE. -/
def State.NotOutOfRange (s : State) : Prop := s.regs.status ≠ .error .outOfRange

/-- The machine arrives in a state, whose STATUS does not tell of an OUT_OF_RANGE. -/
def Flow.NotOutOfRange (x : Flow) : Prop := ∃ t, x.outcome = .next t ∧ t.NotOutOfRange

theorem notOutOfRange_go {s : State} (h : s.NotOutOfRange) : (Flow.go s).NotOutOfRange := ⟨s, rfl, h⟩

theorem notOutOfRange_raise (s : State) {e : ErrKind} (he : e ≠ .outOfRange) (b : Bool) :
    (Flow.stop (s.raise e b)).NotOutOfRange :=
  ⟨_, rfl, by rw [State.NotOutOfRange, raise_status]; simpa using he⟩

theorem Flow.NotOutOfRange.andThen {x : Flow} {f : State → Flow} (hx : x.NotOutOfRange)
    (hf : ∀ t, t.NotOutOfRange → (f t).NotOutOfRange) : (x.andThen f).NotOutOfRange := by
  cases x with
  | go t =>
    obtain ⟨_, ⟨⟩, ht⟩ := hx
    exact hf t ht
  | stop t => exact hx
  | fault r => exact hx

theorem notOutOfRange_repeatFlow {f : State → Flow} (hf : ∀ t, t.NotOutOfRange → (f t).NotOutOfRange) (n : Nat)
    {s : State} (hs : s.NotOutOfRange) : (repeatFlow n f s).NotOutOfRange := by
  induction n generalizing s with
  | zero => exact notOutOfRange_go hs
  | succ n ih => exact (hf s hs).andThen fun _ => ih

theorem notOutOfRange_withBits {s : State} (hs : s.NotOutOfRange) (n : Nat) {k : Nat → State → Flow}
    (hk : ∀ v t, t.NotOutOfRange → (k v t).NotOutOfRange) : (s.withBits n k).NotOutOfRange := by
  rcases withBits_cases s n k with ⟨-, -, e⟩ | ⟨-, -, e⟩ | ⟨-, e⟩ <;> rw [e]
  · exact notOutOfRange_raise s (by decide) true
  · exact hk _ _ hs
  · exact hk _ _ hs

theorem notOutOfRange_emit {s : State} (hs : s.NotOutOfRange) (v : Byte) {k : State → Flow}
    (hk : ∀ t, t.NotOutOfRange → (k t).NotOutOfRange) : (s.emit v k).NotOutOfRange := by
  by_cases h : s.work.optr.toNat = s.par.outCapacity
  · rw [emit_full h]
    exact notOutOfRange_raise s (by decide) true
  · rw [emit_room h]
    exact hk _ (by rw [State.NotOutOfRange, emitted_regs]; exact hs)

section
variable {s : State} (hs : s.NotOutOfRange)
include hs

theorem notOutOfRange_readControl : (readControl s).NotOutOfRange := by
  refine notOutOfRange_withBits hs 1 fun c t ht => ?_
  split
  · exact notOutOfRange_go ht
  · refine notOutOfRange_withBits ht _ fun off u hu => ?_
    split <;> exact notOutOfRange_go hu

theorem notOutOfRange_emitLiteral : (emitLiteral s).NotOutOfRange :=
  notOutOfRange_withBits hs 8 fun _ _ ht => notOutOfRange_emit ht _ fun _ hu => notOutOfRange_go hu

theorem notOutOfRange_copyStep : (copyStep s).NotOutOfRange :=
  notOutOfRange_emit hs _ fun _ ht => notOutOfRange_go (s := afterCopy _) ht

theorem notOutOfRange_copyMatch (n : Nat) : (copyMatch n s).NotOutOfRange :=
  notOutOfRange_repeatFlow (fun _ => notOutOfRange_copyStep) _ (s := startCopy n s) hs

omit hs in
theorem notOutOfRange_terminated (s : State) : (terminated s).NotOutOfRange := by
  unfold terminated
  dsimp only
  split
  · exact ⟨_, rfl, by simp [State.NotOutOfRange]⟩
  · exact notOutOfRange_raise _ (by decide) true

theorem notOutOfRange_decodeOne : (decodeOne s).NotOutOfRange := by
  refine (notOutOfRange_readControl hs).andThen fun t ht => ?_
  cases t.work.fsm with
  | readControl => exact notOutOfRange_go ht
  | emitLiteral => exact notOutOfRange_emitLiteral ht
  | emitMatch => exact notOutOfRange_withBits ht _ fun n _ hu => notOutOfRange_copyMatch hu _
  | terminated => exact notOutOfRange_terminated t
  | invalid => exact notOutOfRange_go ht

theorem notOutOfRange_streamRun : (streamRun s).NotOutOfRange :=
  notOutOfRange_repeatFlow (fun _ => notOutOfRange_decodeOne) _ hs

end

/-- Settles O36: the initial step raises before Init has run, and nothing after Init raises an OUT_OF_RANGE. -/
theorem decompressParameterChecks : Obligations.DecompressParameterChecks := by
  unfold Obligations.DecompressParameterChecks
  refine fun s hb hlen => ⟨fun hrange => ?_, fun hi hl hw => ?_⟩
  · have hbad : badParams s = true := by
      refine Bool.eq_true_of_not_eq_false fun h => ?_
      have hok := (badParams_eq_false s).mp h
      omega
    refine ⟨_, exec_decompress_bad hb hlen hbad, ?_⟩
    rw [raise_stream _ _ _ rfl]
    exact ⟨rfl, rfl, rfl, rfl, rfl⟩
  · rw [exec_decompress_ok hb hlen ((badParams_eq_false s).mpr ⟨hi, hl, hw⟩)]
    exact notOutOfRange_streamRun (s := decompressBegun s) (by simp [State.NotOutOfRange, decompressBegun, decompressChecked])

end Sys2Proof.Machine
end

section
/-! PROOFS. MATCH at a token boundary (42_lzss_decoder.md R174, R176): its fields read, and a copy that reaches its own output. -/

namespace Sys2Proof.Machine

/-! ### The fields read -/

/-- The state in which a match at `s` begins to copy: its fields are behind the cursor and MOFF is its offset
(42_lzss_decoder.md R164, R166). -/
def matchEntered (s : State) (off : Nat) : State :=
  (s.toMatch off).seek (min (s.work.brPos.toNat + (1 + s.indexSize + s.lengthSize)) s.work.total.toNat)

theorem onlyAtToken_of_atToken {s : State} (h : s.atToken = true) (f : Flow) : s.onlyAtToken f = f.outcome := by
  rw [State.onlyAtToken, if_pos h]

theorem State.Inv.streamInv {s : State} (h : s.Inv) (ht : s.atToken = true) : s.StreamInv := by
  simp only [State.atToken, Bool.and_eq_true, decide_eq_true_eq] at ht
  exact h.stream ht.1.1 ht.1.2

/-- A read from a cursor that stands where an earlier read of `a` bits left it. -/
theorem skipBits_of_seek {s : State} {p a b : Nat}
    (hread : p + (a + b) ≤ s.work.total.toNat ∨ s.par.pastEnd = .zeroFillSaturating) (k : State → Flow) :
    (s.seek (min (p + a) s.work.total.toNat)).skipBits b k = k (s.seek (min (p + (a + b)) s.work.total.toNat)) := by
  have htotal := s.work.total.isLt
  have hcur : (s.seek (min (p + a) s.work.total.toNat)).work.brPos.toNat = min (p + a) s.work.total.toNat :=
    seek_brPos (by omega)
  have hread' : (s.seek (min (p + a) s.work.total.toNat)).canRead b :=
    hread.imp_left fun h => by rw [hcur]; exact (by omega : min (p + a) s.work.total.toNat + b ≤ s.work.total.toNat)
  rw [skipBits_seek hread' (by rw [hcur]; exact Nat.min_le_right _ _), hcur]
  exact congrArg (fun q => k (s.seek q))
    (by omega : min (min (p + a) s.work.total.toNat + b) s.work.total.toNat = min (p + (a + b)) s.work.total.toNat)

/-- Where its bits can be read, a match reads its three fields and copies (42_lzss_decoder.md R174). -/
theorem exec_matchCopy {s : State} (hS : s.StreamInv) (ht : s.atToken = true) {off len : Nat}
    (hread : s.canRead (1 + s.indexSize + s.lengthSize)) :
    exec (.matchCopy off len) s = (copyMatch (len + s.minLength) (matchEntered s off)).outcome := by
  refine (onlyAtToken_of_atToken ht _).trans (congrArg Flow.outcome ?_)
  rw [skipBits_seek (canRead_mono hread (by omega)) hS.cursor]
  refine (skipBits_of_seek (canRead_mono hread (Nat.le_add_right _ _)) _).trans ?_
  exact skipBits_of_seek (s := s.toMatch off) hread _

theorem matchEntered_streamInv {s : State} (hS : s.StreamInv) {off : Nat} (hoff : off < 2 ^ s.indexSize) :
    (matchEntered s off).StreamInv := by
  have htotal := s.work.total.isLt
  have hw13 := hS.w13
  refine hS.cursorFsm _ (BitVec.ofNat 13 off) s.work.mcnt .emitMatch false rfl ?_ (by decide) (fun _ => ?_) (by simp)
  · rw [BitVec.toNat_ofNat]
    omega
  · rwa [BitVec.toNat_ofNat, Nat.mod_eq_of_lt (by omega)]

/-! ### What a copy emits -/

/-- A copy of `n` bytes with room from `d` bytes behind the write cursor: each byte is the window's old one until the copy
reaches its own output (42_lzss_decoder.md R169, R170). -/
theorem copyMatch_readOut {s t : State} (hS : s.StreamInv) (hp : s.par.wf) (hf : s.work.fsm = .emitMatch) {n off d k : Nat}
    (hoff : s.work.moff.toNat = off) (hd : matchDistance (2 ^ s.indexSize) s.work.wcur.toNat off = d)
    (hroom : s.work.optr.toNat + n ≤ s.par.outCapacity) (h : (copyMatch n s).outcome = .next t) (hk : k < n) :
    t.readOut (s.work.optr.toNat + k) =
      if k < d then s.readWin ((off + k) % 2 ^ s.indexSize) else t.readOut (s.work.optr.toNat + (k - d)) := by
  subst hoff hd
  have hcap := hp.2.2
  have hmcnt : (startCopy n s).work.mcnt.toNat = n := ofNat_toNat_lt (by omega)
  rcases copyMatch_cases hS hp hf (n := n) (by omega) with ⟨-, hrun, -⟩ | ⟨hfull, -⟩
  · rw [hrun, Flow.outcome_go] at h
    cases h
    obtain ⟨-, -, -, -, -, -, -, hout, -⟩ := copied_iterate (Nat.two_pow_pos _) hS.w13 n (startCopy n s) hS.windowSize
      hmcnt.ge (Nat.lt_of_le_of_lt hcap (by decide)) hroom hS.wcur_lt (hS.matchOffset hf)
    refine (hout k hk).trans (ite_congr rfl (fun _ => rfl) fun hkd => ?_)
    exact congrArg _ (Nat.add_sub_assoc (Nat.le_of_not_lt hkd) _)
  · omega

/-- A sequence that begins with `f 0, …, f (d - 1)` and then repeats what stood `d` places before is periodic. -/
theorem eq_mod_of_repeats {α : Type} {a f : Nat → α} {d n : Nat} (hd : 0 < d)
    (h : ∀ k, k < n → a k = if k < d then f k else a (k - d)) (k : Nat) (hk : k < n) : a k = f (k % d) := by
  induction k using Nat.strong_induction_on with
  | _ k ih =>
    rw [h k hk]
    by_cases hkd : k < d
    · rw [if_pos hkd, Nat.mod_eq_of_lt hkd]
    · rw [if_neg hkd, ih (k - d) (by omega) (by omega), ← Nat.mod_eq_sub_mod (by omega)]

/-- Settles O50: the copy's bytes are the window's old ones for the first `d` of them and repeat those `d` from there on. -/
theorem selfReferentialCopy : Obligations.SelfReferentialCopy := by
  unfold Obligations.SelfReferentialCopy
  intro s t off len d hinv ht hwf hread hroom hdist hd hdn hexec k hk
  simp only [Instr.wf, Bool.and_eq_true, decide_eq_true_eq] at hwf
  obtain ⟨⟨-, hoff : off < 2 ^ s.indexSize⟩, -⟩ := hwf
  have hS := hinv.streamInv ht
  have hw13 := hS.w13
  have hmoff : (matchEntered s off).work.moff.toNat = off := by
    show (BitVec.ofNat 13 off).toNat = off
    rw [BitVec.toNat_ofNat, Nat.mod_eq_of_lt (by omega)]
  have hdistance : matchDistance (2 ^ s.indexSize) s.work.wcur.toNat off = d := by
    rw [matchDistance, hdist, if_neg (by omega)]
  rw [exec_matchCopy hS ht hread] at hexec
  exact eq_mod_of_repeats (a := fun k => t.readOut (s.work.optr.toNat + k))
    (f := fun k => s.readWin ((off + k) % 2 ^ s.indexSize)) hd
    (fun _ => copyMatch_readOut (matchEntered_streamInv hS hoff) hinv.par rfl hmoff hdistance hroom hexec) k hk

end Sys2Proof.Machine
end

section
/-! PROOFS. DECOMPRESS over a stream of well-formed tokens closed by END (42_lzss_decoder.md R160, R171 to R177, R181): what stands
where in the stream, the state between two tokens, and a turn of the token loop for each token. -/

namespace Sys2Proof.Machine

/-! ### Bits in their places in the stream -/

/-- DATA[0..IN_LEN) has the bits `l` from stream bit `p` on. -/
def State.InputAt (s : State) (p : Nat) (l : List Bool) : Prop :=
  p + l.length ≤ 8 * s.regs.inLen.toNat ∧ s.streamBits p l.length = l

theorem inputAt_append {s : State} {p : Nat} {a b : List Bool} :
    s.InputAt p (a ++ b) ↔ s.InputAt p a ∧ s.InputAt (p + a.length) b := by
  unfold State.InputAt
  rw [List.length_append, streamBits_add]
  constructor
  · rintro ⟨hlen, hbits⟩
    obtain ⟨ha, hb⟩ := List.append_inj hbits (streamBits_length _ _ _)
    exact ⟨⟨by omega, ha⟩, by omega, hb⟩
  · rintro ⟨⟨-, ha⟩, hlen, hb⟩
    exact ⟨by omega, by rw [ha, hb]⟩

theorem inputAt_of_streamBits {s : State} {l : List Bool} (h : s.streamBits 0 (8 * s.regs.inLen.toNat) = l) :
    s.InputAt 0 l := by
  have hlen : l.length = 8 * s.regs.inLen.toNat := by rw [← h, streamBits_length]
  exact ⟨by omega, by rw [hlen, h]⟩

/-! ### The state between two tokens -/

/-- `u` is a state of the DECOMPRESS started in `s` that has consumed the first `p` bits and emitted the bytes `o`. -/
structure DecodedTo (s u : State) (p : Nat) (o : List Byte) : Prop where
  stream : u.StreamInv
  par : u.par = s.par
  regs : u.regs = (s.startCommand 3).regs
  data : u.data = s.data
  length : u.work.l = s.regs.inLen
  cursor : u.work.brPos.toNat = p
  output : u.Matches o

/-- The same, where the next token is about to be read. -/
structure BetweenTokens (s u : State) (p : Nat) (o : List Byte) : Prop extends DecodedTo s u p o where
  ready : u.work.fsm = .readControl

/-- Init leaves the whole stream to be decoded (42_lzss_decoder.md R162). -/
theorem betweenTokens_decompressBegun {s : State} (hp : s.par.wf) (hlen : s.regs.inLen.toNat ≤ s.par.inCapacity)
    (hbad : badParams s = false) : BetweenTokens s (decompressBegun s) 0 [] where
  stream := initStream_streamInv (s := decompressChecked s) hp hlen hbad
  par := rfl
  regs := rfl
  data := rfl
  length := rfl
  cursor := rfl
  output := ⟨rfl, fun i hi => absurd hi (Nat.not_lt_zero i)⟩
  ready := rfl

namespace DecodedTo

variable {s u : State} {p : Nat} {o : List Byte} (h : DecodedTo s u p o)
include h

theorem indexSize : u.indexSize = s.indexSize := by rw [State.indexSize, h.regs]; rfl
theorem lengthSize : u.lengthSize = s.lengthSize := by rw [State.lengthSize, h.regs]; rfl
theorem minLength : u.minLength = s.minLength := by rw [State.minLength, h.regs]; rfl
theorem initWidx : u.initWidx = s.initWidx := by rw [State.initWidx, h.regs]; rfl

theorem total : u.work.total.toNat = 8 * s.regs.inLen.toNat := by rw [h.stream.total, h.length]

/-- Moving the cursor, the match registers and the decoder's state leaves the output and the rest. -/
theorem moved {t : State} (q : Word) (m : BitVec 13) (c : Word) (f : Fsm) (cp : Bool)
    (ht : t = { u with work := { u.work with brPos := q, moff := m, mcnt := c, fsm := f, copying := cp } })
    (hq : q.toNat ≤ u.work.total.toNat) (hf : f ≠ .invalid) (hm : f = .emitMatch → m.toNat < 2 ^ u.indexSize)
    (hc : cp = true → f = .emitMatch ∧ c ≠ 0) : DecodedTo s t q.toNat o where
  stream := h.stream.cursorFsm q m c f cp ht hq hf hm hc
  par := by rw [ht]; exact h.par
  regs := by rw [ht]; exact h.regs
  data := by rw [ht]; exact h.data
  length := by rw [ht]; exact h.length
  cursor := by rw [ht]
  output := by rw [ht]; exact h.output

theorem advance {n : Nat} (hn : p + n ≤ 8 * s.regs.inLen.toNat) : DecodedTo s (u.advance n) (p + n) o := by
  have hle : u.work.brPos.toNat + n ≤ u.work.total.toNat := by rw [h.cursor, h.total]; exact hn
  have hcur := advance_cursor_le hle
  have hmoved := h.moved (t := u.advance n) (u.advance n).work.brPos u.work.moff u.work.mcnt u.work.fsm u.work.copying rfl
    (by omega) h.stream.notInvalid h.stream.matchOffset h.stream.copyLoop
  rwa [hcur, h.cursor] at hmoved

theorem toFsm {f : Fsm} (hu : u.work.fsm ≠ .emitMatch) (hf : f ≠ .invalid) (hm : f ≠ .emitMatch) :
    DecodedTo s (u.toFsm f) p o := by
  have hmoved := h.moved (t := u.toFsm f) u.work.brPos u.work.moff u.work.mcnt f u.work.copying rfl h.stream.cursor hf
    (fun e => absurd e hm) fun e => absurd (h.stream.copyLoop e).1 hu
  rwa [h.cursor] at hmoved

theorem toMatch {off : Nat} (hoff : off < 2 ^ s.indexSize) :
    DecodedTo s (u.toMatch off) p o ∧ (u.toMatch off).work.moff.toNat = off := by
  have hw13 := h.stream.w13
  have hmoff : (BitVec.ofNat 13 off).toNat = off := by
    rw [h.indexSize] at hw13
    rw [BitVec.toNat_ofNat, Nat.mod_eq_of_lt (by omega)]
  have hmoved := h.moved (t := u.toMatch off) u.work.brPos (BitVec.ofNat 13 off) u.work.mcnt .emitMatch false rfl
    h.stream.cursor (by decide) (fun _ => by rwa [hmoff, h.indexSize]) (by simp)
  rw [h.cursor] at hmoved
  exact ⟨hmoved, hmoff⟩

theorem startCopy {n : Nat} (hn : n < 2 ^ 32) (hu : u.work.fsm = .emitMatch) : DecodedTo s (startCopy n u) p o := by
  have hmoved := h.moved (t := Machine.startCopy n u) u.work.brPos u.work.moff (BitVec.ofNat 32 n)
    (if n = 0 then .readControl else .emitMatch) (decide (n ≠ 0)) rfl h.stream.cursor (by split <;> decide)
    (fun _ => h.stream.matchOffset hu) fun hn0 => ?_
  · rwa [h.cursor] at hmoved
  · have hne : n ≠ 0 := of_decide_eq_true hn0
    refine ⟨if_neg hne, fun hz => hne ?_⟩
    rw [← ofNat_toNat_lt hn, hz]
    rfl

/-- Reading a field that stands at the cursor gives its value (30_encoding.md R96, R97). -/
theorem withBits {n v : Nat} (hv : v < 2 ^ n) (hin : s.InputAt p (bitsOf n v)) (k : Nat → State → Flow) :
    u.withBits n k = k v (u.advance n) := by
  obtain ⟨hlen, hbits⟩ := hin
  rw [bitsOf_length] at hlen hbits
  rw [withBits_ok (by rw [h.cursor, h.total]; exact hlen), h.cursor, streamBits_congr h.data, hbits, natOfBits_bitsOf,
    Nat.mod_eq_of_lt hv]

/-- The cursor behind a field that stands at it. -/
theorem advance_field {n v : Nat} (hin : s.InputAt p (bitsOf n v)) : DecodedTo s (u.advance n) (p + n) o :=
  h.advance (by rw [← bitsOf_length n v]; exact hin.1)

/-- A byte emitted with room is one byte more of output (42_lzss_decoder.md R168). -/
theorem emitted (hp : s.par.wf) (hroom : o.length < s.par.outCapacity) (v : Byte) :
    u.work.optr.toNat ≠ u.par.outCapacity ∧ DecodedTo s (u.emitted v) p (o ++ [v]) := by
  have hcap := hp.2.2
  obtain ⟨hoptr, hbytes⟩ := h.output
  have hne : u.work.optr.toNat ≠ u.par.outCapacity := by rw [h.par]; omega
  refine ⟨hne, h.stream.emit (by rw [h.par]; exact hp) hne v, ?_, ?_, ?_, h.length, h.cursor, ?_, fun i hi => ?_⟩
  · rw [emitted_par, h.par]
  · rw [emitted_regs, h.regs]
  · rw [emitted_data, h.data]
  · rw [List.length_append]
    exact word_succ hoptr (by omega)
  · rw [List.length_append, List.length_singleton] at hi
    rw [readOut_emitted, hoptr]
    by_cases hi' : i = o.length
    · rw [if_pos hi', hi', List.getD_append_right _ _ _ _ (Nat.le_refl _), Nat.sub_self]
      rfl
    · rw [if_neg hi', List.getD_append _ _ _ _ (by omega), hbytes i (by omega)]

/-- One copy emits the window byte at MOFF, which is a byte of the output or WINDOW_INIT (42_lzss_decoder.md R170, R183). -/
theorem copied (hp : s.par.wf) (hroom : o.length < s.par.outCapacity) {off : Nat} (hm : u.work.moff.toNat = off)
    (hoff : off < 2 ^ s.indexSize) :
    DecodedTo s (copied u) p
        (o ++ [windowByte s.par.windowInitAt (2 ^ s.indexSize) s.initWidx o off o.length])
      ∧ (Machine.copied u).work.moff.toNat = (off + 1) % 2 ^ s.indexSize := by
  have hw13 := h.stream.w13
  have hbyte : u.readWin u.work.moff.toNat
      = windowByte s.par.windowInitAt (2 ^ s.indexSize) s.initWidx o off o.length := by
    rw [hm, readWin_eq_windowByte h.stream h.output (by rwa [h.indexSize]), h.par, h.indexSize, h.initWidx]
  obtain ⟨-, hemit⟩ := h.emitted hp hroom (u.readWin u.work.moff.toNat)
  have hmoff : (u.windowSucc u.work.moff).toNat = (off + 1) % 2 ^ s.indexSize := by
    rw [windowSucc_toNat h.stream.windowSize (Nat.two_pow_pos _) hw13, hm, h.indexSize]
  have hmoved := hemit.moved (t := Machine.copied u) u.work.brPos (u.windowSucc u.work.moff) (u.work.mcnt - 1)
    (if u.work.mcnt = 1 then .readControl else .emitMatch) (decide (u.work.mcnt ≠ 1)) rfl h.stream.cursor
    (by split <;> decide) (fun _ => ?_) fun hlast => ?_
  · rw [h.cursor, hbyte] at hmoved
    exact ⟨hmoved, hmoff⟩
  · rw [hmoff, hemit.indexSize]
    exact Nat.mod_lt _ (Nat.two_pow_pos _)
  · have hne : u.work.mcnt ≠ 1 := of_decide_eq_true hlast
    exact ⟨if_neg hne, fun hz => hne (sub_eq_zero.mp hz)⟩

end DecodedTo

/-! ### A turn of the token loop -/

theorem copyBytes_length (init : Nat → Byte) (w iw n off : Nat) (o : List Byte) :
    (copyBytes init w iw n off o).length = o.length + n := by
  induction n generalizing off o with
  | zero => rfl
  | succ n ih =>
    rw [copyBytes, ih, List.length_append, List.length_singleton]
    omega

theorem DecodedTo.copied_iterate {s : State} (hp : s.par.wf) {p : Nat} (n : Nat) {u : State} {off : Nat} {o : List Byte}
    (h : DecodedTo s u p o) (hm : u.work.moff.toNat = off) (hoff : off < 2 ^ s.indexSize)
    (hroom : o.length + n ≤ s.par.outCapacity) :
    DecodedTo s (Machine.copied^[n] u) p
      (copyBytes s.par.windowInitAt (2 ^ s.indexSize) s.initWidx n off o) := by
  induction n generalizing u off o with
  | zero => exact h
  | succ n ih =>
    obtain ⟨hnext, hmoff⟩ := h.copied hp (by omega) hm hoff
    rw [Function.iterate_succ_apply, copyBytes]
    exact ih hnext hmoff (Nat.mod_lt _ (Nat.two_pow_pos _))
      (by rw [List.length_append, List.length_singleton]; omega)

/-- READ_CONTROL at a literal (42_lzss_decoder.md R164). -/
theorem BetweenTokens.readControl_literal {s u : State} {p : Nat} {o : List Byte} (h : BetweenTokens s u p o)
    (hin : s.InputAt p (bitsOf 1 1)) :
    readControl u = .go ((u.advance 1).toFsm .emitLiteral) ∧ DecodedTo s ((u.advance 1).toFsm .emitLiteral) (p + 1) o :=
  ⟨h.withBits (by decide) hin _,
    (h.advance_field hin).toFsm (by rw [advance_work, h.ready]; decide) (by decide) (by decide)⟩

/-- READ_CONTROL at a match or at END: the index field tells which (42_lzss_decoder.md R164). -/
theorem BetweenTokens.readControl_index {s u : State} {p : Nat} {o : List Byte} (h : BetweenTokens s u p o) {off : Nat}
    (hoff : off < 2 ^ s.indexSize) (hin : s.InputAt p (bitsOf 1 0 ++ bitsOf s.indexSize off)) :
    ∃ t, readControl u = (if off = 0 then .go (t.toFsm .terminated) else .go (t.toMatch off))
      ∧ DecodedTo s t (p + 1 + s.indexSize) o ∧ t.work.fsm = .readControl := by
  obtain ⟨hcontrol, hindex⟩ := inputAt_append.mp hin
  have hnext := h.advance_field hcontrol
  refine ⟨(u.advance 1).advance s.indexSize, (h.withBits (by decide) hcontrol _).trans ?_, hnext.advance_field hindex,
    h.ready⟩
  rw [if_neg (by decide), hnext.indexSize, hnext.withBits hoff hindex]

/-- What `i` adds to the output `o` under the configuration of `s` (42_lzss_decoder.md R173, R174). -/
def State.addToken (s : State) (o : List Byte) (i : Instr) : List Byte :=
  tokenOutput s.par.windowInitAt (2 ^ s.indexSize) s.initWidx s.minLength o i

/-- The turn of a literal (42_lzss_decoder.md R173). -/
theorem BetweenTokens.decodeOne_literal {s u : State} (hp : s.par.wf) {p : Nat} {o : List Byte}
    (h : BetweenTokens s u p o) {v : Byte} (hin : s.InputAt p (tokenBits s.format (.lit v)))
    (hroom : o.length < s.par.outCapacity) :
    ∃ t, decodeOne u = .go t ∧ BetweenTokens s t (p + (tokenBits s.format (.lit v)).length) (s.addToken o (.lit v)) := by
  obtain ⟨hcontrol, hvalue⟩ := inputAt_append.mp (show s.InputAt p (bitsOf 1 1 ++ bitsOf 8 v.toNat) from hin)
  obtain ⟨hrun, h1⟩ := h.readControl_literal hcontrol
  obtain ⟨hne, h3⟩ := (h1.advance_field hvalue).emitted hp hroom v
  refine ⟨_, ?_, h3.toFsm (f := .readControl) (by rw [emitted_work]; simp) (by decide) (by decide), rfl⟩
  rw [decodeOne, hrun, Flow.go_andThen]
  refine (h1.withBits v.isLt hvalue _).trans ?_
  rw [putLiteral, BitVec.ofNat_toNat, BitVec.setWidth_eq, emit_room hne]

/-- The turn of a match (42_lzss_decoder.md R174). -/
theorem BetweenTokens.decodeOne_match {s u : State} (hp : s.par.wf) {p : Nat} {o : List Byte}
    (h : BetweenTokens s u p o) {off len : Nat} (hwf : (Instr.matchCopy off len).wf s.format = true)
    (hin : s.InputAt p (tokenBits s.format (.matchCopy off len)))
    (hroom : o.length + (len + s.minLength) ≤ s.par.outCapacity) :
    ∃ t, decodeOne u = .go t
      ∧ BetweenTokens s t (p + (tokenBits s.format (.matchCopy off len)).length) (s.addToken o (.matchCopy off len)) := by
  simp only [Instr.wf, Bool.and_eq_true, decide_eq_true_eq] at hwf
  obtain ⟨⟨hpos, hoff : off < 2 ^ s.indexSize⟩, hlen : len < 2 ^ s.lengthSize⟩ := hwf
  have hcap := hp.2.2
  obtain ⟨hindex, hlength⟩ := inputAt_append.mp
    (show s.InputAt p ((bitsOf 1 0 ++ bitsOf s.indexSize off) ++ bitsOf s.lengthSize len) from hin)
  obtain ⟨u1, hrun, h1, -⟩ := h.readControl_index hoff hindex
  rw [if_neg (by omega)] at hrun
  obtain ⟨h2, hmoff⟩ := h1.toMatch hoff
  have hfield : s.InputAt (p + 1 + s.indexSize) (bitsOf s.lengthSize len) := by simpa [Nat.add_assoc] using hlength
  have h3 := h2.advance_field hfield
  have hn : len + s.minLength < 2 ^ 32 := by omega
  rcases copyMatch_cases h3.stream (by rw [h3.par]; exact hp) rfl hn with ⟨-, hcopy, hready⟩ | ⟨hfull, -⟩
  · refine ⟨_, ?_, ?_, hready⟩
    · rw [decodeOne, hrun, Flow.go_andThen]
      show (u1.toMatch off).withBits (u1.toMatch off).lengthSize _ = _
      rw [h2.lengthSize, h2.withBits hlen hfield, h3.minLength]
      exact hcopy
    · have hdone := (h3.startCopy hn rfl).copied_iterate hp (len + s.minLength) hmoff hoff hroom
      have hcursor : p + (tokenBits s.format (.matchCopy off len)).length = p + 1 + s.indexSize + s.lengthSize := by
        rw [tokenBits_length, Nat.add_assoc p, Nat.add_assoc p]
        rfl
      rw [hcursor]
      exact hdone
  · rw [h3.par, h3.output.1] at hfull
    omega

/-- The turn of END (42_lzss_decoder.md R175). -/
theorem BetweenTokens.decodeOne_end {s u : State} {p : Nat} {o : List Byte} (h : BetweenTokens s u p o)
    (hin : s.InputAt p (tokenBits s.format .endMark)) :
    ∃ t, decodeOne u = terminated t ∧ DecodedTo s t (p + (tokenBits s.format .endMark).length) o := by
  obtain ⟨t, hrun, hnext, hready⟩ := h.readControl_index (Nat.two_pow_pos _)
    (show s.InputAt p (bitsOf 1 0 ++ bitsOf s.indexSize 0) from hin)
  refine ⟨t.toFsm .terminated, ?_, ?_⟩
  · rw [decodeOne, hrun, if_pos rfl]
    rfl
  · rw [tokenBits_length, ← Nat.add_assoc]
    exact hnext.toFsm (by rw [hready]; decide) (by decide) (by decide)

/-! ### The whole stream -/

theorem tokenBits_length_pos (f : Format) {i : Instr} (hi : i.isCommand = false) : 1 ≤ (tokenBits f i).length := by
  rw [tokenBits_length]
  cases i with
  | lit v => exact Nat.le_add_left 1 8
  | matchCopy off len => dsimp only; omega
  | endMark => dsimp only; omega
  | _ => cases hi

theorem length_le_addToken (s : State) (o : List Byte) (i : Instr) : o.length ≤ (s.addToken o i).length := by
  cases i with
  | lit v => exact (Nat.le_add_right _ _).trans_eq List.length_append.symm
  | matchCopy off len => exact (Nat.le_add_right _ _).trans_eq (copyBytes_length _ _ _ _ _ _).symm
  | _ => exact Nat.le_refl _

theorem length_le_foldl_addToken (s : State) (tokens : List Instr) (o : List Byte) :
    o.length ≤ (tokens.foldl s.addToken o).length := by
  induction tokens generalizing o with
  | nil => exact Nat.le_refl _
  | cons i tokens ih => exact (length_le_addToken s o i).trans (ih _)

/-- The turn of any token but END whose output fits (42_lzss_decoder.md R173, R174). -/
theorem BetweenTokens.decodeOne_token {s u : State} (hp : s.par.wf) {p : Nat} {o : List Byte} (h : BetweenTokens s u p o)
    {i : Instr} (hi : i.isCommand = false ∧ i ≠ .endMark ∧ i.wf s.format = true)
    (hin : s.InputAt p (tokenBits s.format i)) (hroom : (s.addToken o i).length ≤ s.par.outCapacity) :
    ∃ t, decodeOne u = .go t ∧ BetweenTokens s t (p + (tokenBits s.format i).length) (s.addToken o i) := by
  obtain ⟨htoken, hend, hwf⟩ := hi
  cases i with
  | lit v => exact h.decodeOne_literal hp hin (List.length_append.ge.trans hroom)
  | matchCopy off len => exact h.decodeOne_match hp hwf hin ((copyBytes_length _ _ _ _ _ _).ge.trans hroom)
  | endMark => exact absurd rfl hend
  | _ => cases htoken

section
variable {s : State} (hp : s.par.wf) {tokens : List Instr}
  (htokens : ∀ i ∈ tokens, i.isCommand = false ∧ i ≠ .endMark ∧ i.wf s.format = true)

include htokens in
theorem length_le_flatMap_tokenBits : tokens.length ≤ (tokens.flatMap (tokenBits s.format)).length := by
  rw [List.length_flatMap, ← List.length_map (f := fun i => (tokenBits s.format i).length)]
  refine List.length_le_sum_of_one_le _ fun n hn => ?_
  obtain ⟨i, hi, rfl⟩ := List.mem_map.mp hn
  exact tokenBits_length_pos _ (htokens i hi).1

include hp htokens

/-- A turn of the loop for each token (42_lzss_decoder.md R160). -/
theorem BetweenTokens.decode_tokens {u : State} {p : Nat} {o : List Byte} (h : BetweenTokens s u p o)
    (hin : s.InputAt p (tokens.flatMap (tokenBits s.format)))
    (hroom : (tokens.foldl s.addToken o).length ≤ s.par.outCapacity) :
    ∃ t, repeatFlow tokens.length decodeOne u = .go t
      ∧ BetweenTokens s t (p + (tokens.flatMap (tokenBits s.format)).length) (tokens.foldl s.addToken o) := by
  induction tokens generalizing u p o with
  | nil => exact ⟨u, rfl, h⟩
  | cons i tokens ih =>
    rw [List.flatMap_cons] at hin ⊢
    obtain ⟨hfirst, hrest⟩ := inputAt_append.mp hin
    obtain ⟨t, hrun, ht⟩ := h.decodeOne_token hp (htokens i List.mem_cons_self) hfirst
      ((length_le_foldl_addToken s tokens _).trans hroom)
    obtain ⟨v, hrun', hv⟩ := ih (fun j hj => htokens j (List.mem_cons_of_mem _ hj)) ht hrest hroom
    refine ⟨v, ?_, ?_⟩
    · rw [List.length_cons, repeatFlow_succ, hrun]
      exact hrun'
    · rwa [List.length_append, ← Nat.add_assoc]

/-- DECOMPRESS of a stream that begins with tokens and END: it is in TERMINATED just after END, its output the tokens'
(42_lzss_decoder.md R160, R171, R183). -/
theorem exec_decompress_tokens (hb : s.isBusy = false) (hlen : s.regs.inLen.toNat ≤ s.par.inCapacity)
    (hbad : badParams s = false) {rest : List Bool}
    (hbits : s.streamBits 0 (8 * s.regs.inLen.toNat) =
      tokens.flatMap (tokenBits s.format) ++ tokenBits s.format .endMark ++ rest)
    (hroom : (tokens.foldl s.addToken []).length ≤ s.par.outCapacity) :
    ∃ u, exec .decompress s = (terminated u).outcome
      ∧ DecodedTo s u (tokens.flatMap (tokenBits s.format) ++ tokenBits s.format .endMark).length
          (tokens.foldl s.addToken []) := by
  have hbegun := betweenTokens_decompressBegun hp hlen hbad
  obtain ⟨hpast, -⟩ := inputAt_append.mp (inputAt_of_streamBits hbits)
  obtain ⟨hin, hend⟩ := inputAt_append.mp hpast
  obtain ⟨t, hrun, ht⟩ := hbegun.decode_tokens hp htokens hin hroom
  obtain ⟨u, hrun', hu⟩ := ht.decodeOne_end hend
  refine ⟨u, ?_, ?_⟩
  · have hfuel : tokens.length ≤ (decompressBegun s).work.total.toNat := by
      rw [hbegun.total]
      have := length_le_flatMap_tokenBits htokens
      have := hin.1
      omega
    obtain ⟨m, hm⟩ := Nat.exists_eq_add_of_le hfuel
    rw [exec_decompress_ok hb hlen hbad, streamRun, hm, Nat.add_assoc, repeatFlow_add, hrun, Flow.go_andThen,
      repeatFlow_succ, hrun']
    rfl
  · rwa [Nat.zero_add, ← List.length_append] at hu

end

/-- LZ_BITPOS holds the cursor (42_lzss_decoder.md R171). -/
def State.storeBitpos (s : State) : State := { s with regs := { s.regs with bitpos := s.work.brPos } }

theorem terminated_outcome (s : State) :
    (terminated s).outcome = .next (if s.work.brPos = s.work.total then s.storeBitpos.finish s.work.optr
      else s.storeBitpos.raise .formatInvalid true) := rfl

/-- TERMINATED with no bit left: DONE (42_lzss_decoder.md R171). -/
theorem DecodedTo.terminated_done {s u : State} {p : Nat} {o : List Byte} (h : DecodedTo s u p o)
    (hend : p = 8 * s.regs.inLen.toNat) :
    ∃ t, (terminated u).outcome = .next t
      ∧ t.regs = { s.regs with op := 3, status := .done, outLen := u.work.optr, bitpos := u.work.brPos }
      ∧ ∀ i, i < o.length → t.readOut i = o.getD i 0 := by
  have heq : u.work.brPos = u.work.total := BitVec.eq_of_toNat_eq (by rw [h.cursor, h.total, hend])
  refine ⟨u.storeBitpos.finish u.work.optr, by rw [terminated_outcome, if_pos heq], ?_, h.output.2⟩
  rw [finish_regs, State.storeBitpos, h.regs]
  rfl

/-- TERMINATED with a bit left: FORMAT_INVALID (42_lzss_decoder.md R171, R181). -/
theorem DecodedTo.terminated_left {s u : State} {p : Nat} {o : List Byte} (h : DecodedTo s u p o)
    (hleft : p ≠ 8 * s.regs.inLen.toNat) :
    ∃ t, (terminated u).outcome = .next t ∧ t.regs.status = .error .formatInvalid ∧ t.regs.outLen = 0
      ∧ t.regs.bitpos.toNat = p := by
  have hne : u.work.brPos ≠ u.work.total := fun heq => hleft (by rw [← h.cursor, heq, h.total])
  have hop : u.storeBitpos.regs.op = 3 := congrArg Regs.op h.regs
  refine ⟨u.storeBitpos.raise .formatInvalid true, by rw [terminated_outcome, if_neg hne], raise_status _ _ _,
    raise_outLen _ _ _, ?_⟩
  rw [raise_stream _ _ _ hop]
  exact h.cursor

/-- Settles O43: the loop is in TERMINATED just after END, and the bits after it keep that from being the end. -/
theorem bitsAfterEndFail : Obligations.BitsAfterEndFail := by
  unfold Obligations.BitsAfterEndFail
  intro s tokens rest hp hb hlen hi hl hw htokens hbits hrest hroom
  obtain ⟨u, hexec, hu⟩ := exec_decompress_tokens hp htokens hb hlen ((badParams_eq_false s).mpr ⟨hi, hl, hw⟩) hbits hroom
  rw [hexec]
  refine hu.terminated_left fun heq => hrest (List.eq_nil_of_length_eq_zero ?_)
  have htotal := congrArg List.length hbits
  rw [streamBits_length, List.length_append (bs := rest), ← heq] at htotal
  omega

/-! ### Literals only (42_lzss_decoder.md R177) -/

theorem foldl_addToken_literals (s : State) (vs o : List Byte) : (vs.map Instr.lit).foldl s.addToken o = o ++ vs := by
  induction vs generalizing o with
  | nil => exact (List.append_nil o).symm
  | cons v vs ih => exact (ih (o ++ [v])).trans (List.append_cons o v vs).symm

theorem length_flatMap_literals (f : Format) (vs : List Byte) :
    (vs.flatMap fun v => tokenBits f (.lit v)).length = 9 * vs.length := by
  rw [List.length_flatMap]
  simp [tokenBits_length, Nat.mul_comm]

/-- Settles O42: literals are tokens that each add their byte; 9 bits each and 14 for END make whole bytes for 2 modulo 8. -/
theorem literalOnlyStreams : Obligations.LiteralOnlyStreams := by
  unfold Obligations.LiteralOnlyStreams
  refine ⟨fun s vs hp hb hlen hi hl hw hroom hbits => ?_, fun vs len hbits => ?_⟩
  · have htokens : ∀ i ∈ vs.map Instr.lit, i.isCommand = false ∧ i ≠ .endMark ∧ i.wf s.format = true := by
      intro i hi
      obtain ⟨v, -, rfl⟩ := List.mem_map.mp hi
      exact ⟨rfl, nofun, rfl⟩
    have hout : (vs.map Instr.lit).foldl s.addToken [] = vs := foldl_addToken_literals s vs []
    obtain ⟨u, hexec, hu⟩ := exec_decompress_tokens (rest := []) hp htokens hb hlen
      ((badParams_eq_false s).mpr ⟨hi, hl, hw⟩) (by rw [hbits, List.flatMap_map, List.append_nil]) (by rwa [hout])
    rw [hout] at hu
    have hend := congrArg List.length hbits
    rw [streamBits_length, ← List.flatMap_map] at hend
    obtain ⟨t, hterm, hregs, hread⟩ := hu.terminated_done hend.symm
    refine ⟨t, hexec.trans hterm, by rw [hregs], ?_, hread⟩
    rw [hregs]
    exact hu.output.1
  · rw [List.length_append, length_flatMap_literals, tokenBits_length] at hbits
    have hend : 9 * vs.length + (1 + 13) = 8 * len := hbits
    omega

end Sys2Proof.Machine
end

section
/-! PROOFS. NOP, the command that only stores its operation (60_exceptions.md R212). -/

namespace Sys2Proof.Machine

theorem exec_nop (s : State) : exec .nop s = s.unlessBusy (.next s.storeNop) := rfl

/-- Settles O19: no check but the one for BUSY stands before NOP, and what it stores is the operation. -/
theorem nopChangesOnlyOp : Obligations.NopChangesOnlyOp := by
  unfold Obligations.NopChangesOnlyOp
  intro s hb
  rw [exec_nop, unlessBusy_idle hb, State.storeNop]

end Sys2Proof.Machine
end

section
/-! PROOFS. Host accesses while a command runs (70_reset_and_hazards.md R250): STATUS may be read at any time, and the guard
for BUSY stands before every other access. -/

namespace Sys2Proof.Machine

/-- The guard comes first: what the access would do plays no part. -/
theorem step_needsIdle_busy {s : State} {e : Event} {es : List Event} (hb : s.isBusy = true) (h : s.inputs = e :: es)
    (he : e.needsIdle = true) : step s = .refused .hostAccessWhileBusy := by
  simp only [step, nextStep, h, he, if_true, unlessBusy_busy hb]

theorem Event.needsIdle_readReg {off : Nat} (h : off ≠ 0x04) : (Event.readReg off).needsIdle = true := decide_eq_true h

/-- A read of STATUS passes no guard, so it is answered whether or not a command runs. -/
theorem step_readReg_status {s : State} {es : List Event} (h : s.inputs = .readReg 0x04 :: es) :
    step s = .next (State.reply { s with inputs := es } (.word s.regs.status.word)) := by
  have hfree : (Event.readReg 0x04).needsIdle = false := rfl
  simp only [step, nextStep, h, hfree, Bool.false_eq_true, if_false]
  rfl

theorem Status.word_busy : Status.busy.word = 1 := rfl

/-- Settles O9: a read of STATUS answers the word of BUSY, and each of the other accesses needs the core idle. -/
theorem busyRefusesHostAccesses : Obligations.BusyRefusesHostAccesses := by
  unfold Obligations.BusyRefusesHostAccesses
  intro s es hb
  have refused {e : Event} (he : e.needsIdle = true) (h : s.inputs = e :: es) : step s = .refused .hostAccessWhileBusy :=
    step_needsIdle_busy hb h he
  refine ⟨fun h => ?_, fun off hoff => refused (Event.needsIdle_readReg hoff), fun off v => refused rfl,
    fun v => refused rfl, fun i v => refused rfl, fun i => refused rfl, fun i => refused rfl⟩
  rw [step_readReg_status h, (isBusy_iff s).mp hb, Status.word_busy, State.reply]

end Sys2Proof.Machine
end

section
/-! PROOFS. Codes of instructions (30_encoding.md R80 to R89): a command's word and a token's bits decode to what was encoded,
and whatever opens a bit sequence is one token or the beginning of one. -/

namespace Sys2Proof

/-! ### The decoder, field by field -/

theorem decodeToken_literal (f : Format) (v : Nat) (rest : List Bool) :
    decodeToken f (true :: (bitsOf 8 v ++ rest)) = .ok (.lit (BitVec.ofNat 8 (v % 2 ^ 8)), rest) := by
  simp only [decodeToken, takeField_append]

theorem decodeToken_index_zero (f : Format) (rest : List Bool) :
    decodeToken f (false :: (bitsOf f.indexSize 0 ++ rest)) = .ok (.endMark, rest) := by
  simp only [decodeToken, takeField_append, Nat.zero_mod, if_true]

theorem decodeToken_index {f : Format} {off : Nat} (h0 : off ≠ 0) (h : off < 2 ^ f.indexSize) (len : Nat)
    (rest : List Bool) :
    decodeToken f (false :: (bitsOf f.indexSize off ++ (bitsOf f.lengthSize len ++ rest)))
      = .ok (.matchCopy off (len % 2 ^ f.lengthSize), rest) := by
  simp only [decodeToken, takeField_append, Nat.mod_eq_of_lt h, if_neg h0]

theorem Instr.wf_matchCopy {f : Format} {off len : Nat} :
    (Instr.matchCopy off len).wf f = true ↔ (1 ≤ off ∧ off < 2 ^ f.indexSize) ∧ len < 2 ^ f.lengthSize := by
  simp only [Instr.wf, Bool.and_eq_true, decide_eq_true_eq]

/-- Settles O12: each field of the token is read back as it was written, and the index field tells a match from END. -/
theorem tokenEncodeDecode : Obligations.TokenEncodeDecode := by
  unfold Obligations.TokenEncodeDecode
  intro f i rest hi hwf
  cases i with
  | lit v =>
    refine (decodeToken_literal f v.toNat rest).trans ?_
    rw [Nat.mod_eq_of_lt v.isLt, BitVec.ofNat_toNat, BitVec.setWidth_eq]
  | matchCopy off len =>
    obtain ⟨⟨hpos, hoff⟩, hlen⟩ := Instr.wf_matchCopy.mp hwf
    rw [tokenBits, List.cons_append, List.append_assoc, decodeToken_index (by omega) hoff, Nat.mod_eq_of_lt hlen]
  | endMark => exact decodeToken_index_zero f rest
  | _ => cases hi

/-- Settles O14: at each field the sequence either ends, or holds the field's bits and is read on; a field that reads the
offset 0 closes the token. -/
theorem tokenDecodeIsExact : Obligations.TokenDecodeIsExact := by
  unfold Obligations.TokenDecodeIsExact
  intro f bits
  match bits with
  | [] => exact .inr ⟨.noControlBit, rfl, by simp⟩
  | true :: bits =>
    obtain ⟨hlen, hcut⟩ | ⟨v, rest, hv, -, rfl⟩ := takeField_cases 8 bits
    · refine .inr ⟨.literalCut, by simp only [decodeToken, hcut], ?_⟩
      rw [List.length_cons]; omega
    · have hbyte : (BitVec.ofNat 8 v).toNat = v := by rw [BitVec.toNat_ofNat, Nat.mod_eq_of_lt hv]
      refine .inl ⟨.lit (BitVec.ofNat 8 v), rest, ?_, rfl, rfl, by rw [tokenBits, hbyte]; rfl⟩
      rw [decodeToken_literal, Nat.mod_eq_of_lt hv]
  | false :: bits =>
    obtain ⟨hlen, hcut⟩ | ⟨off, bits', hoff, hindex, rfl⟩ := takeField_cases f.indexSize bits
    · refine .inr ⟨.offsetCut, by simp only [decodeToken, hcut], ?_⟩
      rw [List.length_cons]; omega
    by_cases h0 : off = 0
    · subst h0
      exact .inl ⟨.endMark, bits', decodeToken_index_zero f bits', rfl, rfl, rfl⟩
    obtain ⟨hlen, hcut⟩ | ⟨len, rest, hlen, -, rfl⟩ := takeField_cases f.lengthSize bits'
    · refine .inr ⟨.lengthCut, by simp only [decodeToken, hindex, if_neg h0, hcut], ?_⟩
      rw [List.length_cons, List.length_append, bitsOf_length]; omega
    · refine .inl ⟨.matchCopy off len, rest, ?_, rfl, Instr.wf_matchCopy.mpr ⟨⟨by omega, hoff⟩, hlen⟩, ?_⟩
      · rw [decodeToken_index h0 hoff, Nat.mod_eq_of_lt hlen]
      · rw [tokenBits, List.cons_append, List.append_assoc]

/-! ### Commands -/

/-- Settles O13: the word's low bits are the command's operation, by which it is decoded. -/
theorem commandEncodeDecode : Obligations.CommandEncodeDecode := by
  unfold Obligations.CommandEncodeDecode
  intro f i hi
  cases i with
  | nop => rfl
  | decryptLegacy => rfl
  | decryptBlock => rfl
  | decompress => rfl
  | _ => cases hi

/-- Settles O11, by evaluation of the decoder on the five words. -/
theorem defaultTokenWords : Obligations.DefaultTokenWords := by
  unfold Obligations.DefaultTokenWords
  decide

end Sys2Proof
end

section
/-! PROOFS. Reset, the codes of STATUS, and the registers as the host reads and writes them while no command runs
(10_state.md R22, R24, R34, R47; 20_memory.md R64; 70_reset_and_hazards.md R240 to R243). -/

namespace Sys2Proof.Machine

/-! ### Reset -/

/-- Settles O1: the register file is a constant, and a memory that lists nothing reads as its free values. -/
theorem resetRegisterValues : Obligations.ResetRegisterValues := by
  unfold Obligations.ResetRegisterValues
  refine ⟨rfl, rfl, rfl, rfl, rfl, rfl, rfl, rfl, rfl, rfl, rfl, rfl, rfl, rfl, rfl, ?_, ?_, ?_, ?_⟩ <;> exact fun _ => rfl

/-- Settles O55: no command runs, the parameters are legal and every memory is empty. -/
theorem resetMeetsInvariant : Obligations.ResetMeetsInvariant := by
  unfold Obligations.ResetMeetsInvariant
  have hidle {p : Prop} (h : State.reset.isBusy = true) : p := absurd h (by decide)
  have hempty (n : Nat) : Memory.within [] n := List.forall_mem_nil _
  obtain ⟨hdata, hout, hsnap, hwin, hcanonical⟩ := reset_memories_wf
  exact {
    par := by decide
    mem := ⟨hdata, hout, hsnap, hwin, hcanonical, hempty _, hempty _, hempty _, hempty _, Nat.zero_le _⟩
    running := hidle
    block := hidle
    stream := hidle }

/-- No guard stands before a reset (70_reset_and_hazards.md R240). -/
theorem step_reset {s : State} {es : List Event} (h : s.inputs = .reset :: es) :
    step s = .next (applyReset { s with inputs := es }) := by
  simp only [step, nextStep, h, Event.needsIdle, Bool.false_eq_true, if_false]
  rfl

theorem readData_applyReset (s : State) (i : Nat) :
    (applyReset s).readData i =
      if s.isBusy = true ∧ i < s.work.l.toNat then Config.resetMix (s.draws + 1) i else s.readData i := by
  unfold State.readData applyReset
  cases s.isBusy with
  | false => simp
  | true =>
    simp only [if_true, true_and, Memory.get_mixData]
    split <;> rfl

/-- Settles O2: only a running command's DATA bytes would be mixed. -/
theorem resetWhileIdleKeepsData : Obligations.ResetWhileIdleKeepsData := by
  unfold Obligations.ResetWhileIdleKeepsData
  intro s es hin hb
  refine ⟨_, step_reset hin, rfl, rfl, rfl, rfl, fun i => ?_, fun i => rfl, fun i => rfl, fun i => rfl⟩
  rw [readData_applyReset, if_neg fun h => Bool.false_ne_true (hb.symm.trans h.1)]
  rfl

/-- Settles O3: DATA below L is mixed, and the reset draws anew. -/
theorem resetWhileBusyAbandonsCommand : Obligations.ResetWhileBusyAbandonsCommand := by
  unfold Obligations.ResetWhileBusyAbandonsCommand
  intro s es hin hb
  refine ⟨_, step_reset hin, rfl, rfl, fun i hi => ?_, fun i hi => ?_, rfl, fun i => rfl⟩
  · rw [readData_applyReset, if_pos ⟨hb, hi⟩]
    rfl
  · rw [readData_applyReset, if_neg fun h => Nat.not_lt_of_le hi h.2]
    rfl

/-! ### STATUS -/

/-- Settles O6: STATE and ERR of each of the six outcomes by evaluation; a write to STATUS falls to the last case. -/
theorem statusWordCodes : Obligations.StatusWordCodes := by
  unfold Obligations.StatusWordCodes
  refine ⟨fun st => ?_, rfl, rfl, rfl, rfl, rfl, rfl, fun r v => rfl, fun r => rfl, rfl⟩
  cases st with
  | idle => decide
  | busy => decide
  | done => decide
  | error e => cases e <;> decide

/-! ### Registers -/

/-- Settles O8: an offset without a register reads 0, and the answer is all that a read leaves. -/
theorem registerReadHasNoSideEffect : Obligations.RegisterReadHasNoSideEffect := by
  unfold Obligations.RegisterReadHasNoSideEffect
  intro s off es hin hb
  rw [step_readReg hin hb, State.reply]
  by_cases hoff : off ∈ registerOffsets
  · rw [if_pos hoff]
  · rw [if_neg hoff, Regs.read_unmapped _ hoff]

/-- A field put back in its place is the word masked there. -/
theorem fieldAt_fieldOf (n lo : Nat) (v : Word) : fieldAt lo (fieldOf n lo v) = v &&& fieldAt lo (BitVec.allOnes n) := by
  ext i hi
  simp only [fieldAt, fieldOf, BitVec.getElem_and, BitVec.getElem_shiftLeft, BitVec.getElem_setWidth,
    BitVec.getLsbD_extractLsb', BitVec.getLsbD_allOnes]
  by_cases hlo : i < lo
  · simp [hlo]
  · simp [hlo, show lo + (i - lo) = i by omega, BitVec.getLsbD_eq_getElem hi, Bool.and_comm]

/-- A configuration register reads back the defined bits of what was written. -/
theorem Regs.read_write_same (r : Regs) {off : Nat} (h : off ∈ configOffsets) (v : Word) :
    (r.write off v).read off = v &&& definedBits off := by
  have whole : v = v &&& 0xFFFFFFFF := BitVec.and_allOnes.symm
  simp only [configOffsets, List.mem_cons, List.not_mem_nil, or_false] at h
  rcases h with rfl | rfl | rfl | rfl | rfl | rfl | rfl
  · exact whole
  · exact fieldAt_fieldOf 8 0 v
  · exact whole
  · exact whole
  · show fieldAt 0 (fieldOf 8 0 v) ||| fieldAt 8 (fieldOf 8 8 v) = _
    rw [fieldAt_fieldOf, fieldAt_fieldOf, ← BitVec.and_or_distrib_left]
    rfl
  · show fieldAt 0 (fieldOf 5 0 v) ||| fieldAt 8 (fieldOf 5 8 v) ||| fieldAt 16 (fieldOf 8 16 v) = _
    rw [fieldAt_fieldOf, fieldAt_fieldOf, fieldAt_fieldOf, ← BitVec.and_or_distrib_left, ← BitVec.and_or_distrib_left]
    rfl
  · exact whole

/-- STATUS, OUT_LEN, LZ_BITPOS and offsets without a register ignore a write; CMD is apart. -/
theorem Regs.write_readOnly (r : Regs) {off : Nat} (h0 : off ≠ 0) (h : off ∉ configOffsets) (v : Word) :
    r.write off v = r := by
  fun_cases Regs.write r off v
  case case1 => exact absurd rfl h0
  case case9 => rfl
  all_goals exact absurd (by decide) h

/-- Each register has fields of its own. -/
theorem Regs.read_write_other (r : Regs) {o off : Nat} (h : o ≠ off) (v : Word) : (r.write off v).read o = r.read o := by
  fun_cases Regs.write r off v
  case case9 => rfl
  all_goals
    fun_cases Regs.read r o
    case case12 => simp only [Regs.read]
    any_goals exact absurd rfl h
    all_goals rfl

/-- Settles O4: the write stores its fields and the step leaves the rest of the machine. -/
theorem registerWriteReadsBack : Obligations.RegisterWriteReadsBack := by
  unfold Obligations.RegisterWriteReadsBack
  intro s off v es hin hb hoff
  refine ⟨{ s with regs := s.regs.write off v, inputs := es }, ?_, fun h => s.regs.read_write_same h v,
    fun h => s.regs.write_readOnly hoff h v, fun o ho => s.regs.read_write_other ho v,
    fun o ho => Regs.read_unmapped _ ho, rfl⟩
  rw [step_writeReg hin, unlessBusy_idle hb, hostWriteReg_of_ne_cmd _ hoff]
  rfl

end Sys2Proof.Machine
end

section
/-! PROOFS. The ciphers as whole transactions: what each can answer and what it leaves unchanged (40_stream_cipher.md R116,
41_block_unshuffler.md R138, R149), and the two readings of the trim test (R146). -/

namespace Sys2Proof.Machine

/-! ### DECRYPT_LEGACY -/

/-- Settles O27: a run changes DATA where the closed form says, I, K and L, and a rejected start changes L and OUT alone. -/
theorem legacyFrame : Obligations.LegacyFrame := by
  unfold Obligations.LegacyFrame
  intro s t h
  have hdata (a : Nat) (ha : a < s.regs.start.toNat ∨ s.regs.inLen.toNat ≤ a) : t.readData a = s.readData a := by
    rw [exec_decryptLegacy_readData h, if_neg (by omega)]
  rcases exec_decryptLegacy_next h with ⟨-, rfl⟩ | ⟨-, rfl⟩
  · have hframe : legacyDone s = { legacyBegun s with
        data := (legacyDone s).data, regs := (legacyDone s).regs
        work := { (legacyBegun s).work with i := (legacyLooped s).work.i, k := (legacyLooped s).work.k } } := by
      rw [legacyDone, State.finish, (legacyLooped_spec s).1]
    rw [hframe] at hdata ⊢
    exact ⟨rfl, fun _ => ⟨rfl, rfl⟩, fun hne => absurd (by rw [legacyDone_regs]) hne, rfl, rfl, rfl, rfl, rfl,
      ⟨_, _, legacyDone_regs s⟩, ⟨_, _, _, rfl⟩, hdata⟩
  · exact ⟨rfl, nofun, fun _ _ => rfl, rfl, rfl, rfl, rfl, rfl, ⟨_, _, rfl⟩, ⟨_, _, _, rfl⟩, hdata⟩

/-! ### DECRYPT_BLOCK -/

/-- The state DECRYPT_BLOCK ends in when a check fails (41_block_unshuffler.md R131, 60_exceptions.md R216). -/
def blockRejected (s : State) : State :=
  { s with
    regs := { s.regs with op := 2, status := .error .outOfRange, outLen := 0 }
    work := { s.work with l := s.regs.inLen }
    out := [], draws := s.draws + 1 }

/-- The checks of DECRYPT_BLOCK (41_block_unshuffler.md R130, R131). -/
abbrev State.blockAccepted (s : State) : Prop := s.regs.inLen.toNat ≤ s.par.inCapacity ∧ s.blockSize ≠ 0

theorem beginBlock_rejected {s : State} (h : ¬ s.blockAccepted) : beginBlock s = .stop (blockRejected s) := by
  rcases Nat.lt_or_ge s.par.inCapacity s.regs.inLen.toNat with hlen | hlen
  · exact beginBlock_long hlen
  · exact beginBlock_zero hlen (by_contra fun hbs => h ⟨hlen, hbs⟩)

theorem exec_decryptBlock_rejected {s : State} (hb : s.isBusy = false) (h : ¬ s.blockAccepted) :
    exec .decryptBlock s = .next (blockRejected s) := by
  rw [exec_decryptBlock, unlessBusy_idle hb, beginBlock_rejected h]
  rfl

/-- Of the working registers only DECRYPT_BLOCK's own differ (10_state.md R36). -/
def BlockWork (w v : Work) : Prop :=
  ∃ l left p p0 b tp1 tp2 j pass kb, v = { w with
    l := l, left := left, p := p, p0 := p0, b := b, tp1 := tp1, tp2 := tp2, j := j, pass := pass, kb := kb }

theorem BlockWork.refl (w : Work) : BlockWork w w := ⟨_, _, _, _, _, _, _, _, _, _, rfl⟩

theorem BlockWork.trans {u v w : Work} : BlockWork u v → BlockWork v w → BlockWork u w := by
  rintro ⟨_, _, _, _, _, _, _, _, _, _, rfl⟩ ⟨_, _, _, _, _, _, _, _, _, _, rfl⟩
  exact ⟨_, _, _, _, _, _, _, _, _, _, rfl⟩

theorem blockWork_blockLoop {s : State} (hbs : s.blockSize ≠ 0) (n : Nat) {t u : State} (h : BlocksDone s t)
    (hloop : blockLoop n t = .go u) : BlockWork t.work u.work := by
  induction n generalizing t with
  | zero =>
    cases hloop
    exact BlockWork.refl _
  | succ n ih =>
    rw [blockLoop] at hloop
    by_cases hleft : t.work.left.toNat = 0
    · rw [if_pos hleft] at hloop
      cases hloop
      exact BlockWork.refl _
    · obtain ⟨v, hrun, hv, -⟩ := h.runBlock hbs hleft
      obtain ⟨v', hrun', -, -, -, -, -, -, ⟨left, p, p0, b, tp1, tp2, j, pass, kb, hwork⟩, -⟩ :=
        runBlock_spec t (h.blockReady hbs hleft)
      rw [hrun] at hrun'
      cases hrun'
      rw [if_neg hleft, hrun] at hloop
      exact BlockWork.trans ⟨_, left, p, p0, b, tp1, tp2, j, pass, kb, hwork⟩ (ih hv hloop)

/-- DECRYPT_BLOCK past its checks ends with every block done and no other command's register touched. -/
theorem exec_decryptBlock_accepted {s : State} (hb : s.isBusy = false) (h : s.blockAccepted) :
    ∃ u, exec .decryptBlock s = .next (u.finish s.regs.inLen) ∧ BlocksDone s u ∧ u.work.p.toNat = s.activeLen
      ∧ BlockWork s.work u.work := by
  obtain ⟨u, hloop, hdone, hleft⟩ := blockLoop_blocksDone h.2 _ (blocksDone_blockBegun s) (Nat.le_refl _)
  refine ⟨u, ?_, hdone, by have := hdone.cursor; omega,
    BlockWork.trans (v := (blockBegun s).work) ⟨_, _, _, _, _, _, _, _, _, _, rfl⟩
      (blockWork_blockLoop h.2 _ (blocksDone_blockBegun s) hloop)⟩
  rw [exec_decryptBlock, unlessBusy_idle hb, beginBlock_ok h.1 h.2, Flow.go_andThen, blockRun, hloop, Flow.go_andThen,
    hdone.length, Flow.outcome_stop]

/-- Everything DECRYPT_BLOCK can do when it answers a next state. -/
theorem exec_decryptBlock_next {s t : State} (h : exec .decryptBlock s = .next t) :
    (∃ u, t = u.finish s.regs.inLen ∧ BlocksDone s u ∧ BlockWork s.work u.work) ∨ t = blockRejected s := by
  cases hb : s.isBusy with
  | true => rw [exec_decryptBlock, unlessBusy_busy hb] at h; cases h
  | false =>
    by_cases hok : s.blockAccepted
    · obtain ⟨u, hexec, hdone, -, hwork⟩ := exec_decryptBlock_accepted hb hok
      rw [hexec] at h
      cases h
      exact .inl ⟨u, rfl, hdone, hwork⟩
    · rw [exec_decryptBlock_rejected hb hok] at h
      cases h
      exact .inr rfl

/-- Settles O33: a start is refused, stopped by a check, or runs every block to its end. -/
theorem blockAccessesInRange : Obligations.BlockAccessesInRange := by
  unfold Obligations.BlockAccessesInRange
  intro s r h
  cases hb : s.isBusy with
  | true => rw [exec_decryptBlock, unlessBusy_busy hb] at h; cases h
  | false =>
    by_cases hok : s.blockAccepted
    · obtain ⟨u, hexec, -⟩ := exec_decryptBlock_accepted hb hok
      rw [hexec] at h; cases h
    · rw [exec_decryptBlock_rejected hb hok] at h; cases h

/-- Settles O31: DATA past the active bytes is untouched, the snapshot ends at L, and a rejected start touches neither. -/
theorem blockFrame : Obligations.BlockFrame := by
  unfold Obligations.BlockFrame
  intro s t h
  rcases exec_decryptBlock_next h with ⟨u, rfl, hdone, hwork⟩ | rfl
  · have hregs : (u.finish s.regs.inLen).regs = { s.regs with op := 2, status := .done, outLen := s.regs.inLen } := by
      rw [finish_regs, hdone.regs]
      rfl
    have hbytes (a : Nat) (ha : s.regs.inLen.toNat ≤ a) : u.readData a = s.readData a ∧ u.readSnap a = s.readSnap a := by
      have hcur := hdone.cursor
      have hact := s.activeLen_le
      refine ⟨hdone.untouched a (by omega), ?_⟩
      rw [readSnap_congr (s := blockBegun s) (by rw [hdone.frame]), readSnap_blockBegun, if_neg (by omega)]
    have hframe : u.finish s.regs.inLen = { blockBegun s with
        data := u.data, work := u.work, regs := (u.finish s.regs.inLen).regs } := by
      conv_lhs => rw [State.finish, hdone.frame]
      rw [State.finish, hdone.frame]
    refine ⟨by rw [hframe]; rfl, fun _ => by rw [hframe]; exact ⟨rfl, rfl⟩, fun hne => absurd rfl hne,
      by rw [hframe]; rfl, by rw [hframe]; rfl, by rw [hframe]; rfl, by rw [hframe]; rfl, ⟨_, _, hregs⟩, hwork, hbytes⟩
  · exact ⟨rfl, nofun, fun _ _ => rfl, rfl, rfl, rfl, rfl, ⟨_, _, rfl⟩, ⟨_, _, _, _, _, _, _, _, _, _, rfl⟩,
      fun a _ => ⟨rfl, rfl⟩⟩

/-! ### The two readings of the trim test -/

/-- The readings differ where the remainder is the quarter rounded down and something was rounded off. -/
theorem trimmed_floor_ne_exact {rem bs : Nat} :
    trimmed .floor rem bs ≠ trimmed .exact rem bs ↔ rem = bs / 4 ∧ bs % 4 ≠ 0 := by
  have hfloor : trimmed .floor rem bs = decide (rem < bs / 4) := rfl
  have hexact : trimmed .exact rem bs = decide (4 * rem < bs) := rfl
  rw [hfloor, hexact, ne_eq, decide_eq_decide]
  omega

/-- What the odd-length rule leaves of `left` bytes (41_block_unshuffler.md R132). -/
def evened (len left : Nat) : Nat := if 0 < left ∧ len % 2 = 1 then left - 1 else left

theorem activeLength_eq_evened (q : QuarterDiv) (len bs : Nat) :
    activeLength q len bs = evened len (if trimmed q (len % bs) bs then len - len % bs else len) := rfl

/-- Leaving a remainder out makes a difference when there is one, except for the one-byte buffer. -/
theorem evened_ne_iff {len rem : Nat} (h1 : len ≠ 1) (hrem : rem ≤ len) :
    evened len (len - rem) ≠ evened len len ↔ 1 ≤ rem := by
  unfold evened
  split <;> split <;> omega

theorem activeLength_ne_iff {len bs : Nat} (h1 : len ≠ 1) :
    activeLength .floor len bs ≠ activeLength .exact len bs
      ↔ trimmed .floor (len % bs) bs ≠ trimmed .exact (len % bs) bs ∧ 1 ≤ len % bs := by
  have hne := evened_ne_iff h1 (Nat.mod_le len bs)
  rw [activeLength_eq_evened, activeLength_eq_evened]
  cases trimmed .floor (len % bs) bs with
  | true =>
    cases trimmed .exact (len % bs) bs with
    | true => simp
    | false => simpa using hne
  | false =>
    cases trimmed .exact (len % bs) bs with
    | true => simpa using ne_comm.trans hne
    | false => simp

theorem activeLength_one (q : QuarterDiv) (bs : Nat) : activeLength q 1 bs = 0 := by
  have hrem := Nat.mod_le 1 bs
  rw [activeLength_eq_evened, evened]
  split <;> split <;> omega

/-- Settles O35: the active lengths differ with the trim decision, and the decisions differ at the quarter rounded down. -/
theorem quarterReadingsDiffer : Obligations.QuarterReadingsDiffer := by
  unfold Obligations.QuarterReadingsDiffer
  refine fun len bs _ => ⟨fun h1 => ?_, fun q => activeLength_one q bs⟩
  rw [activeLength_ne_iff h1, trimmed_floor_ne_exact, and_assoc]

end Sys2Proof.Machine
end

section
/-! PROOFS. What DECOMPRESS and the tokens leave unchanged (42_lzss_decoder.md R186, 10_state.md R35): a rule that carries a
property through every piece of the decoder, the frame it gives, and the statements about all instructions that follow. -/

namespace Sys2Proof.Machine

/-! ### Carrying a property through a piece of a command -/

/-- The machine goes on in a state of `P`, or stops in one of `Q`. -/
def Flow.Leads (P Q : State → Prop) : Flow → Prop
  | .go t => P t
  | .stop t => Q t
  | .fault _ => False

section
variable {P Q R : State → Prop}

theorem Flow.Leads.andThen {x : Flow} {f : State → Flow} (hx : x.Leads P Q) (hf : ∀ t, P t → (f t).Leads R Q) :
    (x.andThen f).Leads R Q := by
  cases x with
  | go t => exact hf t hx
  | stop t => exact hx
  | fault r => exact hx

theorem leads_repeatFlow {f : State → Flow} (hf : ∀ t, P t → (f t).Leads P Q) (n : Nat) {s : State} (hs : P s) :
    (repeatFlow n f s).Leads P Q := by
  induction n generalizing s with
  | zero => exact hs
  | succ n ih => exact (hf s hs).andThen fun _ => ih

theorem Flow.Leads.outcome {x : Flow} (hx : x.Leads P Q) : ∃ t, x.outcome = .next t ∧ (P t ∨ Q t) := by
  cases x with
  | go t => exact ⟨t, rfl, .inl hx⟩
  | stop t => exact ⟨t, rfl, .inr hx⟩
  | fault r => exact hx.elim

theorem Flow.Leads.of_outcome {x : Flow} (hx : x.Leads P Q) {t : State} (h : x.outcome = .next t) : P t ∨ Q t := by
  obtain ⟨u, hu, hpq⟩ := hx.outcome
  rw [h] at hu
  cases hu
  exact hpq

end

/-- Every update the decoder makes keeps `P`, and the two that end the command lead to `Q`. -/
structure StreamRule (P Q : State → Prop) : Prop where
  advance : ∀ {s} n, P s → P (s.advance n)
  toFsm : ∀ {s} f, P s → P (s.toFsm f)
  toMatch : ∀ {s} off, P s → P (s.toMatch off)
  startCopy : ∀ {s} n, P s → P (startCopy n s)
  emitted : ∀ {s} v, P s → P (s.emitted v)
  afterCopy : ∀ {s}, P s → P (afterCopy s)
  storeBitpos : ∀ {s}, P s → P s.storeBitpos
  raise : ∀ {s} e, P s → Q (s.raise e true)
  finish : ∀ {s} n, P s → Q (s.finish n)

namespace StreamRule

variable {P Q : State → Prop} (h : StreamRule P Q) {s : State} (hs : P s)
include h hs

theorem withBits (n : Nat) {k : Nat → State → Flow} (hk : ∀ v t, P t → (k v t).Leads P Q) :
    (s.withBits n k).Leads P Q := by
  rcases withBits_cases s n k with ⟨-, -, e⟩ | ⟨-, -, e⟩ | ⟨-, e⟩ <;> rw [e]
  · exact h.raise _ hs
  · exact hk _ _ (h.advance _ hs)
  · exact hk _ _ (h.advance _ hs)

theorem skipBits (n : Nat) {k : State → Flow} (hk : ∀ t, P t → (k t).Leads P Q) : (s.skipBits n k).Leads P Q :=
  h.withBits hs n fun _ => hk

theorem emit (v : Byte) {k : State → Flow} (hk : ∀ t, P t → (k t).Leads P Q) : (s.emit v k).Leads P Q := by
  by_cases hfull : s.work.optr.toNat = s.par.outCapacity
  · rw [emit_full hfull]
    exact h.raise _ hs
  · rw [emit_room hfull]
    exact hk _ (h.emitted v hs)

theorem readControl : (readControl s).Leads P Q := by
  refine h.withBits hs 1 fun c t ht => ?_
  split
  · exact h.toFsm _ ht
  · refine h.withBits ht _ fun off u hu => ?_
    split
    · exact h.toFsm _ hu
    · exact h.toMatch off hu

theorem putLiteral (v : Byte) : (putLiteral v s).Leads P Q := h.emit hs v fun _ ht => h.toFsm _ ht

theorem emitLiteral : (emitLiteral s).Leads P Q := h.withBits hs 8 fun _ _ ht => h.putLiteral ht _

theorem enterMatch : (enterMatch s).Leads P Q := h.withBits hs _ fun _ _ ht => h.startCopy _ ht

theorem copyStep : (copyStep s).Leads P Q := h.emit hs _ fun _ ht => h.afterCopy ht

theorem copyMatch (n : Nat) : (copyMatch n s).Leads P Q :=
  leads_repeatFlow (fun _ => h.copyStep) _ (h.startCopy n hs)

theorem terminated : (terminated s).Leads P Q := by
  have hpos : P s.storeBitpos := h.storeBitpos hs
  unfold Machine.terminated
  dsimp only
  split
  · exact h.finish _ hpos
  · exact h.raise _ hpos

theorem lzssStep : (lzssStep s).Leads P Q := by
  unfold Machine.lzssStep
  cases s.work.fsm with
  | readControl => exact h.readControl hs
  | emitLiteral => exact h.emitLiteral hs
  | emitMatch =>
    dsimp only
    split
    · exact h.copyStep hs
    · exact h.enterMatch hs
  | terminated => exact h.terminated hs
  | invalid => exact hs

theorem decodeOne : (decodeOne s).Leads P Q := by
  refine (h.readControl hs).andThen fun t ht => ?_
  cases t.work.fsm with
  | readControl => exact ht
  | emitLiteral => exact h.emitLiteral ht
  | emitMatch => exact h.withBits ht _ fun _ _ hu => h.copyMatch hu _
  | terminated => exact h.terminated ht
  | invalid => exact ht

theorem streamRun : (streamRun s).Leads P Q := leads_repeatFlow (fun _ => h.decodeOne) _ hs

end StreamRule

/-- The meaning of a token where it is read (42_lzss_decoder.md R173 to R175); a command is none. -/
def tokenFlow : Instr → State → Flow
  | .lit v, s => s.skipBits 1 fun s => (s.toFsm .emitLiteral).skipBits 8 (putLiteral v)
  | .matchCopy off len, s => s.skipBits 1 fun s => s.skipBits s.indexSize fun s =>
      (s.toMatch off).skipBits s.lengthSize fun s => copyMatch (len + s.minLength) s
  | .endMark, s => s.skipBits 1 fun s => s.skipBits s.indexSize fun s => terminated (s.toFsm .terminated)
  | .nop, s => .go s
  | .decryptLegacy, s => .go s
  | .decryptBlock, s => .go s
  | .decompress, s => .go s

theorem exec_token {i : Instr} (hi : i.isCommand = false) (s : State) : exec i s = s.onlyAtToken (tokenFlow i s) := by
  cases i with
  | lit v => rfl
  | matchCopy off len => rfl
  | endMark => rfl
  | _ => cases hi

theorem StreamRule.tokenFlow {P Q : State → Prop} (h : StreamRule P Q) (i : Instr) {s : State} (hs : P s) :
    (tokenFlow i s).Leads P Q := by
  cases i with
  | lit v => exact h.skipBits hs 1 fun _ ht => h.skipBits (h.toFsm _ ht) 8 fun _ hu => h.putLiteral hu v
  | matchCopy off len =>
    exact h.skipBits hs 1 fun _ ht => h.skipBits ht _ fun _ hu => h.skipBits (h.toMatch off hu) _ fun _ hv =>
      h.copyMatch hv _
  | endMark => exact h.skipBits hs 1 fun _ ht => h.skipBits ht _ fun _ hu => h.terminated (h.toFsm _ hu)
  | _ => exact hs

/-- Settles O53: a token's meaning stands behind the guard that the decoder is about to read one. -/
theorem tokensOnlyInStream : Obligations.TokensOnlyInStream := by
  unfold Obligations.TokensOnlyInStream
  intro s i hi ht
  rw [exec_token hi, State.onlyAtToken, ht]
  rfl

/-! ### The frame of the decoder -/

/-- Of the working registers only DECOMPRESS's own differ (10_state.md R36). -/
def StreamWork (w v : Work) : Prop :=
  ∃ l total brPos w' wcur moff mcnt optr fsm copying, v = { w with
    l := l, total := total, brPos := brPos, w := w', wcur := wcur, moff := moff, mcnt := mcnt, optr := optr
    fsm := fsm, copying := copying }

/-- Of the registers only the outcome of DECOMPRESS differs (10_state.md R35). -/
def StreamRegs (r q : Regs) : Prop := ∃ st n b, q = { r with status := st, outLen := n, bitpos := b }

/-- What no piece of the decoder changes (42_lzss_decoder.md R186). -/
structure StreamFrame (s t : State) : Prop where
  par : t.par = s.par
  regs : StreamRegs s.regs t.regs
  work : StreamWork s.work t.work
  data : t.data = s.data
  snap : t.snap = s.snap
  inputs : t.inputs = s.inputs
  replies : t.replies = s.replies

theorem StreamFrame.refl (s : State) : StreamFrame s s :=
  ⟨rfl, ⟨_, _, _, rfl⟩, ⟨_, _, _, _, _, _, _, _, _, _, rfl⟩, rfl, rfl, rfl, rfl⟩

theorem StreamFrame.trans {s t u : State} (h : StreamFrame s t) (h' : StreamFrame t u) : StreamFrame s u := by
  refine ⟨h'.par.trans h.par, ?_, ?_, h'.data.trans h.data, h'.snap.trans h.snap, h'.inputs.trans h.inputs,
    h'.replies.trans h.replies⟩
  · obtain ⟨_, _, _, hr⟩ := h.regs
    obtain ⟨_, _, _, hr'⟩ := h'.regs
    exact ⟨_, _, _, by rw [hr', hr]⟩
  · obtain ⟨_, _, _, _, _, _, _, _, _, _, hw⟩ := h.work
    obtain ⟨_, _, _, _, _, _, _, _, _, _, hw'⟩ := h'.work
    exact ⟨_, _, _, _, _, _, _, _, _, _, by rw [hw', hw]⟩

theorem streamFrame_raise (s : State) (e : ErrKind) (b : Bool) : StreamFrame s (s.raise e b) := by
  have hframe (hr : StreamRegs s.regs (s.raise e b).regs) (hw : StreamWork s.work (s.raise e b).work) :
      StreamFrame s (s.raise e b) :=
    ⟨raise_par s e b, hr, hw, raise_data s e b, raise_snap s e b, raise_inputs s e b, raise_replies s e b⟩
  by_cases hop : s.regs.op = 3
  · have hregs := congrArg State.regs (raise_stream s e b hop)
    have hwork := congrArg State.work (raise_stream s e b hop)
    exact hframe ⟨_, _, _, hregs⟩ ⟨_, _, _, _, _, _, _, _, _, _, hwork⟩
  · have hregs := congrArg State.regs (raise_cipher s e b hop)
    have hwork := congrArg State.work (raise_cipher s e b hop)
    exact hframe ⟨_, _, _, hregs⟩ ⟨_, _, _, _, _, _, _, _, _, _, hwork⟩

theorem streamFrame_emitted (s : State) (v : Byte) : StreamFrame s (s.emitted v) :=
  ⟨emitted_par s v, ⟨_, _, _, emitted_regs s v⟩, ⟨_, _, _, _, _, _, _, _, _, _, rfl⟩, emitted_data s v, emitted_snap s v,
    emitted_inputs s v, emitted_replies s v⟩

/-- An update of DECOMPRESS's own working registers and of the outcome, where the update is written out. -/
theorem streamFrame_of_eq {s t : State} {l total brPos : Word} {w : BitVec 14} {wcur moff : BitVec 13} {mcnt optr : Word}
    {fsm : Fsm} {copying : Bool} {st : Status} {n b : Word}
    (h : t = { s with
      regs := { s.regs with status := st, outLen := n, bitpos := b }
      work := { s.work with
        l := l, total := total, brPos := brPos, w := w, wcur := wcur, moff := moff, mcnt := mcnt, optr := optr
        fsm := fsm, copying := copying } }) : StreamFrame s t := by
  subst h
  exact ⟨rfl, ⟨_, _, _, rfl⟩, ⟨_, _, _, _, _, _, _, _, _, _, rfl⟩, rfl, rfl, rfl, rfl⟩

theorem streamRule_frame (s : State) : StreamRule (StreamFrame s) (StreamFrame s) where
  advance _ h := h.trans (streamFrame_of_eq rfl)
  toFsm _ h := h.trans (streamFrame_of_eq rfl)
  toMatch _ h := h.trans (streamFrame_of_eq rfl)
  startCopy _ h := h.trans (streamFrame_of_eq rfl)
  emitted v h := h.trans (streamFrame_emitted _ v)
  afterCopy h := h.trans (streamFrame_of_eq rfl)
  storeBitpos h := h.trans (streamFrame_of_eq rfl)
  raise e h := h.trans (streamFrame_raise _ e true)
  finish _ h := h.trans (streamFrame_of_eq rfl)

end Sys2Proof.Machine
end

section
/-! PROOFS. DECOMPRESS as one transaction: its frame and its outcome (42_lzss_decoder.md R186), and what follows for every
instruction (10_state.md R21, R35; 60_exceptions.md R211 to R218). -/

namespace Sys2Proof.Machine

/-! ### DECOMPRESS from its start -/

/-- The checks of DECOMPRESS (60_exceptions.md R216, 42_lzss_decoder.md R161). -/
abbrev State.streamAccepted (s : State) : Prop := s.regs.inLen.toNat ≤ s.par.inCapacity ∧ badParams s = false

theorem beginDecompress_accepted {s : State} (h : s.streamAccepted) : beginDecompress s = .go (decompressBegun s) := by
  rw [beginDecompress_fits h.1, h.2]
  rfl

theorem beginDecompress_rejected {s : State} (h : ¬ s.streamAccepted) :
    beginDecompress s = .stop ((decompressChecked s).raise .outOfRange false) := by
  rcases Nat.lt_or_ge s.par.inCapacity s.regs.inLen.toNat with hlen | hlen
  · rw [beginDecompress, checkLength_long (s := s.startCommand 3) hlen]
    rfl
  · rw [beginDecompress_fits hlen, if_pos (Bool.eq_true_of_not_eq_false fun hbad => h ⟨hlen, hbad⟩)]

theorem exec_decompress_rejected {s : State} (hb : s.isBusy = false) (h : ¬ s.streamAccepted) :
    exec .decompress s = .next ((decompressChecked s).raise .outOfRange false) := by
  rw [exec_decompress, unlessBusy_idle hb, beginDecompress_rejected h]
  rfl

/-- Everything DECOMPRESS can do when it answers a next state. -/
theorem exec_decompress_next {s t : State} (h : exec .decompress s = .next t) :
    (s.streamAccepted ∧ (streamRun (decompressBegun s)).outcome = .next t)
      ∨ t = (decompressChecked s).raise .outOfRange false := by
  cases hb : s.isBusy with
  | true => rw [exec_decompress, unlessBusy_busy hb] at h; cases h
  | false =>
    by_cases hok : s.streamAccepted
    · exact .inl ⟨hok, (exec_decompress_ok hb hok.1 hok.2).symm.trans h⟩
    · rw [exec_decompress_rejected hb hok] at h
      cases h
      exact .inr rfl

theorem streamFrame_initStream (s : State) : StreamFrame s (initStream s) :=
  ⟨rfl, ⟨_, _, _, rfl⟩, ⟨_, _, _, _, _, _, _, _, _, _, rfl⟩, rfl, rfl, rfl, rfl⟩

theorem exec_decompress_frame {s t : State} (h : exec .decompress s = .next t) : StreamFrame (decompressChecked s) t := by
  rcases exec_decompress_next h with ⟨-, hrun⟩ | rfl
  · exact or_self_iff.mp
      (((streamRule_frame (decompressChecked s)).streamRun (streamFrame_initStream _)).of_outcome hrun)
  · exact streamFrame_raise _ _ _

/-! ### WIN beyond the window -/

/-- The window is WIN[0..w), and from `w` on WIN reads as in `s` (10_state.md R43, 42_lzss_decoder.md R167). -/
structure WindowBelow (w : Nat) (s t : State) : Prop where
  size : t.work.w.toNat = w
  cursor : t.work.wcur.toNat < w
  beyond : ∀ x, w ≤ x → t.readWin x = s.readWin x

theorem streamRule_windowBelow {w : Nat} (h0 : 0 < w) (h13 : w ≤ 2 ^ 13) (s : State) :
    StreamRule (WindowBelow w s) fun t => ∀ x, w ≤ x → t.readWin x = s.readWin x where
  advance _ h := ⟨h.size, h.cursor, h.beyond⟩
  toFsm _ h := ⟨h.size, h.cursor, h.beyond⟩
  toMatch _ h := ⟨h.size, h.cursor, h.beyond⟩
  startCopy _ h := ⟨h.size, h.cursor, h.beyond⟩
  afterCopy h := ⟨h.size, h.cursor, h.beyond⟩
  storeBitpos h := ⟨h.size, h.cursor, h.beyond⟩
  finish _ h := h.beyond
  raise e h x hx := (readWin_congr (raise_win _ e true) (raise_winFilled _ e true) (raise_par _ e true) x).trans
    (h.beyond x hx)
  emitted := fun {t} v h => by
    refine ⟨h.size, ?_, fun x hx => ?_⟩
    · exact (windowSucc_toNat h.size h0 h13 _).trans_lt (Nat.mod_lt _ h0)
    · have hcur := h.cursor
      rw [readWin_emitted, if_neg (by omega), h.beyond x hx]

theorem windowBelow_decompressBegun {s : State} (h : s.streamAccepted) :
    WindowBelow (2 ^ s.indexSize) s (decompressBegun s) := by
  obtain ⟨hi, -, hw⟩ := (badParams_eq_false s).mp h.2
  have h13 : 2 ^ s.indexSize ≤ 2 ^ 13 := Nat.pow_le_pow_right (by omega) hi
  refine ⟨?_, ?_, fun x hx => ?_⟩
  · show (BitVec.ofNat 14 (2 ^ s.indexSize)).toNat = _
    rw [BitVec.toNat_ofNat]; omega
  · show (BitVec.ofNat 13 s.initWidx).toNat < _
    rw [BitVec.toNat_ofNat]; omega
  · refine (readWin_fillWin (decompressChecked s) (2 ^ s.indexSize) x).trans ?_
    rw [if_neg (by omega)]
    rfl

/-- Settles O38: the frame holds of every piece of the decoder, and the write cursor never leaves the window. -/
theorem decompressFrame : Obligations.DecompressFrame := by
  unfold Obligations.DecompressFrame
  intro s t h
  have hwin (x : Nat) (hx : 2 ^ s.indexSize ≤ x) : t.readWin x = s.readWin x := by
    rcases exec_decompress_next h with ⟨hok, hrun⟩ | rfl
    · have h13 : 2 ^ s.indexSize ≤ 2 ^ 13 := Nat.pow_le_pow_right (by omega) ((badParams_eq_false s).mp hok.2).1
      exact (((streamRule_windowBelow (Nat.two_pow_pos _) h13 s).streamRun
        (windowBelow_decompressBegun hok)).of_outcome hrun).elim (fun hgo => hgo.beyond x hx) fun hstop => hstop x hx
    · exact readWin_congr (raise_win _ _ _) (raise_winFilled _ _ _) (raise_par _ _ _) x
  obtain ⟨hpar, ⟨st, n, b, hregs⟩, ⟨l, total, brPos, w, wcur, moff, mcnt, optr, fsm, copying, hwork⟩, hdata, hsnap, hin,
    hrep⟩ := exec_decompress_frame h
  exact ⟨hpar, hdata, hsnap, hin, hrep, ⟨st, n, b, hregs⟩,
    ⟨l, total, brPos, w, wcur, moff, mcnt, optr, fsm, copying, hwork⟩, hwin⟩

/-! ### The outcome of DECOMPRESS -/

/-- A command has ended: DONE, or ERROR with OUT_LEN 0 and no OUT byte defined (60_exceptions.md R213, R214). -/
def State.Ended (s : State) : Prop :=
  s.regs.status = .done ∨ (∃ e, s.regs.status = .error e) ∧ s.regs.outLen = 0 ∧ s.out = []

theorem ended_raise (s : State) (e : ErrKind) (b : Bool) : (s.raise e b).Ended :=
  .inr ⟨⟨e, raise_status s e b⟩, raise_outLen s e b, raise_out s e b⟩

theorem State.Ended.status {s : State} (h : s.Ended) : s.regs.status = .done ∨ ∃ e, s.regs.status = .error e :=
  h.imp_right fun he => he.1

theorem State.Ended.not_busy {s : State} (h : s.Ended) : s.isBusy = false := by
  rw [isBusy_eq_false]
  rcases h.status with hst | ⟨e, hst⟩ <;> rw [hst] <;> exact nofun

theorem State.Ended.of_error {s : State} (h : s.Ended) {e : ErrKind} (he : s.regs.status = .error e) :
    s.regs.outLen = 0 ∧ ∀ a, s.readOut a = Config.freeOut s.draws a := by
  rcases h with hdone | ⟨-, hlen, hout⟩
  · rw [hdone] at he; cases he
  · exact ⟨hlen, fun a => by rw [State.readOut, hout]; rfl⟩

/-- A piece of the decoder goes on with the command running, or has ended it. -/
theorem streamRule_ended : StreamRule (fun s => s.regs.status = .busy) State.Ended where
  advance _ h := h
  toFsm _ h := h
  toMatch _ h := h
  startCopy _ h := h
  emitted v h := by rw [emitted_regs]; exact h
  afterCopy h := h
  storeBitpos h := h
  raise e _ := ended_raise _ e true
  finish _ _ := .inl rfl

/-- Settles O24: a cipher raises in its checks alone, and DECOMPRESS writes no DATA byte. -/
theorem errorLeavesData : Obligations.ErrorLeavesData := by
  unfold Obligations.ErrorLeavesData
  intro s t i e _ hi hnop h he
  cases i with
  | nop => exact absurd rfl hnop
  | decryptLegacy =>
    rcases exec_decryptLegacy_next h with ⟨-, rfl⟩ | ⟨-, rfl⟩
    · rw [legacyDone_regs] at he; cases he
    · exact ⟨rfl, rfl, fun a => rfl⟩
  | decryptBlock =>
    rcases exec_decryptBlock_next h with ⟨u, rfl, -⟩ | rfl
    · cases he
    · exact ⟨rfl, rfl, fun a => rfl⟩
  | decompress =>
    refine ⟨(exec_decompress_frame h).data, State.Ended.of_error ?_ he⟩
    rcases exec_decompress_next h with ⟨-, hrun⟩ | rfl
    · refine ((streamRule_ended.streamRun rfl).of_outcome hrun).resolve_left fun hbusy => ?_
      rw [hbusy] at he; cases he
    · exact ended_raise _ _ _
  | _ => cases hi

/-! ### Every instruction -/

/-- What no instruction changes but the outcome, and its own OP if it is a command (10_state.md R35, 60_exceptions.md R211). -/
theorem exec_regs {s t : State} {i : Instr} (h : exec i s = .next t) :
    (∃ st n b, t.regs = { s.regs with
        op := if i.isCommand then opOf i else s.regs.op, status := st, outLen := n, bitpos := b })
      ∧ t.par = s.par ∧ t.inputs = s.inputs ∧ t.replies = s.replies := by
  have token (hi : i.isCommand = false) : StreamFrame s t := by
    rw [exec_token hi, State.onlyAtToken] at h
    cases hat : s.atToken with
    | true =>
      rw [hat, if_pos rfl] at h
      exact or_self_iff.mp (((streamRule_frame s).tokenFlow i (StreamFrame.refl s)).of_outcome h)
    | false => rw [hat, if_neg (by decide)] at h; cases h
  cases i with
  | nop =>
    rw [exec_nop, State.unlessBusy] at h
    split at h
    · cases h
    · cases h
      exact ⟨⟨_, _, _, rfl⟩, rfl, rfl, rfl⟩
  | decryptLegacy =>
    obtain ⟨hpar, -, -, -, -, -, hin, hrep, ⟨_, _, hregs⟩, -⟩ := legacyFrame s t h
    exact ⟨⟨_, _, _, hregs⟩, hpar, hin, hrep⟩
  | decryptBlock =>
    obtain ⟨hpar, -, -, -, -, hin, hrep, ⟨_, _, hregs⟩, -⟩ := blockFrame s t h
    exact ⟨⟨_, _, _, hregs⟩, hpar, hin, hrep⟩
  | decompress =>
    obtain ⟨hpar, -, -, hin, hrep, ⟨_, _, _, hregs⟩, -⟩ := decompressFrame s t h
    exact ⟨⟨_, _, _, hregs⟩, hpar, hin, hrep⟩
  | _ =>
    obtain ⟨hpar, ⟨_, _, _, hregs⟩, -, -, -, hin, hrep⟩ := token rfl
    exact ⟨⟨_, _, _, hregs⟩, hpar, hin, hrep⟩

/-- Settles O22: each instruction's frame keeps the configuration, and a command's first act is to store its OP. -/
theorem configurationIsKept : Obligations.ConfigurationIsKept := by
  unfold Obligations.ConfigurationIsKept
  intro s t i h
  obtain ⟨⟨st, n, b, hregs⟩, hkept⟩ := exec_regs h
  rw [hregs]
  exact ⟨rfl, rfl, rfl, rfl, rfl, rfl, rfl, rfl, rfl, rfl, rfl, hkept⟩

/-- Settles O21: the length check stands before all else in each of the three commands. -/
theorem lengthCheckComesFirst : Obligations.LengthCheckComesFirst := by
  unfold Obligations.LengthCheckComesFirst
  intro s i hb hi hlen
  rcases hi with rfl | rfl | rfl
  · exact ⟨_, exec_decryptLegacy_long hb hlen, rfl, rfl, rfl, rfl, rfl, rfl, fun a => rfl⟩
  · exact ⟨_, exec_decryptBlock_rejected hb fun h => Nat.not_le_of_lt hlen h.1, rfl, rfl, rfl, rfl, rfl, rfl,
      fun a => rfl⟩
  · refine ⟨_, exec_decompress_rejected hb fun h => Nat.not_le_of_lt hlen h.1, ?_⟩
    rw [raise_stream _ _ _ rfl]
    exact ⟨rfl, rfl, rfl, rfl, rfl, rfl, fun a => rfl⟩

/-! ### A command word as an input -/

/-- A CMD write run as one transaction is refused while a command runs (70_reset_and_hazards.md R250). -/
theorem step_command {s : State} {v : Word} {es : List Event} (h : s.inputs = .command v :: es) :
    step s = s.unlessBusy (exec (decodeCommand v) { s with inputs := es }) := by
  simp only [step, nextStep, h, Event.needsIdle, runEvent, if_true]

/-- Settles O15: past the guard for BUSY the step is the command's meaning. -/
theorem stepRunsCommand : Obligations.StepRunsCommand := by
  unfold Obligations.StepRunsCommand
  intro s v es hin hb
  rw [step_command hin, unlessBusy_idle hb]

theorem decodeCommand_isCommand (v : Word) : (decodeCommand v).isCommand = true := by
  unfold decodeCommand
  split <;> rfl

/-- CMD reads as the low bits of the word that selected the command (10_state.md R23, 30_encoding.md R80). -/
theorem fieldAt_opOf_decodeCommand (v : Word) : fieldAt 0 (opOf (decodeCommand v)) = v &&& 3 := by
  have hlow : (v &&& 3).toNat = v.toNat % 4 := by
    rw [BitVec.toNat_and]
    exact Nat.and_two_pow_sub_one_eq_mod v.toNat 2
  have hlt := Nat.mod_lt v.toNat (show 0 < 4 by decide)
  apply BitVec.eq_of_toNat_eq
  rw [hlow]
  unfold decodeCommand
  generalize v.toNat % 4 = low at hlt
  interval_cases low <;> rfl

/-- The initial step of a command but NOP: its registers are set, and it runs or has failed its checks (60_exceptions.md R211,
R216, R217). -/
theorem startOnly_started {i : Instr} (hi : i.isCommand = true) (hnop : i ≠ .nop) (s : State) :
    ∃ t, (startOnly i s).outcome = .next t ∧ t.regs.op = opOf i ∧ t.regs.outLen = 0
      ∧ (t.regs.status = .busy ∨ t.regs.status = .error .outOfRange) ∧ t.work.l = s.regs.inLen ∧ t.data = s.data := by
  cases i with
  | nop => exact absurd rfl hnop
  | decryptLegacy =>
    rcases Nat.lt_or_ge s.par.inCapacity s.regs.inLen.toNat with hlen | hlen
    · exact ⟨_, congrArg Flow.outcome (beginLegacy_long hlen), rfl, rfl, .inr rfl, rfl, rfl⟩
    · exact ⟨_, congrArg Flow.outcome (beginLegacy_ok hlen), rfl, rfl, .inl rfl, rfl, rfl⟩
  | decryptBlock =>
    by_cases hok : s.blockAccepted
    · exact ⟨_, congrArg Flow.outcome (beginBlock_ok hok.1 hok.2), rfl, rfl, .inl rfl, rfl, rfl⟩
    · exact ⟨_, congrArg Flow.outcome (beginBlock_rejected hok), rfl, rfl, .inr rfl, rfl, rfl⟩
  | decompress =>
    by_cases hok : s.streamAccepted
    · exact ⟨_, congrArg Flow.outcome (beginDecompress_accepted hok), rfl, rfl, .inl rfl, rfl, rfl⟩
    · refine ⟨_, congrArg Flow.outcome (beginDecompress_rejected hok), ?_⟩
      rw [raise_stream _ _ _ rfl]
      exact ⟨rfl, rfl, .inr rfl, rfl, rfl⟩
  | _ => cases hi

/-- Settles O20: NOP stores OP alone, the initial step of the others sets the registers before its checks, and the transaction
leaves its command's OP. -/
theorem commandWriteStoresOp : Obligations.CommandWriteStoresOp := by
  unfold Obligations.CommandWriteStoresOp
  intro s v es hb
  have hop := fieldAt_opOf_decodeCommand v
  refine ⟨fun hin => ?_, fun hin t ht => ?_⟩
  · rw [step_writeReg hin, unlessBusy_idle hb, hostWriteReg_cmd]
    by_cases hnop : decodeCommand v = .nop
    · rw [hnop] at hop ⊢
      exact ⟨_, rfl, hop, fun _ => rfl, fun hne => absurd hop.symm hne⟩
    · obtain ⟨t, hstart, hopt, hout, hstatus, hlen, hdata⟩ :=
        startOnly_started (decodeCommand_isCommand v) hnop { s with inputs := es }
      refine ⟨t, hstart, (congrArg (fieldAt 0) hopt).trans hop, fun h0 => absurd ?_ hnop,
        fun _ => ⟨hout, hstatus, hlen, hdata⟩⟩
      exact (commandWordDecoding v).1 h0
  · rw [step_command hin, unlessBusy_idle hb] at ht
    obtain ⟨⟨_, _, _, hregs⟩, -⟩ := exec_regs ht
    rw [decodeCommand_isCommand] at hregs
    exact (congrArg (Regs.read · 0x00) hregs).trans hop

end Sys2Proof.Machine
end

section
/-! PROOFS. The tokens at READ_CONTROL: their reads, what each does where its bits can be read and OUT has room, and where each
fails (42_lzss_decoder.md R173 to R175, 60_exceptions.md R215). -/

namespace Sys2Proof.Machine

/-! ### At a token -/

theorem atToken_iff (s : State) :
    s.atToken = true ↔ s.isBusy = true ∧ s.regs.op = 3 ∧ s.work.fsm = .readControl := by
  simp only [State.atToken, Bool.and_eq_true, decide_eq_true_eq, and_assoc]

theorem exec_atToken {s : State} (h : s.atToken = true) {i : Instr} (hi : i.isCommand = false) :
    exec i s = (tokenFlow i s).outcome := by
  rw [exec_token hi, onlyAtToken_of_atToken h]

theorem State.StreamInv.copying_eq_false {s : State} (h : s.StreamInv) (hf : s.work.fsm = .readControl) :
    s.work.copying = false := by
  refine Bool.eq_false_of_not_eq_true fun hc => ?_
  rw [(h.copyLoop hc).1] at hf
  cases hf

/-- The next `n` bits pass the last one and are not made up (30_encoding.md R96). -/
abbrev State.cutShort (s : State) (n : Nat) : Prop :=
  s.par.pastEnd = .failFast ∧ s.work.total.toNat < s.work.brPos.toNat + n

/-- The command ends in ERROR with `e`, OUT_LEN 0 and LZ_BITPOS `p` (60_exceptions.md R214, R215). -/
def Flow.FailsAt (x : Flow) (e : ErrKind) (p : Nat) : Prop :=
  ∃ t, x.outcome = .next t ∧ t.regs.status = .error e ∧ t.regs.outLen = 0 ∧ t.regs.bitpos.toNat = p

theorem failsAt_raise {s : State} (hop : s.regs.op = 3) (e : ErrKind) {p : Nat} (hp : s.work.brPos.toNat = p) :
    (Flow.stop (s.raise e true)).FailsAt e p :=
  ⟨_, rfl, raise_status s e true, raise_outLen s e true, by rw [raise_stream s e true hop]; exact hp⟩

theorem failsAt_skipBits {s : State} (hop : s.regs.op = 3) {n p : Nat} (h : s.cutShort n) (hp : s.work.brPos.toNat = p)
    (k : State → Flow) : (s.skipBits n k).FailsAt .formatInvalid p := by
  rw [skipBits_short h.1 h.2]
  exact failsAt_raise hop _ hp

/-- Two reads one after the other, the second at the latest past the end: the failing one is the first that does not fit
(42_lzss_decoder.md R173 to R175). -/
theorem failsAt_skipBits_twice {s u : State} (hop : s.regs.op = 3) {a b : Nat} {k g : State → Flow}
    (hp : s.par.pastEnd = .failFast) (hcut : s.work.total.toNat < s.work.brPos.toNat + a + b)
    (hk : k (s.advance a) = u.skipBits b g) (hregs : u.regs = s.regs) (hpar : u.par = s.par)
    (hcur : u.work.brPos = (s.advance a).work.brPos) (htotal : u.work.total = s.work.total) :
    (s.skipBits a k).FailsAt .formatInvalid
      (if s.work.total.toNat < s.work.brPos.toNat + a then s.work.brPos.toNat else s.work.brPos.toNat + a) := by
  by_cases ha : s.work.total.toNat < s.work.brPos.toNat + a
  · rw [if_pos ha]
    exact failsAt_skipBits hop ⟨hp, ha⟩ rfl k
  · have hcur' : u.work.brPos.toNat = s.work.brPos.toNat + a := by rw [hcur, advance_cursor_le (by omega)]
    rw [if_neg ha, skipBits_ok (by omega), hk]
    exact failsAt_skipBits (by rw [hregs]; exact hop) ⟨by rw [hpar]; exact hp, by rw [hcur', htotal]; exact hcut⟩ hcur' g

/-- A read of one bit fails at the end of the stream alone. -/
theorem ite_lt_succ_eq_min {p total : Nat} (h : p ≤ total) :
    (if total < p + 1 then p else p + 1) = min (p + 1) total := by
  split <;> omega

section
variable {s : State} (hinv : s.Inv) (ht : s.atToken = true)

/-! ### LIT -/

/-- The state in which a literal at `s` is emitted: its bits are behind the cursor (42_lzss_decoder.md R165). -/
def litEntered (s : State) : State :=
  (s.toFsm .emitLiteral).seek (min (s.work.brPos.toNat + 9) s.work.total.toNat)

include hinv ht

theorem exec_lit (v : Byte) (hread : s.canRead 9) : exec (.lit v) s = (putLiteral v (litEntered s)).outcome := by
  have hle := (hinv.streamInv ht).cursor
  rw [exec_atToken ht rfl, tokenFlow, skipBits_seek (canRead_mono hread (by decide)) hle]
  exact congrArg Flow.outcome (skipBits_of_seek (s := s.toFsm .emitLiteral) (a := 1) (b := 8) hread (putLiteral v))

omit hinv ht in
theorem litEntered_brPos (s : State) :
    (litEntered s).work.brPos.toNat = min (s.work.brPos.toNat + 9) s.work.total.toNat :=
  seek_brPos (by have := s.work.total.isLt; omega)

theorem exec_lit_room (v : Byte) (hread : s.canRead 9) (hroom : s.work.optr.toNat < s.par.outCapacity) :
    exec (.lit v) s = .next (((litEntered s).emitted v).toFsm .readControl) := by
  have hne : (litEntered s).work.optr.toNat ≠ (litEntered s).par.outCapacity := Nat.ne_of_lt hroom
  rw [exec_lit hinv ht v hread, putLiteral, emit_room hne]
  rfl

end

/-- Settles O46: the literal is emitted once its bits are read, and Emit writes one byte of OUT and one of WIN. -/
theorem literalResult : Obligations.LiteralResult := by
  unfold Obligations.LiteralResult
  intro s v hinv ht hread hroom
  have hS := hinv.streamInv ht
  have hcap := hinv.par.2.2
  have hready := ((atToken_iff s).mp ht).2.2
  refine ⟨_, exec_lit_room hinv ht v hread hroom, word_succ rfl (by show s.work.optr.toNat + 1 < _; omega),
    windowSucc_toNat hS.windowSize (Nat.two_pow_pos _) hS.w13 _, litEntered_brPos s, readOut_emitted (litEntered s) v,
    readWin_emitted (litEntered s) v, emitted_regs _ v, emitted_data _ v, emitted_snap _ v, emitted_draws _ v,
    emitted_par _ v, emitted_inputs _ v, emitted_replies _ v, ?_⟩
  rw [toFsm_work, emitted_work, ← hready]
  rfl

/-- Settles O47: the control bit's read or the value's fails, or the byte is not emitted once both are read. -/
theorem literalErrors : Obligations.LiteralErrors := by
  unfold Obligations.LiteralErrors
  intro s v hinv ht
  have hle := (hinv.streamInv ht).cursor
  have hop := ((atToken_iff s).mp ht).2.1
  refine ⟨fun hp hcut => ?_, fun hread hfull => ?_⟩
  · rw [exec_atToken ht rfl, ← ite_lt_succ_eq_min hle]
    exact failsAt_skipBits_twice hop hp hcut (k := fun s => (s.toFsm .emitLiteral).skipBits 8 (putLiteral v)) rfl rfl rfl
      rfl rfl
  · rw [exec_lit hinv ht v hread, putLiteral, emit_full (s := litEntered s) hfull]
    exact failsAt_raise (s := litEntered s) hop _ (litEntered_brPos s)

/-! ### MATCH -/

theorem matchEntered_brPos (s : State) (off : Nat) : (matchEntered s off).work.brPos.toNat =
    min (s.work.brPos.toNat + (1 + s.indexSize + s.lengthSize)) s.work.total.toNat :=
  seek_brPos (s := s.toMatch off) (by have := s.work.total.isLt; omega)

theorem matchEntered_moff {s : State} (hS : s.StreamInv) {off : Nat} (hoff : off < 2 ^ s.indexSize) :
    (matchEntered s off).work.moff.toNat = off := by
  have hw13 := hS.w13
  show (BitVec.ofNat 13 off).toNat = off
  rw [BitVec.toNat_ofNat, Nat.mod_eq_of_lt (by omega)]

/-- A match copies fewer bytes than its register counts (42_lzss_decoder.md R166). -/
theorem matchCount_lt {s : State} (hS : s.StreamInv) {len : Nat} (hlen : len < 2 ^ s.lengthSize) :
    len + s.minLength < 2 ^ 32 := by
  have hml : s.minLength < 2 ^ 8 := s.regs.minLength.isLt
  have hls : 2 ^ s.lengthSize ≤ 2 ^ 16 := Nat.pow_le_pow_right (by decide) hS.lengthSize
  omega

section
variable (s : State) (p off n i : Nat)

@[simp] theorem seek_par : (s.seek p).par = s.par := rfl
@[simp] theorem seek_out : (s.seek p).out = s.out := rfl
@[simp] theorem seek_win : (s.seek p).win = s.win := rfl
@[simp] theorem seek_winFilled : (s.seek p).winFilled = s.winFilled := rfl
@[simp] theorem seek_draws : (s.seek p).draws = s.draws := rfl
@[simp] theorem seek_optr : (s.seek p).work.optr = s.work.optr := rfl
@[simp] theorem seek_wcur : (s.seek p).work.wcur = s.work.wcur := rfl

@[simp] theorem startCopy_optr : (startCopy n s).work.optr = s.work.optr := rfl
@[simp] theorem startCopy_wcur : (startCopy n s).work.wcur = s.work.wcur := rfl

theorem copyStart_optr : (startCopy n (matchEntered s off)).work.optr = s.work.optr := by simp [matchEntered]
theorem copyStart_wcur : (startCopy n (matchEntered s off)).work.wcur = s.work.wcur := by simp [matchEntered]

theorem readOut_copyStart : (startCopy n (matchEntered s off)).readOut i = s.readOut i :=
  readOut_congr (by simp [matchEntered]) (by simp [matchEntered]) i

theorem readWin_copyStart : (startCopy n (matchEntered s off)).readWin i = s.readWin i :=
  readWin_congr (by simp [matchEntered]) (by simp [matchEntered]) (by simp [matchEntered]) i

end

/-- Settles O48: the fields are read, and the rest is what so many copies with room do. -/
theorem matchResult : Obligations.MatchResult := by
  unfold Obligations.MatchResult
  intro s off len hinv ht hwf hread hroom
  obtain ⟨⟨-, hoff : off < 2 ^ s.indexSize⟩, hlen⟩ := Instr.wf_matchCopy.mp hwf
  have hS := hinv.streamInv ht
  have hready := ((atToken_iff s).mp ht).2.2
  have hcopying := hS.copying_eq_false hready
  have hE := matchEntered_streamInv hS hoff
  have hn := matchCount_lt hS hlen
  have hmoff := matchEntered_moff hS hoff
  have hbr := matchEntered_brPos s off
  have hexec := exec_matchCopy (off := off) (len := len) hS ht hread
  generalize len + s.minLength = n at hn hroom hexec
  have hmcnt : (startCopy n (matchEntered s off)).work.mcnt.toNat = n := ofNat_toNat_lt hn
  obtain ⟨hrun, hoptr, hwcur, -, -, hwork, hframe, hout, houtKept, hwin, hwinKept⟩ := copied_iterate (Nat.two_pow_pos _)
    hE.w13 n (startCopy n (matchEntered s off)) hE.windowSize hmcnt.ge (Nat.lt_of_le_of_lt hinv.par.2.2 (by decide)) hroom
    hE.wcur_lt (hE.matchOffset rfl)
  have hfsm : (copied^[n] (startCopy n (matchEntered s off))).work.fsm = .readControl := by
    rw [hwork]
    by_cases h0 : n = 0
    · subst h0; rfl
    · simp only [if_neg h0, if_pos hmcnt.symm]
  have hcopy : (copied^[n] (startCopy n (matchEntered s off))).work.copying = false := by
    rw [hwork]
    by_cases h0 : n = 0
    · subst h0; rfl
    · simp only [if_neg h0, hmcnt, ne_eq, not_true_eq_false, decide_false]
  have hstart : (copyMatch n (matchEntered s off)).outcome = .next (copied^[n] (startCopy n (matchEntered s off))) := by
    rw [copyMatch, hmcnt, hrun, Flow.outcome_go]
  have hmoff' : (startCopy n (matchEntered s off)).work.moff.toNat = off := hmoff
  rw [hmoff'] at hout
  simp only [copyStart_optr, copyStart_wcur, readOut_copyStart, readWin_copyStart] at hoptr hwcur hout houtKept hwin hwinKept
  generalize copied^[n] (startCopy n (matchEntered s off)) = t at *
  have hcur : t.work.brPos = (matchEntered s off).work.brPos := by rw [hwork]; rfl
  have hkept : t.work = { s.work with
      brPos := t.work.brPos, optr := t.work.optr, wcur := t.work.wcur, moff := t.work.moff, mcnt := t.work.mcnt
      fsm := t.work.fsm, copying := t.work.copying } := by
    rw [hwork]
    rfl
  rw [hfsm, hcopy, ← hready, ← hcopying] at hkept
  exact ⟨t, hexec.trans hstart, hoptr, hwcur, by rw [hcur, hbr], hout, houtKept, hwin, hwinKept, hfsm,
    by rw [hframe]; rfl, by rw [hframe]; rfl, by rw [hframe]; rfl, by rw [hframe]; rfl, by rw [hframe]; rfl,
    by rw [hframe]; rfl, by rw [hframe]; rfl, hkept⟩

/-- Copies leave the registers and the cursor alone. -/
theorem copied_iterate_regs (n : Nat) (s : State) :
    (copied^[n] s).regs = s.regs ∧ (copied^[n] s).work.brPos = s.work.brPos := by
  induction n with
  | zero => exact ⟨rfl, rfl⟩
  | succ n ih =>
    rw [Function.iterate_succ_apply']
    refine ⟨Eq.trans ?_ ih.1, ih.2⟩
    rw [copied_frame]

/-- Settles O49: one of the three reads fails, or the copy that OUT has no room for does. -/
theorem matchErrors : Obligations.MatchErrors := by
  unfold Obligations.MatchErrors
  intro s off len hinv ht hwf
  obtain ⟨⟨-, hoff : off < 2 ^ s.indexSize⟩, hlen⟩ := Instr.wf_matchCopy.mp hwf
  have hS := hinv.streamInv ht
  have hop := ((atToken_iff s).mp ht).2.1
  refine ⟨fun hp hcut => ?_, fun hread hfull => ?_⟩
  · rw [exec_atToken ht rfl, tokenFlow]
    by_cases h1 : s.work.total.toNat < s.work.brPos.toNat + 1
    · rw [if_pos h1]
      exact failsAt_skipBits hop ⟨hp, h1⟩ rfl _
    · have hcur := advance_cursor_le (s := s) (n := 1) (by omega)
      rw [if_neg h1, skipBits_ok (by omega), ← hcur]
      exact failsAt_skipBits_twice (s := s.advance 1) (a := s.indexSize) (b := s.lengthSize) hop hp
        (by show s.work.total.toNat < _; rw [hcur]; omega) rfl rfl rfl rfl rfl
  · have hn := matchCount_lt hS hlen
    rw [exec_matchCopy hS ht hread]
    rcases copyMatch_cases (matchEntered_streamInv hS hoff) hinv.par rfl hn with ⟨hroom, -⟩ | ⟨-, m, u, hrun, rfl, -⟩
    · exact absurd hroom (Nat.not_le_of_lt hfull)
    · obtain ⟨hregs, hcur⟩ := copied_iterate_regs m (startCopy (len + s.minLength) (matchEntered s off))
      rw [hrun]
      exact failsAt_raise (by rw [hregs]; exact hop) _ (by rw [hcur]; exact matchEntered_brPos s off)

/-! ### END -/

/-- The state in which END at `s` takes effect: its bits are behind the cursor (42_lzss_decoder.md R175). -/
def endEntered (s : State) : State :=
  (s.seek (min (s.work.brPos.toNat + (1 + s.indexSize)) s.work.total.toNat)).toFsm .terminated

theorem exec_endMark {s : State} (hS : s.StreamInv) (ht : s.atToken = true) (hread : s.canRead (1 + s.indexSize)) :
    exec .endMark s = (terminated (endEntered s)).outcome := by
  rw [exec_atToken ht rfl, tokenFlow, skipBits_seek (canRead_mono hread (by omega)) hS.cursor]
  exact congrArg Flow.outcome (skipBits_of_seek (s := s) hread fun s => terminated (s.toFsm .terminated))

theorem endEntered_brPos (s : State) :
    (endEntered s).work.brPos.toNat = min (s.work.brPos.toNat + (1 + s.indexSize)) s.work.total.toNat :=
  seek_brPos (s := s) (by have := s.work.total.isLt; omega)

/-- Settles O51: TERMINATED records the cursor, and whether it is at the end tells DONE from FORMAT_INVALID. -/
theorem endResult : Obligations.EndResult := by
  unfold Obligations.EndResult
  intro s hinv ht hread
  have hop := ((atToken_iff s).mp ht).2.1
  have hbr := endEntered_brPos s
  rw [exec_endMark (hinv.streamInv ht) ht hread, terminated_outcome]
  by_cases hend : s.work.total.toNat ≤ s.work.brPos.toNat + (1 + s.indexSize)
  · have heq : (endEntered s).work.brPos = s.work.total := BitVec.eq_of_toNat_eq (by rw [hbr]; omega)
    refine ⟨_, congrArg _ (if_pos heq), hbr, fun _ => ⟨?_, rfl, rfl, rfl⟩, fun hlt => absurd hend (by omega), rfl, rfl, rfl,
      rfl, rfl, rfl, rfl, rfl⟩
    rw [← heq]
    rfl
  · have hne : (endEntered s).work.brPos ≠ s.work.total := fun heq => by rw [heq] at hbr; omega
    refine ⟨_, congrArg _ (if_neg hne), ?_⟩
    rw [raise_stream (endEntered s).storeBitpos _ _ hop]
    exact ⟨hbr, fun hle => absurd hle hend, fun _ => ⟨rfl, rfl, fun i => rfl⟩, rfl, rfl, rfl, rfl, rfl, rfl, rfl, rfl⟩

/-- Settles O52: the control bit's read or the index's fails. -/
theorem endCutOff : Obligations.EndCutOff := by
  unfold Obligations.EndCutOff
  intro s hinv ht hp hcut
  have hop := ((atToken_iff s).mp ht).2.1
  rw [exec_atToken ht rfl, ← ite_lt_succ_eq_min (hinv.streamInv ht).cursor]
  exact failsAt_skipBits_twice hop hp (by rw [Nat.add_assoc]; exact hcut)
    (k := fun s => s.skipBits s.indexSize fun s => terminated (s.toFsm .terminated)) rfl rfl rfl rfl rfl

end Sys2Proof.Machine
end

section
/-! PROOFS. The decoder's micro-steps (42_lzss_decoder.md R164 to R171, R185): what each can do under the invariant of the
stream, that a turn of the token loop is so many of them, and that they come to an end (R178). -/

namespace Sys2Proof.Machine

/-! ### What a micro-step can do -/

/-- How a micro-step of the decoder goes on. -/
inductive StreamMove (s : State) : State → Prop
  | literal (p : Nat) (hf : s.work.fsm = .readControl) (h : s.work.brPos.toNat < p) (hp : p ≤ s.work.total.toNat) :
      StreamMove s ((s.seek p).toFsm .emitLiteral)
  | endMark (p : Nat) (hf : s.work.fsm = .readControl) (h : s.work.brPos.toNat ≤ p) (hp : p ≤ s.work.total.toNat)
      (hbit : s.par.pastEnd = .failFast → s.work.brPos.toNat < s.work.total.toNat) :
      StreamMove s ((s.seek p).toFsm .terminated)
  | index (p off : Nat) (hf : s.work.fsm = .readControl) (h : s.work.brPos.toNat < p) (hp : p ≤ s.work.total.toNat)
      (hoff : off < 2 ^ s.indexSize) : StreamMove s ((s.seek p).toMatch off)
  | byte (p : Nat) (v : Byte) (hf : s.work.fsm = .emitLiteral) (h : s.work.brPos.toNat ≤ p) (hp : p ≤ s.work.total.toNat)
      (hroom : s.work.optr.toNat ≠ s.par.outCapacity) : StreamMove s (((s.seek p).emitted v).toFsm .readControl)
  | length (p n : Nat) (hf : s.work.fsm = .emitMatch) (hc : s.work.copying = false) (h : s.work.brPos.toNat ≤ p)
      (hp : p ≤ s.work.total.toNat) (hn : n < 2 ^ 32) : StreamMove s (startCopy n (s.seek p))
  | copy (hf : s.work.fsm = .emitMatch) (hc : s.work.copying = true) (hroom : s.work.optr.toNat ≠ s.par.outCapacity) :
      StreamMove s (copied s)

/-- How a micro-step of the decoder ends the command. -/
inductive StreamStop (s : State) : State → Prop
  | raise (p : Nat) (e : ErrKind) (hp : p ≤ s.work.total.toNat) : StreamStop s ((s.seek p).raise e true)
  | done (hf : s.work.fsm = .terminated) (h : s.work.brPos = s.work.total) :
      StreamStop s (s.storeBitpos.finish s.work.optr)
  | bitsLeft (hf : s.work.fsm = .terminated) (h : s.work.brPos ≠ s.work.total) :
      StreamStop s (s.storeBitpos.raise .formatInvalid true)

theorem seek_self (s : State) : s.seek s.work.brPos.toNat = s := by
  rw [State.seek, BitVec.ofNat_toNat, BitVec.setWidth_eq]

/-- A read from a cursor inside the stream: a raise there, or a value of so many bits and a cursor no further than the end. -/
theorem leads_withBits {P Q : State → Prop} {s : State} (hle : s.work.brPos.toNat ≤ s.work.total.toNat) (n : Nat)
    {k : Nat → State → Flow} (hraise : Q (s.raise .formatInvalid true))
    (hk : ∀ v p, v < 2 ^ n → s.work.brPos.toNat ≤ p → p ≤ s.work.total.toNat → (k v (s.seek p)).Leads P Q) :
    (s.withBits n k).Leads P Q := by
  rcases withBits_spec s n k hle with ⟨-, -, e⟩ | ⟨-, e⟩ <;> rw [e]
  · exact hraise
  · have hv := natOfBits_lt (s.paddedBits n)
    rw [paddedBits_length] at hv
    exact hk _ _ hv (by omega) (by omega)

theorem leads_emit {P Q : State → Prop} {s : State} (v : Byte) {k : State → Flow}
    (hraise : Q (s.raise .resourceExhaustion true))
    (hk : s.work.optr.toNat ≠ s.par.outCapacity → (k (s.emitted v)).Leads P Q) : (s.emit v k).Leads P Q := by
  by_cases hfull : s.work.optr.toNat = s.par.outCapacity
  · rw [emit_full hfull]
    exact hraise
  · rw [emit_room hfull]
    exact hk hfull

section
variable {s : State}

theorem lzssStep_readControl (hf : s.work.fsm = .readControl) : lzssStep s = readControl s := by
  rw [lzssStep, hf]

theorem lzssStep_emitLiteral (hf : s.work.fsm = .emitLiteral) : lzssStep s = emitLiteral s := by
  rw [lzssStep, hf]

theorem lzssStep_enterMatch (hf : s.work.fsm = .emitMatch) (hc : s.work.copying = false) :
    lzssStep s = enterMatch s := by
  rw [lzssStep, hf, hc]
  rfl

theorem lzssStep_copyStep (hf : s.work.fsm = .emitMatch) (hc : s.work.copying = true) : lzssStep s = copyStep s := by
  rw [lzssStep, hf, hc]
  rfl

theorem lzssStep_terminated (hf : s.work.fsm = .terminated) : lzssStep s = terminated s := by
  rw [lzssStep, hf]

end

section
variable {s : State} (hS : s.StreamInv)
include hS

theorem readControl_moves (hf : s.work.fsm = .readControl) : (readControl s).Leads (StreamMove s) (StreamStop s) := by
  have htotal := s.work.total.isLt
  have hcut (hp : s.par.pastEnd = .failFast) (hend : ¬ s.work.brPos.toNat < s.work.total.toNat) :
      readControl s = .stop (s.raise .formatInvalid true) := withBits_short hp (by omega) _
  rcases readControl_cases hS.cursor with ⟨p, hp, -, e⟩ | ⟨hlt, e⟩ | ⟨p, hp, e⟩ | ⟨p, off, hlt, hp, -, hoff, e⟩
  · rw [e]
    exact StreamStop.raise p _ hp
  · rw [e]
    exact StreamMove.literal _ hf (Nat.lt_succ_self _) hlt
  · have hmono : (readControl s).Leads (fun t => s.work.brPos.toNat ≤ t.work.brPos.toNat) fun _ => True := by
      refine leads_withBits hS.cursor 1 trivial fun c q _ hle hq => ?_
      have hcur : (s.seek q).work.brPos.toNat = q := seek_brPos (by omega)
      split
      · exact hle.trans_eq hcur.symm
      · refine leads_withBits (by rw [hcur]; exact hq) _ trivial fun off r _ hle' hr => ?_
        have hcur' : ((s.seek q).seek r).work.brPos.toNat = r := seek_brPos (Nat.lt_of_le_of_lt hr htotal)
        have hmove : s.work.brPos.toNat ≤ ((s.seek q).seek r).work.brPos.toNat := by omega
        split <;> exact hmove
    have hbit (hp : s.par.pastEnd = .failFast) : s.work.brPos.toNat < s.work.total.toNat := by
      by_contra hend
      rw [hcut hp hend] at e
      cases e
    rw [e] at hmono ⊢
    exact StreamMove.endMark p hf (hmono.trans_eq (seek_brPos (s := s) (by omega))) hp hbit
  · rw [e]
    exact StreamMove.index p off hf hlt hp hoff

theorem lzssStep_moves : (lzssStep s).Leads (StreamMove s) (StreamStop s) := by
  have hself (e : ErrKind) : StreamStop s (s.raise e true) := by
    have hraise := StreamStop.raise (s := s) s.work.brPos.toNat e hS.cursor
    rwa [seek_self] at hraise
  cases hf : s.work.fsm with
  | readControl =>
    rw [lzssStep_readControl hf]
    exact readControl_moves hS hf
  | emitLiteral =>
    rw [lzssStep_emitLiteral hf]
    exact leads_withBits hS.cursor 8 (hself _) fun v p _ hle hp =>
      leads_emit _ (StreamStop.raise p _ hp) fun hroom => StreamMove.byte p _ hf hle hp hroom
  | emitMatch =>
    cases hc : s.work.copying with
    | true =>
      rw [lzssStep_copyStep hf hc]
      exact leads_emit _ (hself _) fun hroom => StreamMove.copy hf hc hroom
    | false =>
      rw [lzssStep_enterMatch hf hc]
      exact leads_withBits hS.cursor _ (hself _) fun v p hv hle hp =>
        StreamMove.length p _ hf hc hle hp (matchCount_lt hS hv)
  | terminated =>
    rw [lzssStep_terminated hf, terminated]
    by_cases hend : s.work.brPos = s.work.total
    · exact (if_pos hend).symm ▸ StreamStop.done hf hend
    · exact (if_neg hend).symm ▸ StreamStop.bitsLeft hf hend
  | invalid => exact absurd hf hS.notInvalid

end

/-! ### What a micro-step keeps -/

/-- What a move of the decoder changes: its cursors, OUT and WIN. -/
structure StreamKept (s t : State) : Prop where
  frame : t = { s with out := t.out, win := t.win, work := t.work }
  length : t.work.l = s.work.l
  total : t.work.total = s.work.total

theorem StreamKept.regs {s t : State} (h : StreamKept s t) : t.regs = s.regs := by rw [h.frame]
theorem StreamKept.par {s t : State} (h : StreamKept s t) : t.par = s.par := by rw [h.frame]

section
variable {s t : State} (h : StreamMove s t)
include h

theorem StreamMove.kept : StreamKept s t := by
  cases h with
  | literal => exact ⟨rfl, rfl, rfl⟩
  | endMark => exact ⟨rfl, rfl, rfl⟩
  | index => exact ⟨rfl, rfl, rfl⟩
  | byte p v =>
    refine ⟨?_, rfl, rfl⟩
    conv_lhs => rw [State.toFsm, emitted_frame]
    rfl
  | length => exact ⟨rfl, rfl, rfl⟩
  | copy => exact ⟨copied_frame s, rfl, rfl⟩

/-- The cursor after a move, and that it has moved on if the first bit of a literal or a match was read. -/
theorem StreamMove.cursor : s.work.brPos.toNat ≤ t.work.brPos.toNat
    ∧ (s.work.fsm = .readControl → t.work.fsm ≠ .terminated → s.work.brPos.toNat < t.work.brPos.toNat) := by
  have htotal := s.work.total.isLt
  have hseek {p : Nat} (hp : p ≤ s.work.total.toNat) : (s.seek p).work.brPos.toNat = p := seek_brPos (by omega)
  cases h with
  | literal p hf hlt hp => exact ⟨(Nat.le_of_lt hlt).trans_eq (hseek hp).symm, fun _ _ => hlt.trans_eq (hseek hp).symm⟩
  | endMark p hf hle hp hbit => exact ⟨hle.trans_eq (hseek hp).symm, fun _ hne => absurd rfl hne⟩
  | index p off hf hlt hp => exact ⟨(Nat.le_of_lt hlt).trans_eq (hseek hp).symm, fun _ _ => hlt.trans_eq (hseek hp).symm⟩
  | byte p v hf hle hp => exact ⟨hle.trans_eq (hseek hp).symm, fun hr => by rw [hf] at hr; cases hr⟩
  | length p n hf hc hle hp => exact ⟨hle.trans_eq (hseek hp).symm, fun hr => by rw [hf] at hr; cases hr⟩
  | copy hf => exact ⟨Nat.le_refl _, fun hr => by rw [hf] at hr; cases hr⟩

theorem StreamMove.streamInv (hS : s.StreamInv) (hp : s.par.wf) : t.StreamInv := by
  have htotal := s.work.total.isLt
  have hcur {p : Nat} (hle : p ≤ s.work.total.toNat) : (BitVec.ofNat 32 p).toNat ≤ s.work.total.toNat :=
    (ofNat_toNat_lt (by omega)).trans_le hle
  have hseek {p : Nat} (hle : p ≤ s.work.total.toNat) : (s.seek p).StreamInv :=
    hS.cursorFsm _ s.work.moff s.work.mcnt s.work.fsm s.work.copying rfl (hcur hle) hS.notInvalid hS.matchOffset hS.copyLoop
  have hidle (hne : s.work.fsm ≠ .emitMatch) {q : Prop} (hc : s.work.copying = true) : q := absurd (hS.copyLoop hc).1 hne
  cases h with
  | literal p hf hlt hle =>
    exact hS.cursorFsm _ s.work.moff s.work.mcnt .emitLiteral s.work.copying rfl (hcur hle) nofun nofun
      (hidle (by rw [hf]; decide))
  | endMark p hf hge hle hbit =>
    exact hS.cursorFsm _ s.work.moff s.work.mcnt .terminated s.work.copying rfl (hcur hle) nofun nofun
      (hidle (by rw [hf]; decide))
  | index p off hf hlt hle hoff =>
    have hw13 := hS.w13
    refine hS.cursorFsm _ (BitVec.ofNat 13 off) s.work.mcnt .emitMatch false rfl (hcur hle) nofun (fun _ => ?_) nofun
    rwa [BitVec.toNat_ofNat, Nat.mod_eq_of_lt (by omega)]
  | byte p v hf hge hle hroom =>
    have hE := (hseek hle).emit hp hroom v
    exact hE.cursorFsm _ s.work.moff s.work.mcnt .readControl s.work.copying rfl hE.cursor nofun nofun
      (hidle (by rw [hf]; decide))
  | length p n hf hc hge hle hn =>
    refine hS.cursorFsm _ s.work.moff (BitVec.ofNat 32 n) (if n = 0 then .readControl else .emitMatch) (decide (n ≠ 0)) rfl
      (hcur hle) (by split <;> exact nofun) (fun _ => hS.matchOffset hf) fun hn0 => ?_
    have hne : n ≠ 0 := of_decide_eq_true hn0
    exact ⟨if_neg hne, fun hz => hne ((ofNat_toNat_lt hn).symm.trans (congrArg BitVec.toNat hz))⟩
  | copy hf hc hroom =>
    have hE := hS.emit hp hroom (s.readWin s.work.moff.toNat)
    have hmoff : (s.windowSucc s.work.moff).toNat < 2 ^ s.indexSize := by
      rw [windowSucc_toNat hS.windowSize (Nat.two_pow_pos _) hS.w13]
      exact Nat.mod_lt _ (Nat.two_pow_pos _)
    refine hE.cursorFsm s.work.brPos (s.windowSucc s.work.moff) (s.work.mcnt - 1)
      (if s.work.mcnt = 1 then .readControl else .emitMatch) (decide (s.work.mcnt ≠ 1)) rfl hE.cursor
      (by split <;> exact nofun) (fun _ => ?_) fun hlast => ?_
    · rw [State.indexSize, emitted_regs]
      exact hmoff
    · have hne : s.work.mcnt ≠ 1 := of_decide_eq_true hlast
      exact ⟨if_neg hne, fun hz => hne (sub_eq_zero.mp hz)⟩

end

/-- The state as a stop leaves it: DONE at the end of the stream, or ERROR at a position inside it (42_lzss_decoder.md R171,
60_exceptions.md R214, R215). -/
theorem StreamStop.result {s t : State} (h : StreamStop s t) (hS : s.StreamInv) (hop : s.regs.op = 3) :
    t.Ended ∧ t.regs.bitpos.toNat ≤ s.work.total.toNat
      ∧ (t.regs.status = .done → t.regs.bitpos = s.work.total ∧ t.regs.outLen.toNat ≤ s.par.outCapacity) := by
  have htotal := s.work.total.isLt
  cases h with
  | raise p e hp =>
    refine ⟨ended_raise _ e true, ?_, fun hd => by rw [raise_status] at hd; cases hd⟩
    rw [raise_stream (s.seek p) e true hop]
    exact (seek_brPos (s := s) (by omega)).trans_le hp
  | done hf hend => exact ⟨.inl rfl, hS.cursor, fun _ => ⟨hend, hS.emitted⟩⟩
  | bitsLeft hf hne =>
    refine ⟨ended_raise _ _ true, ?_, fun hd => by rw [raise_status] at hd; cases hd⟩
    rw [raise_stream s.storeBitpos _ true hop]
    exact hS.cursor

/-! ### How many micro-steps are left -/

/-- The moves the decoder can make at most where nothing is half read: two a bit and one a byte, and one at the end of the
stream where zeros follow it (70_reset_and_hazards.md R257). -/
def State.mostMoves (s : State) : Nat :=
  2 * s.bitsLeft + (s.par.outCapacity - s.work.optr.toNat) + if s.par.pastEnd = .failFast then 0 else 1

/-- The moves the decoder can still make at most: one more where a match's length is not yet read. -/
def State.movesLeft (s : State) : Nat :=
  match s.work.fsm with
  | .readControl => s.mostMoves
  | .emitLiteral => s.mostMoves
  | .emitMatch => if s.work.copying then s.mostMoves else s.mostMoves + 1
  | .terminated => 0
  | .invalid => 0

section
variable {s : State}

theorem movesLeft_readControl (hf : s.work.fsm = .readControl) : s.movesLeft = s.mostMoves := by
  rw [State.movesLeft, hf]

theorem movesLeft_emitLiteral (hf : s.work.fsm = .emitLiteral) : s.movesLeft = s.mostMoves := by
  rw [State.movesLeft, hf]

theorem movesLeft_copying (hf : s.work.fsm = .emitMatch) (hc : s.work.copying = true) : s.movesLeft = s.mostMoves := by
  rw [State.movesLeft, hf, hc]
  rfl

theorem movesLeft_enterMatch (hf : s.work.fsm = .emitMatch) (hc : s.work.copying = false) :
    s.movesLeft = s.mostMoves + 1 := by
  rw [State.movesLeft, hf, hc]
  rfl

theorem movesLeft_terminated (hf : s.work.fsm = .terminated) : s.movesLeft = 0 := by
  rw [State.movesLeft, hf]

end

theorem mostMoves_seek {s t : State} {p : Nat} (hp : p ≤ s.work.total.toNat) (hcur : t.work.brPos = BitVec.ofNat 32 p)
    (htotal : t.work.total = s.work.total) (hoptr : t.work.optr = s.work.optr) (hpar : t.par = s.par) :
    t.mostMoves + 2 * s.bitsLeft = s.mostMoves + 2 * (s.work.total.toNat - p) := by
  have hlt := s.work.total.isLt
  have hleft : t.bitsLeft = s.work.total.toNat - p := by
    rw [State.bitsLeft, htotal, hcur, ofNat_toNat_lt (by omega)]
  unfold State.mostMoves
  rw [hleft, hoptr, hpar]
  omega

/-- A byte emitted with room is one move less. -/
theorem mostMoves_emit {s t : State} (hp : s.par.wf) (hle : s.work.optr.toNat ≤ s.par.outCapacity)
    (hroom : s.work.optr.toNat ≠ s.par.outCapacity) (hleft : t.bitsLeft ≤ s.bitsLeft)
    (hoptr : t.work.optr = s.work.optr + 1) (hpar : t.par = s.par) : t.mostMoves < s.mostMoves := by
  have hcap := hp.2.2
  have hoptr' : t.work.optr.toNat = s.work.optr.toNat + 1 := by rw [hoptr]; exact word_succ rfl (by omega)
  unfold State.mostMoves
  rw [hoptr', hpar]
  omega

theorem StreamMove.movesLeft_lt {s t : State} (h : StreamMove s t) (hS : s.StreamInv) (hp : s.par.wf) :
    t.movesLeft < s.movesLeft := by
  have hle := hS.cursor
  have hlt := s.work.total.isLt
  have hbits : s.bitsLeft = s.work.total.toNat - s.work.brPos.toNat := rfl
  cases h with
  | literal p hf hmove hend =>
    have hmost := mostMoves_seek (t := (s.seek p).toFsm .emitLiteral) hend rfl rfl rfl rfl
    rw [movesLeft_readControl hf, movesLeft_emitLiteral (s := (s.seek p).toFsm .emitLiteral) rfl]
    omega
  | endMark p hf hge hend hbit =>
    rw [movesLeft_readControl hf, movesLeft_terminated (s := (s.seek p).toFsm .terminated) rfl, State.mostMoves]
    by_cases hpast : s.par.pastEnd = .failFast
    · have := hbit hpast
      omega
    · rw [if_neg hpast]
      omega
  | index p off hf hmove hend hoff =>
    have hmost := mostMoves_seek (t := (s.seek p).toMatch off) hend rfl rfl rfl rfl
    rw [movesLeft_readControl hf, movesLeft_enterMatch (s := (s.seek p).toMatch off) rfl rfl]
    omega
  | byte p v hf hge hend hroom =>
    have hcur : (s.seek p).work.brPos.toNat = p := seek_brPos (by omega)
    rw [movesLeft_emitLiteral hf, movesLeft_readControl (s := ((s.seek p).emitted v).toFsm .readControl) rfl]
    refine mostMoves_emit hp hS.emitted hroom ?_ rfl (emitted_par _ v)
    show s.work.total.toNat - (s.seek p).work.brPos.toNat ≤ _
    omega
  | length p n hf hc hge hend hn =>
    have hmost := mostMoves_seek (t := startCopy n (s.seek p)) hend rfl rfl rfl rfl
    have ht : (startCopy n (s.seek p)).movesLeft = (startCopy n (s.seek p)).mostMoves := by
      by_cases h0 : n = 0
      · exact movesLeft_readControl (if_pos h0)
      · exact movesLeft_copying (if_neg h0) (decide_eq_true h0)
    rw [movesLeft_enterMatch hf hc, ht]
    omega
  | copy hf hc hroom =>
    have ht : (copied s).movesLeft = (copied s).mostMoves := by
      by_cases h1 : s.work.mcnt = 1
      · exact movesLeft_readControl (if_pos h1)
      · exact movesLeft_copying (if_neg h1) (decide_eq_true h1)
    rw [movesLeft_copying hf hc, ht]
    exact mostMoves_emit hp hS.emitted hroom (Nat.le_refl _) rfl (by rw [copied_frame])

/-- A loop of steps that each go on with fewer moves left, or stop, has stopped when none is left. -/
theorem repeatFlow_stops {P Q : State → Prop} {f : State → Flow} {moves : State → Nat}
    (hf : ∀ s, P s → (f s).Leads (fun t => P t ∧ moves t < moves s) Q) (n : Nat) {s : State} (hs : P s)
    (hn : moves s < n) : ∃ t, repeatFlow n f s = .stop t ∧ Q t := by
  induction n generalizing s with
  | zero => omega
  | succ n ih =>
    rw [repeatFlow_succ]
    have hstep := hf s hs
    cases hfs : f s with
    | go t =>
      rw [hfs] at hstep
      exact ih hstep.1 (Nat.lt_of_lt_of_le hstep.2 (Nat.le_of_lt_succ hn))
    | stop t =>
      rw [hfs] at hstep
      exact ⟨t, rfl, hstep⟩
    | fault r =>
      rw [hfs] at hstep
      exact hstep.elim

end Sys2Proof.Machine
end

section
/-! PROOFS. A turn of the token loop as so many steps of the core (42_lzss_decoder.md R160, R185; 00_scope.md R16), and with it that
DECOMPRESS stops, where, and what it has consumed (R171, R178, R184). -/

namespace Sys2Proof.Machine

/-! ### Turns as steps -/

@[simp] theorem Flow.andThen_go (x : Flow) : x.andThen .go = x := by cases x <;> rfl

@[simp] theorem repeatFlow_one (f : State → Flow) (s : State) : repeatFlow 1 f s = f s := Flow.andThen_go (f s)

/-- DECOMPRESS is running. -/
def State.Decoding (s : State) : Prop := s.isBusy = true ∧ s.regs.op = 3

theorem decoding_of_regs {s t : State} (h : s.Decoding) (ht : t.regs = s.regs) : t.Decoding := by
  unfold State.Decoding State.isBusy at h ⊢
  rwa [ht]

/-- The step function `f` makes a micro-step of the decoder wherever no token is about to be read. -/
def MicroInToken (f : State → Flow) : Prop := ∀ s, s.Decoding → s.work.fsm ≠ .readControl → f s = lzssStep s

/-- `n` copies of a match are left, and then the next token. -/
structure CopiesLeft (n : Nat) (s : State) : Prop where
  decoding : s.Decoding
  count : s.work.mcnt.toNat = n
  last : n = 0 → s.work.fsm = .readControl
  more : n ≠ 0 → s.work.fsm = .emitMatch ∧ s.work.copying = true

theorem copiesLeft_startCopy {s : State} (h : s.Decoding) {n : Nat} (hn : n < 2 ^ 32) : CopiesLeft n (startCopy n s) :=
  ⟨h, ofNat_toNat_lt hn, fun h0 => if_pos h0, fun h0 => ⟨if_neg h0, decide_eq_true h0⟩⟩

theorem CopiesLeft.copied {n : Nat} {s : State} (h : CopiesLeft (n + 1) s) : CopiesLeft n (copied s) := by
  have hone : s.work.mcnt = 1 ↔ n = 0 := by
    rw [← BitVec.toNat_inj, h.count, show (1 : Word).toNat = 1 from rfl]
    omega
  exact ⟨decoding_of_regs h.decoding (by rw [copied_frame]), word_pred h.count, fun h0 => if_pos (hone.mpr h0),
    fun h0 => ⟨if_neg (hone.not.mpr h0), decide_eq_true (hone.not.mpr h0)⟩⟩

theorem stop_ne_go {s t : State} {p : Prop} (h : Flow.stop s = .go t) : p := nomatch h

/-- A read from any cursor: a raise there, or a value and a cursor moved on. -/
theorem leads_withBits_advance {P Q : State → Prop} {s : State} (n : Nat) (k : Nat → State → Flow)
    (hraise : Q (s.raise .formatInvalid true)) (hk : ∀ v m, (k v (s.advance m)).Leads P Q) : (s.withBits n k).Leads P Q := by
  rcases withBits_cases s n k with ⟨-, -, e⟩ | ⟨-, -, e⟩ | ⟨-, e⟩ <;> rw [e]
  · exact hraise
  · exact hk _ _
  · exact hk _ _

/-- READ_CONTROL goes on to one of three states, a match's length not yet read (42_lzss_decoder.md R164). -/
def State.ControlRead (s : State) : Prop :=
  s.Decoding ∧ (s.work.fsm = .emitLiteral ∨ s.work.fsm = .terminated ∨ s.work.fsm = .emitMatch ∧ s.work.copying = false)

theorem readControl_controlRead {s : State} (hs : s.Decoding) :
    (readControl s).Leads State.ControlRead fun _ => True := by
  refine leads_withBits_advance 1 _ trivial fun c m => ?_
  split
  · exact ⟨hs, .inl rfl⟩
  · refine leads_withBits_advance _ _ trivial fun off m' => ?_
    split
    · exact ⟨hs, .inr (.inl rfl)⟩
    · exact ⟨hs, .inr (.inr ⟨rfl, rfl⟩)⟩

section
variable {f : State → Flow} (hf : MicroInToken f)
include hf

/-- The copy loop is so many steps, and the next token follows it. -/
theorem repeat_copyStep (n : Nat) {s : State} (h : CopiesLeft n s) :
    repeatFlow n f s = repeatFlow n copyStep s ∧ ∀ t, repeatFlow n copyStep s = .go t → t.work.fsm = .readControl := by
  induction n generalizing s with
  | zero => exact ⟨rfl, fun t ht => by cases ht; exact h.last rfl⟩
  | succ n ih =>
    obtain ⟨hfsm, hcopying⟩ := h.more (Nat.succ_ne_zero n)
    rw [repeatFlow_succ, repeatFlow_succ, hf s h.decoding (by rw [hfsm]; decide), lzssStep_copyStep hfsm hcopying]
    by_cases hfull : s.work.optr.toNat = s.par.outCapacity
    · rw [copyStep, emit_full hfull, Flow.stop_andThen, Flow.stop_andThen]
      exact ⟨rfl, fun t => stop_ne_go⟩
    · rw [copyStep_room hfull]
      exact ih h.copied

/-- A match from its length on is so many steps. -/
theorem length_and_copies_steps {t : State} (ht : t.Decoding) (hfsm : t.work.fsm = .emitMatch)
    (hcopying : t.work.copying = false) :
    ∃ n, repeatFlow n f t = t.withBits t.lengthSize (fun v u => copyMatch (v + u.minLength) u)
      ∧ ∀ u, t.withBits t.lengthSize (fun v u => copyMatch (v + u.minLength) u) = .go u → u.work.fsm = .readControl := by
  have hfirst : f t = enterMatch t := by rw [hf t ht (by rw [hfsm]; decide), lzssStep_enterMatch hfsm hcopying]
  have hcopies {v : Nat} {u : State} (hv : v < 2 ^ t.lengthSize) (hu : u.regs = t.regs)
      (hrun : enterMatch t = .go (startCopy (v + u.minLength) u)) :
      ∃ n, repeatFlow n f t = copyMatch (v + u.minLength) u
        ∧ ∀ w, copyMatch (v + u.minLength) u = .go w → w.work.fsm = .readControl := by
    have hls : 2 ^ t.lengthSize ≤ 2 ^ 31 := Nat.pow_le_pow_right (by decide) (Nat.le_of_lt_succ t.regs.lengthSize.isLt)
    have hml : u.minLength < 2 ^ 8 := u.regs.minLength.isLt
    have hn : v + u.minLength < 2 ^ 32 := by omega
    have hcount : (startCopy (v + u.minLength) u).work.mcnt.toNat = v + u.minLength := ofNat_toNat_lt hn
    obtain ⟨hrest, hend⟩ := repeat_copyStep hf _ (copiesLeft_startCopy (decoding_of_regs ht hu) hn)
    refine ⟨(v + u.minLength) + 1, ?_, ?_⟩
    · rw [repeatFlow_succ, hfirst, hrun, Flow.go_andThen, hrest, copyMatch, hcount]
    · rw [copyMatch, hcount]
      exact hend
  have hvalue (bits : List Bool) (hlen : bits.length = t.lengthSize) : natOfBits bits < 2 ^ t.lengthSize :=
    hlen ▸ natOfBits_lt bits
  rcases withBits_cases t t.lengthSize (fun v u => copyMatch (v + u.minLength) u) with ⟨hp, hcut, e⟩ | ⟨-, hle, e⟩ | ⟨hz, e⟩
  · refine ⟨1, ?_, by rw [e]; exact fun u => stop_ne_go⟩
    rw [repeatFlow_one, hfirst, e]
    exact withBits_short hp hcut _
  · rw [e]
    exact hcopies (hvalue _ (streamBits_length _ _ _)) rfl (withBits_ok hle _)
  · rw [e]
    exact hcopies (hvalue _ (paddedBits_length _ _)) rfl (by rw [enterMatch, State.withBits, hz])

/-- A turn of the token loop is a step at READ_CONTROL and so many more. -/
theorem decodeOne_steps {s : State} (hs : s.Decoding) (hfirst : f s = readControl s) :
    ∃ n, repeatFlow (n + 1) f s = decodeOne s ∧ ∀ t, decodeOne s = .go t → t.work.fsm = .readControl := by
  have hlead := readControl_controlRead hs
  cases hrun : readControl s with
  | stop t =>
    have hturn : decodeOne s = .stop t := by rw [decodeOne, hrun, Flow.stop_andThen]
    exact ⟨0, by rw [repeatFlow_one, hfirst, hrun, hturn], by rw [hturn]; exact fun u => stop_ne_go⟩
  | fault r =>
    rw [hrun] at hlead
    exact hlead.elim
  | go t =>
    rw [hrun] at hlead
    obtain ⟨ht, hfsm | hfsm | ⟨hfsm, hcopying⟩⟩ := hlead
    · have hturn : decodeOne s = emitLiteral t := by rw [decodeOne, hrun, Flow.go_andThen, hfsm]
      refine ⟨1, ?_, fun u hu => ?_⟩
      · rw [repeatFlow_succ, hfirst, hrun, Flow.go_andThen, repeatFlow_one, hturn, hf t ht (by rw [hfsm]; decide),
          lzssStep_emitLiteral hfsm]
      · have hlead : (emitLiteral t).Leads (fun u => u.work.fsm = .readControl) fun _ => True :=
          leads_withBits_advance _ _ trivial fun v m => leads_emit _ trivial fun _ => rfl
        rw [← hturn, hu] at hlead
        exact hlead
    · have hturn : decodeOne s = terminated t := by rw [decodeOne, hrun, Flow.go_andThen, hfsm]
      refine ⟨1, ?_, by rw [hturn, terminated]; exact fun u => stop_ne_go⟩
      rw [repeatFlow_succ, hfirst, hrun, Flow.go_andThen, repeatFlow_one, hturn, hf t ht (by rw [hfsm]; decide),
        lzssStep_terminated hfsm]
    · have hturn : decodeOne s = t.withBits t.lengthSize fun v u => copyMatch (v + u.minLength) u := by
        rw [decodeOne, hrun, Flow.go_andThen, hfsm]
      obtain ⟨n, hsteps, hend⟩ := length_and_copies_steps hf ht hfsm hcopying
      refine ⟨n, ?_, by rw [hturn]; exact hend⟩
      rw [repeatFlow_succ, hfirst, hrun, Flow.go_andThen, hsteps, hturn]

end

/-! ### The run comes to an end (42_lzss_decoder.md R178) -/

/-- DECOMPRESS is running in a state of its invariant. -/
structure Streaming (s : State) : Prop where
  inv : s.StreamInv
  par : s.par.wf
  decoding : s.Decoding

/-- The command that ran in `s` has ended in `t`, by a micro-step of some state it went through. -/
def StreamEnd (s t : State) : Prop := ∃ u, Streaming u ∧ StreamKept s u ∧ StreamStop u t

theorem StreamKept.refl (s : State) : StreamKept s s := ⟨rfl, rfl, rfl⟩

theorem StreamKept.trans {s t u : State} (h : StreamKept s t) (h' : StreamKept t u) : StreamKept s u :=
  ⟨by rw [h'.frame, h.frame], h'.length.trans h.length, h'.total.trans h.total⟩

theorem microInToken_lzssStep : MicroInToken lzssStep := fun _ _ _ => rfl

section
variable {s : State} (h : Streaming s)
include h

theorem Streaming.move {t : State} (hm : StreamMove s t) : Streaming t :=
  ⟨hm.streamInv h.inv h.par, by rw [hm.kept.par]; exact h.par, decoding_of_regs h.decoding hm.kept.regs⟩

theorem lzssStep_leads : (lzssStep s).Leads
    (fun t => (Streaming t ∧ StreamKept s t ∧ s.work.brPos.toNat ≤ t.work.brPos.toNat) ∧ StreamMove s t)
    (StreamStop s) := by
  have hlead := lzssStep_moves h.inv
  cases hrun : lzssStep s with
  | go t => rw [hrun] at hlead; exact ⟨⟨h.move hlead, hlead.kept, hlead.cursor.1⟩, hlead⟩
  | stop t => rw [hrun] at hlead; exact hlead
  | fault r => rw [hrun] at hlead; exact hlead

theorem repeat_lzssStep_leads (n : Nat) : (repeatFlow n lzssStep s).Leads
    (fun t => Streaming t ∧ StreamKept s t ∧ s.work.brPos.toNat ≤ t.work.brPos.toNat) (StreamEnd s) := by
  refine leads_repeatFlow (fun t ht => ?_) n ⟨h, .refl s, Nat.le_refl _⟩
  obtain ⟨hstream, hkept, hle⟩ := ht
  have hlead := lzssStep_leads hstream
  cases hrun : lzssStep t with
  | go u =>
    rw [hrun] at hlead
    obtain ⟨⟨hu, hku, hleu⟩, -⟩ := hlead
    exact ⟨hu, hkept.trans hku, hle.trans hleu⟩
  | stop u => rw [hrun] at hlead; exact ⟨t, hstream, hkept, hlead⟩
  | fault r => rw [hrun] at hlead; exact hlead

/-- A turn that goes on has consumed a bit. -/
theorem decodeOne_leads (hready : s.work.fsm = .readControl) : (decodeOne s).Leads
    (fun t => Streaming t ∧ StreamKept s t ∧ t.work.fsm = .readControl ∧ s.work.brPos.toNat < t.work.brPos.toNat)
    (StreamEnd s) := by
  obtain ⟨n, hsteps, hend⟩ := decodeOne_steps microInToken_lzssStep h.decoding (lzssStep_readControl hready)
  have hall := repeat_lzssStep_leads h (n + 1)
  rw [hsteps] at hall
  cases hrun : decodeOne s with
  | stop t => rw [hrun] at hall; exact hall
  | fault r => rw [hrun] at hall; exact hall
  | go t =>
    rw [hrun] at hall
    obtain ⟨ht, hkept, -⟩ := hall
    have hreadyt := hend t hrun
    refine ⟨ht, hkept, hreadyt, ?_⟩
    rw [hrun, repeatFlow_succ] at hsteps
    have hfirst := lzssStep_leads h
    cases hstep : lzssStep s with
    | stop u => rw [hstep] at hsteps; exact stop_ne_go hsteps
    | fault r => rw [hstep] at hfirst; exact hfirst.elim
    | go u =>
      rw [hstep] at hfirst hsteps
      obtain ⟨⟨hu, -, -⟩, hmove⟩ := hfirst
      have hrest := repeat_lzssStep_leads hu n
      rw [Flow.go_andThen] at hsteps
      rw [hsteps] at hrest
      refine Nat.lt_of_lt_of_le (hmove.cursor.2 hready fun hterm => ?_) hrest.2.2
      cases n with
      | zero =>
        cases hsteps
        rw [hterm] at hreadyt
        cases hreadyt
      | succ n =>
        rw [repeatFlow_succ, lzssStep_terminated hterm, terminated] at hsteps
        exact stop_ne_go hsteps

theorem streamRun_stops (hready : s.work.fsm = .readControl) : ∃ t, streamRun s = .stop t ∧ StreamEnd s t := by
  refine repeatFlow_stops (P := fun t => Streaming t ∧ StreamKept s t ∧ t.work.fsm = .readControl) (moves := State.bitsLeft)
    (fun t ht => ?_) _ ⟨h, .refl s, hready⟩ (by unfold State.bitsLeft; omega)
  obtain ⟨hstream, hkept, hreadyt⟩ := ht
  have hlead := decodeOne_leads hstream hreadyt
  cases hrun : decodeOne t with
  | go u =>
    rw [hrun] at hlead
    obtain ⟨hu, hku, hreadyu, hlt⟩ := hlead
    refine ⟨⟨hu, hkept.trans hku, hreadyu⟩, ?_⟩
    have hcur := hu.inv.cursor
    unfold State.bitsLeft
    rw [hku.total] at hcur ⊢
    omega
  | stop u =>
    rw [hrun] at hlead
    obtain ⟨w, hw, hkw, hstop⟩ := hlead
    exact ⟨w, hw, hkept.trans hkw, hstop⟩
  | fault r => rw [hrun] at hlead; exact hlead

end

/-! ### DECOMPRESS from its start to its end -/

theorem streaming_decompressBegun {s : State} (hp : s.par.wf) (h : s.streamAccepted) : Streaming (decompressBegun s) :=
  ⟨initStream_streamInv (s := decompressChecked s) hp h.1 h.2, hp, rfl, rfl⟩

/-- DECOMPRESS past its checks has ended by a micro-step of a state it went through. -/
theorem exec_decompress_accepted {s : State} (hp : s.par.wf) (hb : s.isBusy = false) (h : s.streamAccepted) :
    ∃ t, streamRun (decompressBegun s) = .stop t ∧ exec .decompress s = .next t ∧ StreamEnd (decompressBegun s) t := by
  obtain ⟨t, hrun, hend⟩ := streamRun_stops (streaming_decompressBegun hp h) rfl
  exact ⟨t, hrun, by rw [exec_decompress_ok hb h.1 h.2, hrun, Flow.outcome_stop], hend⟩

/-- The position and the outcome a run from `s` ends with (42_lzss_decoder.md R171, 10_state.md R33). -/
theorem StreamEnd.result {s t : State} (h : StreamEnd s t) :
    t.Ended ∧ t.regs.bitpos.toNat ≤ s.work.total.toNat
      ∧ (t.regs.status = .done → t.regs.bitpos = s.work.total ∧ t.regs.outLen.toNat ≤ s.par.outCapacity) := by
  obtain ⟨u, hu, hkept, hstop⟩ := h
  have hresult := hstop.result hu.inv hu.decoding.2
  rwa [hkept.total, hkept.par] at hresult

theorem exec_decompress_idle {s t : State} (h : exec .decompress s = .next t) : s.isBusy = false := by
  refine Bool.eq_false_of_not_eq_true fun hb => ?_
  rw [exec_decompress, unlessBusy_busy hb] at h
  cases h

theorem exec_decompress_ended {s : State} (hp : s.par.wf) (hb : s.isBusy = false) :
    ∃ t, exec .decompress s = .next t ∧ t.Ended := by
  by_cases hok : s.streamAccepted
  · obtain ⟨t, -, hexec, hend⟩ := exec_decompress_accepted hp hb hok
    exact ⟨t, hexec, hend.result.1⟩
  · exact ⟨_, exec_decompress_rejected hb hok, ended_raise _ _ _⟩

/-- Settles O37: a start that passes the checks stops within its turns, and one that does not has raised. -/
theorem decompressAlwaysStops : Obligations.DecompressAlwaysStops := by
  unfold Obligations.DecompressAlwaysStops
  intro s hp hb
  obtain ⟨t, hexec, hend⟩ := exec_decompress_ended hp hb
  exact ⟨t, hexec, hend.not_busy⟩

/-- Settles O23: the ciphers run a loop of known length, and DECOMPRESS stops. -/
theorem commandsEndDoneOrError : Obligations.CommandsEndDoneOrError := by
  unfold Obligations.CommandsEndDoneOrError
  intro s i hp hb hi
  rcases hi with rfl | rfl | rfl
  · rcases Nat.lt_or_ge s.par.inCapacity s.regs.inLen.toNat with hlen | hlen
    · exact ⟨_, exec_decryptLegacy_long hb hlen, .inr ⟨_, rfl⟩⟩
    · exact ⟨_, exec_decryptLegacy_ok hb hlen, .inl (by rw [legacyDone_regs])⟩
  · by_cases hok : s.blockAccepted
    · obtain ⟨u, hexec, -⟩ := exec_decryptBlock_accepted hb hok
      exact ⟨_, hexec, .inl rfl⟩
    · exact ⟨_, exec_decryptBlock_rejected hb hok, .inr ⟨_, rfl⟩⟩
  · obtain ⟨t, hexec, hend⟩ := exec_decompress_ended hp hb
    exact ⟨t, hexec, hend.status⟩

/-- Settles O40: the cursor never passes the end, only an END at the end is DONE, and every raise clears OUT_LEN. -/
theorem decompressConsumesExactly : Obligations.DecompressConsumesExactly := by
  unfold Obligations.DecompressConsumesExactly
  intro s t hp h
  have hb := exec_decompress_idle h
  by_cases hok : s.streamAccepted
  · obtain ⟨t', -, hexec, hend⟩ := exec_decompress_accepted hp hb hok
    rw [hexec] at h
    cases h
    have htotal : (decompressBegun s).work.total.toNat = 8 * s.regs.inLen.toNat :=
      (streaming_decompressBegun hp hok).inv.total
    obtain ⟨hended, hpos, hdone⟩ := hend.result
    refine ⟨hpos.trans_eq htotal, fun hd => ⟨by rw [(hdone hd).1]; exact htotal, (hdone hd).2⟩, fun hne => ?_⟩
    exact (hended.resolve_left hne).2.1
  · rw [exec_decompress_rejected hb hok] at h
    cases h
    refine ⟨?_, fun hd => ?_, fun _ => raise_outLen _ _ _⟩
    · rw [raise_stream _ _ _ rfl]
      exact Nat.zero_le _
    · rw [raise_status] at hd
      cases hd

/-- Settles O41: each token is a turn that adds its bytes, and END stands at the end of the stream. -/
theorem decompressDecodesTokens : Obligations.DecompressDecodesTokens := by
  unfold Obligations.DecompressDecodesTokens
  intro s tokens hp hb hlen hi hl hw htokens hbits hroom
  obtain ⟨u, hexec, hu⟩ := exec_decompress_tokens (rest := []) hp htokens hb hlen ((badParams_eq_false s).mpr ⟨hi, hl, hw⟩)
    (by rw [hbits, List.append_nil]) hroom
  have hend := congrArg List.length hbits
  rw [streamBits_length] at hend
  obtain ⟨t, hterm, hregs, hread⟩ := hu.terminated_done hend.symm
  have hpos : u.work.brPos = BitVec.ofNat 32 (8 * s.regs.inLen.toNat) := by
    rw [hend, ← hu.cursor, BitVec.ofNat_toNat, BitVec.setWidth_eq]
  have hout : u.work.optr = BitVec.ofNat 32 (tokens.foldl s.addToken []).length := by
    rw [← hu.output.1, BitVec.ofNat_toNat, BitVec.setWidth_eq]
  refine ⟨t, hexec.trans hterm, ?_, hread⟩
  rw [hregs, hpos, hout]
  rfl

/-! ### No bit left (30_encoding.md R96, R97) -/

/-- Where zeros follow the stream a read at its end gives 0 and leaves the cursor there. -/
theorem withBits_end_of_stream {s : State} (hend : s.work.brPos = s.work.total) (hp : s.par.pastEnd ≠ .failFast) (n : Nat)
    (k : Nat → State → Flow) : s.withBits n k = k 0 s := by
  have hend' : s.work.brPos.toNat = s.work.total.toNat := congrArg BitVec.toNat hend
  rcases withBits_spec s n k hend'.le with ⟨hff, -⟩ | ⟨-, e⟩
  · exact absurd hff hp
  · rw [e, natOfBits_paddedBits_end hend', ← hend', Nat.min_eq_right (Nat.le_add_right _ _), seek_self]

/-- The turn at the end of the stream: it raises, or END is read there. -/
theorem decodeOne_end_of_stream {s : State} (hend : s.work.brPos = s.work.total) :
    decodeOne s = if s.par.pastEnd = .failFast then .stop (s.raise .formatInvalid true)
      else terminated (s.toFsm .terminated) := by
  by_cases hp : s.par.pastEnd = .failFast
  · rw [if_pos hp, decodeOne, readControl, withBits_short hp (by rw [hend]; omega), Flow.stop_andThen]
  · have hcontrol : readControl s = .go (s.toFsm .terminated) := by
      rw [readControl, withBits_end_of_stream hend hp, if_neg (by decide), withBits_end_of_stream hend hp, if_pos rfl]
    rw [if_neg hp, decodeOne, hcontrol, Flow.go_andThen]
    rfl

/-- Settles O45: the one turn of an empty stream is that at its end, before anything was emitted. -/
theorem emptyInput : Obligations.EmptyInput := by
  unfold Obligations.EmptyInput
  intro s hp hb hempty hi hl hw
  have hlen : s.regs.inLen.toNat = 0 := congrArg BitVec.toNat hempty
  have hbad := (badParams_eq_false s).mpr ⟨hi, hl, hw⟩
  have htotal : (decompressBegun s).work.total = 0 :=
    congrArg (fun n => BitVec.ofNat 32 (8 * n)) (hlen : (decompressChecked s).work.l.toNat = 0)
  have hrun : streamRun (decompressBegun s) = decodeOne (decompressBegun s) := by
    rw [streamRun, htotal]
    exact repeatFlow_one _ _
  rw [exec_decompress_ok hb (by omega) hbad, hrun, decodeOne_end_of_stream htotal.symm]
  by_cases hff : s.par.pastEnd = .failFast
  · rw [if_pos (by exact hff), raise_stream _ _ _ rfl]
    exact ⟨_, rfl, rfl, rfl, fun _ => rfl, fun hz => by rw [hff] at hz; cases hz⟩
  · have hterm : ((decompressBegun s).toFsm .terminated).work.brPos = ((decompressBegun s).toFsm .terminated).work.total :=
      htotal.symm
    rw [if_neg (by exact hff), terminated_outcome, if_pos hterm]
    exact ⟨_, rfl, rfl, rfl, fun h => absurd h hff, fun _ => rfl⟩

end Sys2Proof.Machine
end

section
/-! PROOFS. The token at the cursor (30_encoding.md R85 to R97): the bits a step decodes, that the token they are is the one a turn of
the loop reads, and that a step is its meaning. -/

namespace Sys2Proof.Machine

/-! ### The bits to come -/

theorem streamBits_eq_map (s : State) (q n : Nat) : s.streamBits q n = (List.range n).map fun i => s.streamBit (q + i) := by
  induction n generalizing q with
  | zero => rfl
  | succ n ih =>
    rw [State.streamBits, ih, List.range_succ_eq_map, List.map_cons, List.map_map]
    refine congrArg₂ _ rfl (List.map_congr_left fun i _ => ?_)
    rw [Function.comp_apply, Nat.succ_eq_add_one, Nat.add_comm i 1, Nat.add_assoc]

/-- The bit `i` places after the cursor: 0 past the last one (30_encoding.md R97). -/
def State.paddedBit (s : State) (i : Nat) : Bool := if i < s.bitsLeft then s.streamBit (s.work.brPos.toNat + i) else false

theorem paddedBits_eq_map (s : State) (n : Nat) : s.paddedBits n = (List.range n).map s.paddedBit := by
  have hpart {m : Nat} (hm : m ≤ s.bitsLeft) : s.streamBits s.work.brPos.toNat m = (List.range m).map s.paddedBit := by
    rw [streamBits_eq_map]
    refine List.map_congr_left fun i hi => (if_pos ?_).symm
    exact Nat.lt_of_lt_of_le (List.mem_range.mp hi) hm
  rw [State.paddedBits, hpart (Nat.min_le_right _ _)]
  conv_rhs => rw [show n = min n s.bitsLeft + (n - min n s.bitsLeft) by omega, List.range_add, List.map_append, List.map_map]
  refine congrArg _ (List.eq_replicate_iff.mpr ⟨by simp, fun b hb => ?_⟩).symm
  obtain ⟨i, hi, rfl⟩ := List.mem_map.mp hb
  have hlt := List.mem_range.mp hi
  exact if_neg (show ¬ min n s.bitsLeft + i < s.bitsLeft by omega)

theorem streamBits_eq_take (s : State) (q : Nat) {m n : Nat} (h : m ≤ n) :
    s.streamBits q m = (s.streamBits q n).take m := by
  rw [streamBits_eq_map, streamBits_eq_map, ← List.map_take, List.take_range, Nat.min_eq_left h]

theorem paddedBits_eq_take (s : State) {m n : Nat} (h : m ≤ n) : s.paddedBits m = (s.paddedBits n).take m := by
  rw [paddedBits_eq_map, paddedBits_eq_map, ← List.map_take, List.take_range, Nat.min_eq_left h]

theorem paddedBits_of_le {s : State} {n : Nat} (h : n ≤ s.bitsLeft) : s.paddedBits n = s.streamBits s.work.brPos.toNat n := by
  rw [State.paddedBits, Nat.min_eq_left h, Nat.sub_self]
  exact List.append_nil _

/-- What follows the next `a` bits is what comes once they are read. -/
theorem paddedBits_add {s : State} (hle : s.work.brPos.toNat ≤ s.work.total.toNat) (a b : Nat) :
    s.paddedBits (a + b) =
      s.paddedBits a ++ (s.seek (min (s.work.brPos.toNat + a) s.work.total.toNat)).paddedBits b := by
  have htotal := s.work.total.isLt
  have hcur : (s.seek (min (s.work.brPos.toNat + a) s.work.total.toNat)).work.brPos.toNat
      = min (s.work.brPos.toNat + a) s.work.total.toNat := seek_brPos (by omega)
  rw [paddedBits_eq_map, paddedBits_eq_map, paddedBits_eq_map, List.range_add, List.map_append, List.map_map]
  refine congrArg _ (List.map_congr_left fun i _ => ?_)
  have hleft : (s.seek (min (s.work.brPos.toNat + a) s.work.total.toNat)).bitsLeft = s.bitsLeft - a := by
    unfold State.bitsLeft
    rw [hcur]
    show s.work.total.toNat - _ = _
    omega
  unfold State.bitsLeft at hleft
  unfold Function.comp State.paddedBit State.bitsLeft
  rw [hleft, hcur]
  by_cases hi : a + i < s.work.total.toNat - s.work.brPos.toNat
  · rw [if_pos hi, if_pos (by omega), Nat.min_eq_left (by omega), Nat.add_assoc]
    rfl
  · rw [if_neg hi, if_neg (by omega)]

/-- The reader gives the bits `l` next, without a raise (30_encoding.md R95 to R97). -/
structure State.Upcoming (s : State) (l : List Bool) : Prop where
  cursor : s.work.brPos.toNat ≤ s.work.total.toNat
  canRead : s.canRead l.length
  bits : s.paddedBits l.length = l

/-- A field among the bits to come is read as it was written. -/
theorem State.Upcoming.field {s : State} {n v : Nat} {l : List Bool} (h : s.Upcoming (bitsOf n v ++ l)) (hv : v < 2 ^ n) :
    ∃ p, (s.seek p).Upcoming l ∧ (∀ k, s.withBits n k = k v (s.seek p)) ∧ ∀ k, s.skipBits n k = k (s.seek p) := by
  obtain ⟨hle, hread, hbits⟩ := h
  have htotal := s.work.total.isLt
  rw [List.length_append, bitsOf_length] at hread hbits
  have hcur : (s.seek (min (s.work.brPos.toNat + n) s.work.total.toNat)).work.brPos.toNat
      = min (s.work.brPos.toNat + n) s.work.total.toNat := seek_brPos (by omega)
  rw [paddedBits_add hle] at hbits
  obtain ⟨hfield, hrest⟩ := List.append_inj hbits (by rw [paddedBits_length, bitsOf_length])
  have hreads (k : Nat → State → Flow) :
      s.withBits n k = k v (s.seek (min (s.work.brPos.toNat + n) s.work.total.toNat)) := by
    rcases withBits_spec s n k hle with ⟨hff, hcut, -⟩ | ⟨-, e⟩
    · rcases hread with hread | hz
      · omega
      · rw [hff] at hz
        cases hz
    · rw [e, hfield, natOfBits_bitsOf, Nat.mod_eq_of_lt hv]
  exact ⟨_, ⟨by rw [hcur]; exact Nat.min_le_right _ _, canRead_seek hread, hrest⟩, hreads, fun k => hreads fun _ t => k t⟩

theorem State.Upcoming.left {s : State} {a b : List Bool} (h : s.Upcoming (a ++ b)) : s.Upcoming a := by
  have hle : a.length ≤ (a ++ b).length := by simp
  refine ⟨h.cursor, canRead_mono h.canRead hle, ?_⟩
  rw [paddedBits_eq_take s hle, h.bits, List.take_left]

/-- The reader sees DATA, its cursor, the end and the policy alone. -/
theorem State.Upcoming.congr {s t : State} {l : List Bool} (h : s.Upcoming l) (hdata : t.data = s.data)
    (hcur : t.work.brPos = s.work.brPos) (htotal : t.work.total = s.work.total) (hpar : t.par = s.par) : t.Upcoming l := by
  obtain ⟨hle, hread, hbits⟩ := h
  refine ⟨by rw [hcur, htotal]; exact hle, by rw [State.canRead, hcur, htotal, hpar]; exact hread, ?_⟩
  rw [State.paddedBits, State.bitsLeft, hcur, htotal, streamBits_congr hdata]
  exact hbits

/-! ### The token they are -/

/-- The turn that reads the token `i` is the meaning of `i` (42_lzss_decoder.md R160, R173 to R175). -/
theorem decodeOne_eq_tokenFlow {s : State} {i : Instr} (hi : i.isCommand = false) (hwf : i.wf s.format = true)
    (h : s.Upcoming (tokenBits s.format i)) : decodeOne s = tokenFlow i s := by
  cases i with
  | lit v =>
    obtain ⟨p, hvalue, hcontrol, hskip⟩ := State.Upcoming.field (n := 1) (v := 1) (l := bitsOf 8 v.toNat) h (by decide)
    have hlit : ((s.seek p).toFsm .emitLiteral).Upcoming (bitsOf 8 v.toNat ++ []) := by
      rw [List.append_nil]
      exact hvalue.congr rfl rfl rfl rfl
    obtain ⟨q, -, hbyte, hskip'⟩ := hlit.field v.isLt
    rw [decodeOne, readControl, hcontrol, if_pos rfl, Flow.go_andThen, tokenFlow, hskip, hskip']
    refine (hbyte _).trans ?_
    rw [BitVec.ofNat_toNat, BitVec.setWidth_eq]
  | matchCopy off len =>
    obtain ⟨⟨hpos, hoff⟩, hlen⟩ := Instr.wf_matchCopy.mp hwf
    obtain ⟨p, hrest, hcontrol, hskip⟩ := State.Upcoming.field (n := 1) (v := 0)
      (l := bitsOf s.indexSize off ++ bitsOf s.lengthSize len) h (by decide)
    obtain ⟨q, hrest', hindex, hskip'⟩ := hrest.field hoff
    have hlength : ((s.seek p |>.seek q).toMatch off).Upcoming (bitsOf s.lengthSize len ++ []) := by
      rw [List.append_nil]
      exact hrest'.congr rfl rfl rfl rfl
    obtain ⟨r, -, hlen', hskip''⟩ := hlength.field hlen
    rw [decodeOne, readControl, hcontrol, if_neg (by decide), tokenFlow, hskip]
    have hne : off ≠ 0 := by omega
    show ((s.seek p).withBits s.indexSize _).andThen _ = (s.seek p).skipBits s.indexSize _
    rw [hindex, if_neg hne, hskip', Flow.go_andThen]
    exact (hlen' _).trans (hskip'' _).symm
  | endMark =>
    obtain ⟨p, hrest, hcontrol, hskip⟩ := State.Upcoming.field (n := 1) (v := 0)
      (l := bitsOf s.indexSize 0 ++ []) (by rw [List.append_nil]; exact h) (by decide)
    obtain ⟨q, -, hindex, hskip'⟩ := hrest.field (Nat.two_pow_pos _)
    rw [decodeOne, readControl, hcontrol, if_neg (by decide), tokenFlow, hskip]
    show ((s.seek p).withBits s.indexSize _).andThen _ = (s.seek p).skipBits s.indexSize _
    rw [hindex, if_pos rfl, hskip', Flow.go_andThen]
    rfl
  | _ => cases hi

/-- The bits a step decodes are the next ones, as many as can be read and a token can need. -/
theorem fetchBits_eq_paddedBits (s : State) : s.fetchBits =
    s.paddedBits (if s.par.pastEnd = .failFast then min (tokenSpan s.format) s.bitsLeft else tokenSpan s.format) := by
  unfold State.fetchBits
  cases hp : s.par.pastEnd with
  | failFast =>
    rw [if_pos rfl, paddedBits_of_le (Nat.min_le_right _ _)]
  | zeroFillSaturating =>
    rw [if_neg (by decide)]

theorem upcoming_fetchBits {s : State} (hle : s.work.brPos.toNat ≤ s.work.total.toNat) : s.Upcoming s.fetchBits := by
  rw [fetchBits_eq_paddedBits]
  refine ⟨hle, ?_, by rw [paddedBits_length]⟩
  rw [paddedBits_length]
  cases hp : s.par.pastEnd with
  | failFast =>
    left
    rw [if_pos rfl]
    unfold State.bitsLeft
    omega
  | zeroFillSaturating => exact .inr hp

/-- What is fetched is a well-formed token that opens the bits looked at. -/
theorem fetchToken_ok {s : State} {i : Instr} (h : fetchToken s = .ok i) :
    i.isCommand = false ∧ i.wf s.format = true ∧ ∃ rest, s.fetchBits = tokenBits s.format i ++ rest := by
  unfold fetchToken at h
  rcases tokenDecodeIsExact s.format s.fetchBits with ⟨j, rest, hdec, hj, hwf, hbits⟩ | ⟨e, hdec, -⟩
  · rw [hdec] at h
    cases h
    exact ⟨hj, hwf, rest, hbits⟩
  · rw [hdec] at h
    cases h

/-- A token that is fetched is the one the turn at the cursor reads. -/
theorem decodeOne_of_fetchToken {s : State} (hle : s.work.brPos.toNat ≤ s.work.total.toNat) {i : Instr}
    (h : fetchToken s = .ok i) : decodeOne s = tokenFlow i s := by
  obtain ⟨hi, hwf, rest, hbits⟩ := fetchToken_ok h
  have hup := upcoming_fetchBits hle
  rw [hbits] at hup
  exact decodeOne_eq_tokenFlow hi hwf hup.left

/-- A token whose bits come next, made up by zeros only where they may be, is fetched. -/
theorem fetchToken_of_paddedBits {s : State} {i : Instr} (hi : i.isCommand = false) (hwf : i.wf s.format = true)
    (hfit : (tokenBits s.format i).length ≤ s.bitsLeft ∨ s.par.pastEnd = .zeroFillSaturating)
    (hbits : s.paddedBits (tokenBits s.format i).length = tokenBits s.format i) : fetchToken s = .ok i := by
  have hspan : (tokenBits s.format i).length ≤ tokenSpan s.format := by
    rw [tokenBits_length]
    unfold tokenSpan
    cases i <;> dsimp only <;> omega
  have hfetch : s.fetchBits.take (tokenBits s.format i).length = tokenBits s.format i := by
    rw [fetchBits_eq_paddedBits, ← paddedBits_eq_take, hbits]
    cases hp : s.par.pastEnd with
    | failFast =>
      rw [if_pos rfl]
      refine Nat.le_min.mpr ⟨hspan, hfit.resolve_right fun hz => ?_⟩
      rw [hp] at hz
      cases hz
    | zeroFillSaturating => exact hspan
  have hsplit : s.fetchBits = tokenBits s.format i ++ s.fetchBits.drop (tokenBits s.format i).length :=
    (List.take_append_drop _ _).symm.trans (by rw [hfetch])
  rw [fetchToken, hsplit, tokenEncodeDecode s.format i _ hi hwf]

/-! ### A step at a token -/

theorem step_of_no_input {s : State} (h : s.inputs = []) : step s = coreStep s := by
  rw [step, nextStep, h]

theorem coreStep_token {s : State} (ht : s.atToken = true) {i : Instr} (h : fetchToken s = .ok i) :
    coreStep s = exec i s := by
  rw [coreStep, if_pos ht, h]

/-- Settles O16: all the token's bits are left, so they are the next ones. -/
theorem stepRunsToken : Obligations.StepRunsToken := by
  unfold Obligations.StepRunsToken
  intro s i rest hin ht hlen hi hwf hbits
  have hfit : (tokenBits s.format i).length ≤ s.bitsLeft := by unfold State.bitsLeft; omega
  rw [step_of_no_input hin, coreStep_token ht (fetchToken_of_paddedBits hi hwf (.inl hfit) ?_)]
  rw [paddedBits_of_le hfit, streamBits_eq_take s _ hfit, State.bitsLeft, hbits, List.take_left]

/-- Settles O59: zeros may follow the bits that are left. -/
theorem stepRunsPaddedToken : Obligations.StepRunsPaddedToken := by
  unfold Obligations.StepRunsPaddedToken
  intro s i hin ht hz hi hwf hbits
  rw [step_of_no_input hin, coreStep_token ht (fetchToken_of_paddedBits hi hwf (.inr hz) hbits)]

end Sys2Proof.Machine
end

section
/-! PROOFS. The core and the outside world: no step of the core looks at the inputs still to come, and the core waits while no
command runs (70_reset_and_hazards.md R241, 30_encoding.md R100). -/

namespace Sys2Proof.Machine

/-! ### Nothing the core does looks at the inputs -/

/-- The same machine with other inputs to come. -/
def State.withInputs (s : State) (es : List Event) : State := { s with inputs := es }

/-- The flow whose states are the images of another's. -/
def Flow.map (g : State → State) : Flow → Flow
  | .go s => .go (g s)
  | .stop s => .stop (g s)
  | .fault r => .fault r

/-- What `f` does to a state it does to the state with other inputs. -/
def IgnoresInputs (f : State → Flow) : Prop := ∀ s es, f (s.withInputs es) = (f s).map (State.withInputs · es)

theorem Flow.map_andThen {f : State → Flow} (hf : IgnoresInputs f) (x : Flow) (es : List Event) :
    (x.map (State.withInputs · es)).andThen f = (x.andThen f).map (State.withInputs · es) := by
  cases x with
  | go s => exact hf s es
  | stop s => rfl
  | fault r => rfl

theorem IgnoresInputs.inputs {f : State → Flow} (hf : IgnoresInputs f) {s t : State} (h : (f s).outcome = .next t) :
    t.inputs = s.inputs := by
  have hsame : f s = (f s).map (State.withInputs · s.inputs) := hf s s.inputs
  cases hfs : f s with
  | go u =>
    rw [hfs] at h hsame
    obtain rfl : u = t := by injection h
    have hself : u = u.withInputs s.inputs := Flow.go.inj hsame
    exact (congrArg State.inputs hself :)
  | stop u =>
    rw [hfs] at h hsame
    obtain rfl : u = t := by injection h
    have hself : u = u.withInputs s.inputs := Flow.stop.inj hsame
    exact (congrArg State.inputs hself :)
  | fault r =>
    rw [hfs] at h
    cases h

theorem raise_withInputs (s : State) (es : List Event) (e : ErrKind) (b : Bool) :
    (s.withInputs es).raise e b = (s.raise e b).withInputs es := by
  unfold State.raise
  by_cases h : s.regs.op = 3
  · rw [if_pos h, if_pos (by exact h)]
    rfl
  · rw [if_neg h, if_neg (by exact h)]
    rfl

theorem emitted_withInputs (s : State) (es : List Event) (v : Byte) :
    (s.withInputs es).emitted v = (s.emitted v).withInputs es := by
  unfold State.emitted State.writeWin
  by_cases h : s.work.wcur.toNat < s.winFilled ∧ v = s.par.windowInitAt s.work.wcur.toNat
  · rw [if_pos (by exact h), if_pos (by exact h)]
    rfl
  · rw [if_neg (by exact h), if_neg (by exact h)]
    rfl

theorem withBits_zeroFill {s : State} (h : s.par.pastEnd = .zeroFillSaturating) (n : Nat) (k : Nat → State → Flow) :
    s.withBits n k = k (natOfBits (s.paddedBits n)) (s.advance (min n s.bitsLeft)) := by
  rw [State.withBits, h]

theorem withBits_withInputs (s : State) (es : List Event) (n : Nat) {k : Nat → State → Flow}
    (hk : ∀ v, IgnoresInputs (k v)) : (s.withInputs es).withBits n k = (s.withBits n k).map (State.withInputs · es) := by
  have hbits (q m : Nat) : (s.withInputs es).streamBits q m = s.streamBits q m := streamBits_congr (s := s) (t := s.withInputs es) rfl q m
  rcases withBits_cases s n k with ⟨hp, hcut, e⟩ | ⟨-, hle, e⟩ | ⟨hz, e⟩
  · rw [e, withBits_short (s := s.withInputs es) hp hcut, raise_withInputs]
    rfl
  · rw [e, withBits_ok (s := s.withInputs es) hle, hbits]
    exact hk _ (s.advance n) es
  · have hpad : (s.withInputs es).paddedBits n = s.paddedBits n := by
      rw [State.paddedBits, hbits]
      rfl
    rw [e, withBits_zeroFill (s := s.withInputs es) hz, hpad]
    exact hk _ (s.advance _) es

theorem emit_withInputs (s : State) (es : List Event) (v : Byte) {k : State → Flow} (hk : IgnoresInputs k) :
    (s.withInputs es).emit v k = (s.emit v k).map (State.withInputs · es) := by
  by_cases h : s.work.optr.toNat = s.par.outCapacity
  · rw [emit_full h, emit_full (s := s.withInputs es) h, raise_withInputs]
    rfl
  · rw [emit_room h, emit_room (s := s.withInputs es) h, emitted_withInputs]
    exact hk _ _

theorem ignoresInputs_go (g : State → State) (hg : ∀ s es, g (s.withInputs es) = (g s).withInputs es) :
    IgnoresInputs fun s => .go (g s) := fun s es => congrArg Flow.go (hg s es)

theorem ignoresInputs_readControl : IgnoresInputs readControl := fun s es => by
  refine withBits_withInputs s es 1 fun c t es => ?_
  split
  · rfl
  · refine withBits_withInputs t es t.indexSize fun off u es => ?_
    split <;> rfl

theorem ignoresInputs_emitLiteral : IgnoresInputs emitLiteral := fun s es =>
  withBits_withInputs s es 8 fun _ t es => emit_withInputs t es _ (ignoresInputs_go _ fun _ _ => rfl)

theorem ignoresInputs_enterMatch : IgnoresInputs enterMatch := fun s es =>
  withBits_withInputs s es s.lengthSize fun _ => ignoresInputs_go _ fun _ _ => rfl

theorem ignoresInputs_copyStep : IgnoresInputs copyStep := fun s es =>
  emit_withInputs s es (s.readWin s.work.moff.toNat) (ignoresInputs_go _ fun _ _ => rfl)

theorem ignoresInputs_terminated : IgnoresInputs terminated := fun s es => by
  unfold terminated
  dsimp only
  by_cases h : s.work.brPos = s.work.total
  · rw [if_pos h, if_pos (by exact h)]
    rfl
  · rw [if_neg h, if_neg (by exact h)]
    exact congrArg Flow.stop (raise_withInputs s.storeBitpos es _ _)

theorem ignoresInputs_lzssStep : IgnoresInputs lzssStep := fun s es => by
  unfold lzssStep
  have hfsm : (s.withInputs es).work.fsm = s.work.fsm := rfl
  rw [hfsm]
  cases s.work.fsm with
  | readControl => exact ignoresInputs_readControl s es
  | emitLiteral => exact ignoresInputs_emitLiteral s es
  | emitMatch =>
    dsimp only
    have hcopying : (s.withInputs es).work.copying = s.work.copying := rfl
    rw [hcopying]
    split
    · exact ignoresInputs_copyStep s es
    · exact ignoresInputs_enterMatch s es
  | terminated => exact ignoresInputs_terminated s es
  | invalid => rfl

theorem ignoresInputs_legacyStep : IgnoresInputs legacyStep := fun s es => by
  unfold legacyStep
  by_cases h : s.work.i.toNat < s.work.l.toNat
  · rw [if_pos h, if_pos (by exact h)]
    rfl
  · rw [if_neg h, if_neg (by exact h)]
    rfl

/-- A byte moved by either pass: DATA at `t`, and the key and the two counters (41_block_unshuffler.md R135, R136). -/
def byteMoved (s : State) (t : Int) : State :=
  { s.writeData t.toNat (s.readSnap s.work.p.toNat ^^^ s.work.kb) with
    work := { s.work with kb := s.work.kb + s.regs.add, p := s.work.p + 1, j := s.work.j - 1 } }

theorem putByte_eq (s : State) (t : Int) (k : State → Flow) :
    putByte s t k = if 0 ≤ t ∧ t < s.work.l.toNat ∧ s.work.p.toNat < s.work.l.toNat then k (byteMoved s t)
      else .fault .blockIndexOutOfRange := rfl

theorem putByte_withInputs (s : State) (es : List Event) (t : Int) {k : State → Flow} (hk : IgnoresInputs k) :
    putByte (s.withInputs es) t k = (putByte s t k).map (State.withInputs · es) := by
  rw [putByte_eq, putByte_eq]
  by_cases h : 0 ≤ t ∧ t < s.work.l.toNat ∧ s.work.p.toNat < s.work.l.toNat
  · rw [if_pos h, if_pos (by exact h)]
    exact hk (byteMoved s t) es
  · rw [if_neg h, if_neg (by exact h)]
    rfl

theorem ignoresInputs_firstPassByte : IgnoresInputs firstPassByte := fun s es =>
  putByte_withInputs s es s.work.tp1 (ignoresInputs_go _ fun _ _ => rfl)

theorem ignoresInputs_secondPassByte : IgnoresInputs secondPassByte := fun s es =>
  putByte_withInputs s es s.work.tp2 (ignoresInputs_go _ fun _ _ => rfl)

/-- A block whose pass is done is closed. -/
def closeIfDone (s : State) : State := if s.work.j = 0 then closeBlock s else s

theorem settleBlock_firstDone {s : State} (h : s.work.j = 0 ∧ s.work.pass = .first) :
    settleBlock s = closeIfDone (openSecond s) := by
  rw [settleBlock, if_pos h]
  rfl

theorem settleBlock_else {s : State} (h : ¬ (s.work.j = 0 ∧ s.work.pass = .first)) : settleBlock s = closeIfDone s := by
  rw [settleBlock, if_neg h]
  rfl

theorem closeIfDone_withInputs (s : State) (es : List Event) :
    closeIfDone (s.withInputs es) = (closeIfDone s).withInputs es := by
  rw [closeIfDone, closeIfDone]
  by_cases h : s.work.j = 0
  · rw [if_pos h, if_pos (by exact h)]
    rfl
  · rw [if_neg h, if_neg (by exact h)]

theorem settleBlock_withInputs (s : State) (es : List Event) :
    settleBlock (s.withInputs es) = (settleBlock s).withInputs es := by
  by_cases h : s.work.j = 0 ∧ s.work.pass = .first
  · rw [settleBlock_firstDone h, settleBlock_firstDone (s := s.withInputs es) h]
    exact closeIfDone_withInputs (openSecond s) es
  · rw [settleBlock_else h, settleBlock_else (s := s.withInputs es) h]
    exact closeIfDone_withInputs s es

/-- The byte of a pass that is open, and what closes or reopens it. -/
def passStep (s : State) : Flow :=
  (match s.work.pass with
    | .first => firstPassByte s
    | .second => secondPassByte s).andThen fun s => .go (settleBlock s)

theorem blockStep_final {s : State} (hj : s.work.j = 0) (hl : s.work.left = 0) :
    blockStep s = .stop (s.finish s.work.l) := if_pos ⟨hj, hl⟩

theorem blockStep_open {s : State} (hj : s.work.j = 0) (hl : s.work.left ≠ 0) : blockStep s = passStep (openBlock s) := by
  rw [blockStep, if_neg fun h => hl h.2, if_pos hj]
  rfl

theorem blockStep_inside {s : State} (hj : s.work.j ≠ 0) : blockStep s = passStep s := by
  rw [blockStep, if_neg fun h => hj h.1, if_neg hj]
  rfl

theorem ignoresInputs_passStep : IgnoresInputs passStep := fun s es => by
  have hpass : (s.withInputs es).work.pass = s.work.pass := rfl
  unfold passStep
  rw [hpass]
  cases s.work.pass with
  | first =>
    dsimp only
    rw [ignoresInputs_firstPassByte s es]
    exact Flow.map_andThen (ignoresInputs_go _ settleBlock_withInputs) _ es
  | second =>
    dsimp only
    rw [ignoresInputs_secondPassByte s es]
    exact Flow.map_andThen (ignoresInputs_go _ settleBlock_withInputs) _ es

theorem ignoresInputs_blockStep : IgnoresInputs blockStep := fun s es => by
  by_cases hj : s.work.j = 0
  · by_cases hl : s.work.left = 0
    · rw [blockStep_final hj hl, blockStep_final (s := s.withInputs es) hj hl]
      rfl
    · rw [blockStep_open hj hl, blockStep_open (s := s.withInputs es) hj hl]
      exact ignoresInputs_passStep (openBlock s) es
  · rw [blockStep_inside hj, blockStep_inside (s := s.withInputs es) hj]
    exact ignoresInputs_passStep s es

/-! ### A micro-step -/

section
variable {s : State}

theorem microStep_idle (hb : s.isBusy = false) : microStep s = .go s := by
  rw [microStep, hb]
  rfl

theorem microStep_legacy (hb : s.isBusy = true) (hop : s.regs.op = 1) : microStep s = legacyStep s := by
  rw [microStep, hb, hop]
  rfl

theorem microStep_block (hb : s.isBusy = true) (hop : s.regs.op = 2) : microStep s = blockStep s := by
  rw [microStep, hb, hop]
  rfl

theorem microStep_stream (h : s.Decoding) : microStep s = lzssStep s := by
  rw [microStep, h.1, h.2]
  rfl

/-- A command word with OP 0 never runs, so the core has no micro-step for it. -/
theorem microStep_nop (hop : s.regs.op = 0) : microStep s = .go s := by
  rw [microStep, hop]
  exact ite_self _

end

theorem op_cases (op : BitVec 2) : op = 0 ∨ op = 1 ∨ op = 2 ∨ op = 3 := by
  revert op
  decide

theorem ignoresInputs_microStep : IgnoresInputs microStep := fun s es => by
  cases hb : s.isBusy with
  | false =>
    rw [microStep_idle hb, microStep_idle (s := s.withInputs es) hb]
    rfl
  | true =>
    rcases op_cases s.regs.op with hop | hop | hop | hop
    · rw [microStep_nop hop, microStep_nop (s := s.withInputs es) hop]
      rfl
    · rw [microStep_legacy hb hop, microStep_legacy (s := s.withInputs es) hb hop]
      exact ignoresInputs_legacyStep s es
    · rw [microStep_block hb hop, microStep_block (s := s.withInputs es) hb hop]
      exact ignoresInputs_blockStep s es
    · rw [microStep_stream ⟨hb, hop⟩, microStep_stream (s := s.withInputs es) ⟨hb, hop⟩]
      exact ignoresInputs_lzssStep s es

/-! ### The core's step (70_reset_and_hazards.md R241, 30_encoding.md R100) -/

theorem coreStep_of_not_atToken {s : State} (h : s.atToken = false) : coreStep s = (microStep s).outcome := by
  rw [coreStep, h]
  rfl

theorem coreStep_idle {s : State} (hb : s.isBusy = false) : coreStep s = .next s := by
  have htoken : s.atToken = false := by
    rw [State.atToken, hb]
    rfl
  rw [coreStep_of_not_atToken htoken, microStep_idle hb]
  rfl

theorem coreStep_inputs {s t : State} (h : coreStep s = .next t) : t.inputs = s.inputs := by
  unfold coreStep at h
  split at h
  · split at h
    · obtain ⟨-, -, hinputs, -⟩ := exec_regs h
      exact hinputs
    · exact ignoresInputs_microStep.inputs h
  · exact ignoresInputs_microStep.inputs h

/-- Settles O17: no token is read and no micro-step made where no command runs. -/
theorem idleCoreWaits : Obligations.IdleCoreWaits := by
  unfold Obligations.IdleCoreWaits
  intro s hin hb
  rw [step_of_no_input hin, coreStep_idle hb]

theorem step_wait {s : State} {es : List Event} (h : s.inputs = .wait :: es) :
    step s = if s.isBusy then coreStep s else .next { s with inputs := es } := by
  rw [step, nextStep, h]
  rfl

/-- Settles O18: a poll of a running command is a step of the core, which takes no input. -/
theorem waitPollsStatus : Obligations.WaitPollsStatus := by
  unfold Obligations.WaitPollsStatus
  intro s es hin
  rw [step_wait hin]
  refine ⟨fun hb => by rw [hb]; rfl, fun hb => ?_⟩
  rw [if_pos hb]
  exact ⟨rfl, fun t ht => (coreStep_inputs ht).trans hin⟩

end Sys2Proof.Machine
end

section
/-! PROOFS. The ciphers by single steps (00_scope.md R16): a pass, a block and the whole of DECRYPT_BLOCK as so many byte steps
(41_block_unshuffler.md R148), the loop of DECRYPT_LEGACY as so many of its own (40_stream_cipher.md R113). -/

namespace Sys2Proof.Machine

/-! ### A pass -/

/-- One iteration of the pass `p` (41_block_unshuffler.md R135, R136). -/
def passByte : Pass → State → Flow
  | .first => firstPassByte
  | .second => secondPassByte

/-- What the ways an iteration can go leave alone, whatever it does to its write position. -/
theorem putByte_cases (s : State) (t : Int) {k : State → State} (hk : ∀ u, (k u).regs = u.regs ∧ (k u).work.pass = u.work.pass
    ∧ (k u).work.b = u.work.b ∧ (k u).work.j = u.work.j) :
    putByte s t (fun u => .go (k u)) = .fault .blockIndexOutOfRange
      ∨ ∃ u, putByte s t (fun u => .go (k u)) = .go u ∧ u.regs = s.regs ∧ u.work.pass = s.work.pass ∧ u.work.b = s.work.b
        ∧ u.work.j = s.work.j - 1 := by
  rw [putByte_eq]
  split
  · obtain ⟨hregs, hpass, hsize, hj⟩ := hk (byteMoved s t)
    exact .inr ⟨_, rfl, hregs, hpass, hsize, hj⟩
  · exact .inl rfl

/-- Everything an iteration can do: be stopped by its guard, or go on, one iteration less left. -/
theorem passByte_cases (p : Pass) (s : State) : passByte p s = .fault .blockIndexOutOfRange
    ∨ ∃ t, passByte p s = .go t ∧ t.regs = s.regs ∧ t.work.pass = s.work.pass ∧ t.work.b = s.work.b
      ∧ t.work.j = s.work.j - 1 := by
  cases p with
  | first =>
    exact putByte_cases s s.work.tp1 (k := fun u => { u with work := { u.work with tp1 := u.work.tp1 - 2 } })
      fun _ => ⟨rfl, rfl, rfl, rfl⟩
  | second =>
    exact putByte_cases s s.work.tp2 (k := fun u => { u with work := { u.work with tp2 := u.work.tp2 - 2 } })
      fun _ => ⟨rfl, rfl, rfl, rfl⟩

theorem passStep_eq (s : State) : passStep s = (passByte s.work.pass s).andThen fun t => .go (settleBlock t) := by
  unfold passStep passByte
  cases s.work.pass <;> rfl

/-- `n` iterations of the pass `p` of a block of `b` bytes are left. -/
structure PassLeft (p : Pass) (b : Word) (n : Nat) (s : State) : Prop where
  pass : s.work.pass = p
  size : s.work.b = b
  left : s.work.j.toNat = n

theorem PassLeft.ne_zero {p : Pass} {b : Word} {n : Nat} {s : State} (h : PassLeft p b (n + 1) s) : s.work.j ≠ 0 := by
  intro hj
  have hleft := h.left
  rw [hj] at hleft
  exact Nat.succ_ne_zero n hleft.symm

theorem PassLeft.done {p : Pass} {b : Word} {s : State} (h : PassLeft p b 0 s) : s.work.j = 0 := BitVec.eq_of_toNat_eq h.left

section
variable {p : Pass} {b : Word} {s : State}

theorem PassLeft.passByte {n : Nat} (h : PassLeft p b (n + 1) s) {t : State} (ht : passByte p s = .go t) :
    PassLeft p b n t := by
  rcases passByte_cases p s with hfault | ⟨u, hu, -, hpass, hsize, hj⟩
  · rw [hfault] at ht
    cases ht
  · rw [hu] at ht
    cases ht
    exact ⟨hpass.trans h.pass, hsize.trans h.size, (congrArg BitVec.toNat hj).trans (word_pred h.left)⟩

theorem PassLeft.repeat_passByte {n : Nat} (h : PassLeft p b n s) {t : State}
    (ht : repeatFlow n (Machine.passByte p) s = .go t) : PassLeft p b 0 t := by
  induction n generalizing s with
  | zero =>
    cases ht
    exact h
  | succ n ih =>
    rw [repeatFlow_succ] at ht
    cases hrun : Machine.passByte p s with
    | go u =>
      rw [hrun] at ht
      exact ih (h.passByte hrun) ht
    | stop u => rw [hrun] at ht; cases ht
    | fault r => rw [hrun] at ht; cases ht

/-- The iterations of a pass are byte steps, of which the last closes the pass. -/
theorem PassLeft.repeat_blockStep {n : Nat} (h : PassLeft p b (n + 1) s) :
    repeatFlow (n + 1) blockStep s =
      (repeatFlow (n + 1) (Machine.passByte p) s).andThen fun t => .go (settleBlock t) := by
  induction n generalizing s with
  | zero => rw [repeatFlow_one, repeatFlow_one, blockStep_inside h.ne_zero, passStep_eq, h.pass]
  | succ n ih =>
    rw [repeatFlow_succ, repeatFlow_succ (n + 1), blockStep_inside h.ne_zero, passStep_eq, h.pass, Flow.andThen_assoc]
    cases hrun : Machine.passByte p s with
    | go u =>
      have hu := h.passByte hrun
      have hopen : settleBlock u = u := by
        rw [settleBlock_else fun hdone => hu.ne_zero hdone.1, closeIfDone, if_neg hu.ne_zero]
      rw [Flow.go_andThen, Flow.go_andThen, Flow.go_andThen, hopen]
      exact ih hu
    | stop u => rfl
    | fault r => rfl

end

/-- Everything a byte step can do: be stopped by the guard, go on, or finish(L) (41_block_unshuffler.md R148). -/
theorem blockStep_cases (s : State) : blockStep s = .fault .blockIndexOutOfRange
    ∨ (∃ t, blockStep s = .go t ∧ t.regs = s.regs) ∨ blockStep s = .stop (s.finish s.work.l) := by
  have hpass (u : State) (hu : u.regs = s.regs) : passStep u = .fault .blockIndexOutOfRange
      ∨ (∃ t, passStep u = .go t ∧ t.regs = s.regs) ∨ passStep u = .stop (s.finish s.work.l) := by
    rw [passStep_eq]
    rcases passByte_cases u.work.pass u with hfault | ⟨t, ht, hregs, -⟩
    · rw [hfault]
      exact .inl rfl
    · rw [ht]
      exact .inr (.inl ⟨_, rfl, (settleBlock_regs t).trans (hregs.trans hu)⟩)
  by_cases hj : s.work.j = 0
  · by_cases hl : s.work.left = 0
    · exact .inr (.inr (blockStep_final hj hl))
    · rw [blockStep_open hj hl]
      exact hpass (openBlock s) (openBlock_regs s)
  · rw [blockStep_inside hj]
    exact hpass s rfl

/-! ### A block -/

theorem blockStep_openBlock {s : State} (hj : s.work.j = 0) (hl : s.work.left ≠ 0) (hopen : (openBlock s).work.j ≠ 0) :
    blockStep s = blockStep (openBlock s) := by
  rw [blockStep_open hj hl, blockStep_inside hopen]

/-- The second pass of a block, which a block of one byte does without, and the block closed. -/
theorem secondPass_steps {b : Word} {s : State} (h : PassLeft .first b 0 s) :
    repeatFlow (b.toNat / 2) blockStep (settleBlock s) =
      (repeatFlow (openSecond s).work.j.toNat secondPassByte (openSecond s)).andThen fun t => .go (closeBlock t) := by
  have hlt := b.isLt
  have hsize : (openSecond s).work.j.toNat = b.toNat / 2 := by
    show (BitVec.ofNat 32 (s.work.b.toNat / 2)).toNat = _
    rw [h.size, ofNat_toNat_lt (by omega)]
  rw [hsize, settleBlock_firstDone ⟨h.done, h.pass⟩, closeIfDone]
  cases hn : b.toNat / 2 with
  | zero =>
    have hnone : (openSecond s).work.j = 0 := BitVec.eq_of_toNat_eq (hsize.trans hn)
    rw [if_pos hnone]
    rfl
  | succ n =>
    have hsecond : PassLeft .second b (n + 1) (openSecond s) := ⟨rfl, h.size, hsize.trans hn⟩
    rw [if_neg hsecond.ne_zero, hsecond.repeat_blockStep]
    show (repeatFlow (n + 1) secondPassByte (openSecond s)).andThen _ = _
    cases hrun : repeatFlow (n + 1) secondPassByte (openSecond s) with
    | go t =>
      have hdone := hsecond.repeat_passByte hrun
      have hsecondPass : ¬ (t.work.j = 0 ∧ t.work.pass = .first) := by
        rw [hdone.pass]
        exact fun hfirst => nomatch hfirst.2
      rw [Flow.go_andThen, Flow.go_andThen, settleBlock_else hsecondPass, closeIfDone, if_pos hdone.done]
    | stop t => rfl
    | fault r => rfl

/-- A block is as many byte steps as it has bytes (41_block_unshuffler.md R148). -/
theorem runBlock_steps {s : State} (hj : s.work.j = 0) (hb : 0 < nextSize s) :
    repeatFlow (nextSize s) blockStep s = runBlock s := by
  have hlt := nextSize_lt s
  have hleft : s.work.left ≠ 0 := fun h => by rw [nextSize, h] at hb; exact absurd hb (by simp)
  have hsize : (BitVec.ofNat 32 (nextSize s)).toNat = nextSize s := ofNat_toNat_lt hlt
  obtain ⟨m, hm⟩ : ∃ m, (nextSize s + 1) / 2 = m + 1 := ⟨(nextSize s + 1) / 2 - 1, by omega⟩
  have hfirst : PassLeft .first (BitVec.ofNat 32 (nextSize s)) (m + 1) (openBlock s) :=
    ⟨rfl, rfl, (ofNat_toNat_lt (show (nextSize s + 1) / 2 < 2 ^ 32 by omega)).trans hm⟩
  have hentry : repeatFlow (m + 1) blockStep s = repeatFlow (m + 1) blockStep (openBlock s) := by
    rw [repeatFlow_succ, repeatFlow_succ, blockStep_openBlock hj hleft hfirst.ne_zero]
  rw [show nextSize s = (m + 1) + nextSize s / 2 by omega, repeatFlow_add, hentry, hfirst.repeat_blockStep, runBlock]
  dsimp only
  rw [hfirst.left]
  show ((repeatFlow (m + 1) firstPassByte (openBlock s)).andThen _).andThen _ = _
  cases hrun : repeatFlow (m + 1) firstPassByte (openBlock s) with
  | go t =>
    have hsecond := secondPass_steps (hfirst.repeat_passByte hrun)
    rw [hsize] at hsecond
    exact hsecond
  | stop t => rfl
  | fault r => rfl

/-! ### All blocks -/

/-- The blocks that are left and finish(L) are a byte step for each byte and one more (41_block_unshuffler.md R148, R150). -/
theorem blockLoop_steps {s : State} (hbs : s.blockSize ≠ 0) (n : Nat) {t : State} (h : BlocksDone s t) (hj : t.work.j = 0)
    (hn : t.work.left.toNat ≤ n) : repeatFlow (t.work.left.toNat + 1) blockStep t =
      (blockLoop n t).andThen fun u => .stop (u.finish u.work.l) := by
  have hfinal (hleft : t.work.left.toNat = 0) : repeatFlow (t.work.left.toNat + 1) blockStep t = .stop (t.finish t.work.l) := by
    rw [hleft, repeatFlow_one, blockStep_final hj (BitVec.eq_of_toNat_eq hleft)]
  induction n generalizing t with
  | zero => exact hfinal (by omega)
  | succ n ih =>
    rw [blockLoop]
    by_cases hleft : t.work.left.toNat = 0
    · rw [if_pos hleft]
      exact hfinal hleft
    · have hready := h.blockReady hbs hleft
      have hb0 := hready.b0
      have hle : nextSize t ≤ t.work.left.toNat := Nat.min_le_right _ _
      obtain ⟨u, hrun, hu, -⟩ := h.runBlock hbs hleft
      obtain ⟨v, hrun', -, hleftv, hjv, -⟩ := runBlock_spec t hready
      obtain rfl : u = v := Flow.go.inj (hrun.symm.trans hrun')
      rw [if_neg hleft, show t.work.left.toNat + 1 = nextSize t + (u.work.left.toNat + 1) by omega, repeatFlow_add,
        runBlock_steps hj hb0, hrun, Flow.go_andThen, Flow.go_andThen]
      refine ih hu hjv (by omega) fun hleftu => ?_
      rw [hleftu, repeatFlow_one, blockStep_final hjv (BitVec.eq_of_toNat_eq hleftu)]

theorem blockRun_steps {s : State} (hbs : s.blockSize ≠ 0) :
    repeatFlow (s.activeLen + 1) blockStep (blockBegun s) = blockRun (blockBegun s) := by
  have hlen := s.regs.inLen.isLt
  have hact := s.activeLen_le
  have hleft : (blockBegun s).work.left.toNat = s.activeLen := ofNat_toNat_lt (show s.activeLen < 2 ^ 32 by omega)
  have hsteps := blockLoop_steps hbs _ (blocksDone_blockBegun s) rfl (Nat.le_refl _)
  rw [hleft] at hsteps
  rw [blockRun, hsteps, hleft]

/-! ### The loop of DECRYPT_LEGACY -/

theorem legacyStep_byte {s : State} (h : s.work.i.toNat < s.work.l.toNat) : legacyStep s = .go (legacyByte s) := if_pos h

theorem legacyStep_final {s : State} (h : ¬ s.work.i.toNat < s.work.l.toNat) : legacyStep s = .stop (s.finish s.work.l) :=
  if_neg h

/-- The loop is a step for each byte and one more (40_stream_cipher.md R113). -/
theorem legacyRun_steps (n : Nat) {s : State} (h : s.work.l.toNat - s.work.i.toNat = n) :
    repeatFlow (n + 1) legacyStep s = legacyRun s := by
  induction n generalizing s with
  | zero =>
    rw [repeatFlow_one, legacyStep_final (by omega), legacyRun, h]
    rfl
  | succ n ih =>
    have hlt := s.work.l.isLt
    have hi : (legacyByte s).work.i.toNat = s.work.i.toNat + 1 := word_succ rfl (by omega)
    have hleft : (legacyByte s).work.l.toNat - (legacyByte s).work.i.toNat = n := by
      rw [hi]
      show s.work.l.toNat - _ = n
      omega
    rw [repeatFlow_succ, legacyStep_byte (by omega), Flow.go_andThen, ih hleft, legacyRun, legacyRun, h, hleft]
    rfl

end Sys2Proof.Machine
end

section
/-! PROOFS. A command by the core's steps and by micro-steps ends where its transaction ends (00_scope.md R16, 92_eei_decisions.md D27),
and how many micro-steps it takes (70_reset_and_hazards.md R257). -/

namespace Sys2Proof.Machine

/-! ### Repeating a step function -/

/-- Two step functions that agree on what the second keeps run alike. -/
theorem repeatFlow_congr {P : State → Prop} {f g : State → Flow} (hfg : ∀ s, P s → f s = g s)
    (hP : ∀ s t, P s → g s = .go t → P t) (n : Nat) {s : State} (hs : P s) : repeatFlow n f s = repeatFlow n g s := by
  induction n generalizing s with
  | zero => rfl
  | succ n ih =>
    rw [repeatFlow_succ, repeatFlow_succ, hfg s hs]
    cases hrun : g s with
    | go t => exact ih (hP s t hs hrun)
    | stop t => rfl
    | fault r => rfl

theorem repeatFlow_stop_le {f : State → Flow} {s t : State} {m n : Nat} (h : repeatFlow m f s = .stop t) (hmn : m ≤ n) :
    repeatFlow n f s = .stop t := by
  obtain ⟨k, rfl⟩ := Nat.exists_eq_add_of_le hmn
  rw [repeatFlow_add, h, Flow.stop_andThen]

/-- A run stops in one state, however long it is given. -/
theorem repeatFlow_stop_unique {f : State → Flow} {s t u : State} {m n : Nat} (ht : repeatFlow m f s = .stop t)
    (hu : repeatFlow n f s = .stop u) : t = u :=
  Flow.stop.inj ((repeatFlow_stop_le ht (Nat.le_max_left m n)).symm.trans (repeatFlow_stop_le hu (Nat.le_max_right m n)))

/-! ### Where the core rests (20_memory.md R70, 70_reset_and_hazards.md R241) -/

/-- The step function does nothing while no command runs, and stops only when none does. -/
structure Resting (f : State → Flow) : Prop where
  idle : ∀ s, s.isBusy = false → f s = .go s
  stop : ∀ s t, f s = .stop t → t.isBusy = false

theorem Resting.repeatFlow_idle {f : State → Flow} (h : Resting f) (n : Nat) {s : State} (hb : s.isBusy = false) :
    repeatFlow n f s = .go s := by
  induction n with
  | zero => rfl
  | succ n ih => rw [repeatFlow_succ, h.idle s hb, Flow.go_andThen, ih]

theorem finish_not_busy (s : State) (n : Word) : (s.finish n).isBusy = false := rfl

/-- Everything a step of DECRYPT_LEGACY can do: go on, or finish(L) (40_stream_cipher.md R113). -/
theorem legacyStep_cases (s : State) :
    (∃ t, legacyStep s = .go t ∧ t.regs = s.regs) ∨ legacyStep s = .stop (s.finish s.work.l) := by
  by_cases h : s.work.i.toNat < s.work.l.toNat
  · exact .inl ⟨_, legacyStep_byte h, legacyByte_regs s⟩
  · exact .inr (legacyStep_final h)

theorem resting_microStep : Resting microStep where
  idle _ := microStep_idle
  stop s t h := by
    cases hb : s.isBusy with
    | false =>
      rw [microStep_idle hb] at h
      cases h
    | true =>
      rcases op_cases s.regs.op with hop | hop | hop | hop
      · rw [microStep_nop hop] at h
        cases h
      · rw [microStep_legacy hb hop] at h
        rcases legacyStep_cases s with ⟨u, hgo, -⟩ | hfinal
        · rw [hgo] at h
          cases h
        · rw [hfinal] at h
          cases h
          exact finish_not_busy _ _
      · rw [microStep_block hb hop] at h
        rcases blockStep_cases s with hfault | ⟨u, hgo, -⟩ | hfinal
        · rw [hfault] at h
          cases h
        · rw [hgo] at h
          cases h
        · rw [hfinal] at h
          cases h
          exact finish_not_busy _ _
      · rw [microStep_stream ⟨hb, hop⟩] at h
        have hlead := streamRule_ended.lzssStep ((isBusy_iff s).mp hb)
        rw [h] at hlead
        exact hlead.not_busy

/-! ### The core's step as a flow -/

/-- The core's step: the token that is fetched where one is about to be read, or a micro-step (log 13). -/
def coreFlow (s : State) : Flow :=
  if s.atToken then
    match fetchToken s with
    | .ok i => tokenFlow i s
    | .error _ => microStep s
  else microStep s

/-- What the core's step can be. -/
theorem coreFlow_cases (s : State) :
    (s.atToken = true ∧ ∃ i, fetchToken s = .ok i ∧ coreFlow s = tokenFlow i s ∧ coreStep s = exec i s)
      ∨ coreFlow s = microStep s ∧ coreStep s = (microStep s).outcome := by
  unfold coreFlow coreStep
  cases ht : s.atToken with
  | false => exact .inr ⟨rfl, rfl⟩
  | true =>
    cases hfetch : fetchToken s with
    | ok i => exact .inl ⟨rfl, i, rfl, rfl, rfl⟩
    | error e => exact .inr ⟨rfl, rfl⟩

theorem coreStep_eq (s : State) : coreStep s = (coreFlow s).outcome := by
  rcases coreFlow_cases s with ⟨ht, i, hfetch, hflow, hstep⟩ | ⟨hflow, hstep⟩
  · rw [hstep, hflow, exec_atToken ht (fetchToken_ok hfetch).1]
  · rw [hstep, hflow]

theorem resting_coreFlow : Resting coreFlow where
  idle s hb := by
    have htoken : s.atToken = false := by
      rw [State.atToken, hb]
      rfl
    rw [coreFlow, htoken]
    exact microStep_idle hb
  stop s t h := by
    rcases coreFlow_cases s with ⟨ht, i, -, hflow, -⟩ | ⟨hflow, -⟩
    · have hlead := streamRule_ended.tokenFlow i ((isBusy_iff s).mp ((atToken_iff s).mp ht).1)
      rw [hflow] at h
      rw [h] at hlead
      exact hlead.not_busy
    · exact resting_microStep.stop s t (hflow.symm.trans h)

/-! ### Steps of the machine while only the core moves -/

theorem runSteps_succ (n : Nat) (s : State) : runSteps (n + 1) s =
    match step s with
    | .next t => runSteps n t
    | .fault r => .fault r
    | .refused r => .refused r := rfl

/-- With no input the machine's steps are the core's. -/
theorem runSteps_core (n : Nat) {s : State} (h : s.inputs = []) : runSteps n s = (repeatFlow n coreFlow s).outcome := by
  induction n generalizing s with
  | zero => rfl
  | succ n ih =>
    have hstep : step s = (coreFlow s).outcome := by rw [step_of_no_input h, coreStep_eq]
    have hkeep {t : State} (ht : (coreFlow s).outcome = .next t) : t.inputs = [] :=
      (coreStep_inputs ((coreStep_eq s).trans ht)).trans h
    rw [runSteps_succ, repeatFlow_succ, hstep]
    cases hrun : coreFlow s with
    | go t =>
      rw [hrun] at hkeep
      exact ih (hkeep rfl)
    | stop t =>
      rw [hrun] at hkeep
      have hrest := ih (hkeep rfl)
      rw [resting_coreFlow.repeatFlow_idle n (resting_coreFlow.stop s t hrun)] at hrest
      exact hrest
    | fault r => rfl

theorem step_micro {s : State} {es : List Event} (h : s.inputs = .micro :: es) :
    step s = (microStep (s.withInputs es)).outcome := by
  rw [step, nextStep, h]
  rfl

/-- With nothing but micro-steps asked for, the machine's steps are the micro-steps. -/
theorem runSteps_micro (n : Nat) (s : State) : runSteps n (s.withInputs (List.replicate n .micro)) =
    ((repeatFlow n microStep s).map (State.withInputs · [])).outcome := by
  induction n generalizing s with
  | zero => rfl
  | succ n ih =>
    have hstep : step (s.withInputs (List.replicate (n + 1) .micro)) =
        ((microStep s).map (State.withInputs · (List.replicate n .micro))).outcome :=
      (step_micro (es := List.replicate n .micro) rfl).trans (congrArg Flow.outcome (ignoresInputs_microStep s _))
    rw [runSteps_succ, repeatFlow_succ, hstep]
    cases hrun : microStep s with
    | go t => exact ih t
    | stop t =>
      have hrest := ih t
      rw [resting_microStep.repeatFlow_idle n (resting_microStep.stop s t hrun)] at hrest
      exact hrest
    | fault r => rfl

/-! ### A command's run as steps -/

/-- The rest of a command after its initial step, as one transaction. -/
def commandRun : Instr → State → Flow
  | .nop => .go
  | .decryptLegacy => legacyRun
  | .decryptBlock => blockRun
  | .decompress => streamRun
  | .lit _ => .go
  | .matchCopy _ _ => .go
  | .endMark => .go

theorem exec_command {i : Instr} (hi : i.isCommand = true) {s : State} (hb : s.isBusy = false) :
    exec i s = ((startOnly i s).andThen (commandRun i)).outcome := by
  cases i with
  | nop => exact unlessBusy_idle hb _
  | decryptLegacy => exact unlessBusy_idle hb _
  | decryptBlock => exact unlessBusy_idle hb _
  | decompress => exact unlessBusy_idle hb _
  | _ => cases hi

/-- The step function is a micro-step except at a token, where it may be the whole turn. -/
structure StepsTokens (f : State → Flow) : Prop where
  micro : ∀ s, s.atToken = false → f s = microStep s
  token : ∀ s, Streaming s → s.work.fsm = .readControl → f s = decodeOne s ∨ f s = microStep s

theorem stepsTokens_microStep : StepsTokens microStep := ⟨fun _ _ => rfl, fun _ _ _ => .inr rfl⟩

theorem stepsTokens_coreFlow : StepsTokens coreFlow where
  micro s ht := by
    rw [coreFlow, ht]
    rfl
  token s hs _ := by
    rcases coreFlow_cases s with ⟨-, i, hfetch, hflow, -⟩ | ⟨hflow, -⟩
    · exact .inl (hflow.trans (decodeOne_of_fetchToken hs.inv.cursor hfetch).symm)
    · exact .inr hflow

section
variable {f : State → Flow} (hf : StepsTokens f)
include hf

theorem StepsTokens.microInToken : MicroInToken f := fun s hs hfsm => by
  have htoken : s.atToken = false := Bool.eq_false_iff.mpr fun ht => hfsm ((atToken_iff s).mp ht).2.2
  rw [hf.micro s htoken, microStep_stream hs]

theorem StepsTokens.decodeOne {s : State} (hs : Streaming s) (hready : s.work.fsm = .readControl) :
    ∃ n, repeatFlow n f s = decodeOne s := by
  rcases hf.token s hs hready with hturn | hmicro
  · exact ⟨1, (repeatFlow_one f s).trans hturn⟩
  · have hfirst : f s = readControl s := by rw [hmicro, microStep_stream hs.decoding, lzssStep_readControl hready]
    obtain ⟨n, hsteps, -⟩ := decodeOne_steps hf.microInToken hs.decoding hfirst
    exact ⟨n + 1, hsteps⟩

/-- So many turns of the token loop are so many steps. -/
theorem StepsTokens.repeat_decodeOne (k : Nat) {s : State} (hs : Streaming s) (hready : s.work.fsm = .readControl) :
    ∃ n, repeatFlow n f s = repeatFlow k Machine.decodeOne s := by
  induction k generalizing s with
  | zero => exact ⟨0, rfl⟩
  | succ k ih =>
    obtain ⟨m, hm⟩ := hf.decodeOne hs hready
    have hlead := decodeOne_leads hs hready
    rw [repeatFlow_succ]
    cases hrun : Machine.decodeOne s with
    | go t =>
      rw [hrun] at hlead
      obtain ⟨ht, -, hreadyt, -⟩ := hlead
      obtain ⟨n, hn⟩ := ih ht hreadyt
      exact ⟨m + n, by rw [repeatFlow_add, hm, hrun, Flow.go_andThen, hn, Flow.go_andThen]⟩
    | stop t => exact ⟨m, hm.trans hrun⟩
    | fault r => exact ⟨m, hm.trans hrun⟩

theorem StepsTokens.of_cipher {s : State} (hop : s.regs.op ≠ 3) : f s = microStep s :=
  hf.micro s (Bool.eq_false_iff.mpr fun ht => hop ((atToken_iff s).mp ht).2.1)

end

/-- The cipher with this OP is running. -/
def State.Ciphering (op : BitVec 2) (s : State) : Prop := s.isBusy = true ∧ s.regs.op = op

theorem ciphering_of_regs {op : BitVec 2} {s t : State} (h : s.Ciphering op) (ht : t.regs = s.regs) : t.Ciphering op := by
  unfold State.Ciphering State.isBusy at h ⊢
  rwa [ht]

section
variable {f : State → Flow} (hf : StepsTokens f)
include hf

theorem StepsTokens.repeat_legacyStep (n : Nat) {s : State} (hs : s.Ciphering 1) :
    repeatFlow n f s = repeatFlow n legacyStep s := by
  refine repeatFlow_congr (fun t ht => ?_) (fun t u ht hu => ?_) n hs
  · rw [hf.of_cipher (by rw [ht.2]; decide), microStep_legacy ht.1 ht.2]
  · rcases legacyStep_cases t with ⟨v, hgo, hregs⟩ | hfinal
    · rw [hgo] at hu
      cases hu
      exact ciphering_of_regs ht hregs
    · rw [hfinal] at hu
      cases hu

theorem StepsTokens.repeat_blockStep (n : Nat) {s : State} (hs : s.Ciphering 2) :
    repeatFlow n f s = repeatFlow n blockStep s := by
  refine repeatFlow_congr (fun t ht => ?_) (fun t u ht hu => ?_) n hs
  · rw [hf.of_cipher (by rw [ht.2]; decide), microStep_block ht.1 ht.2]
  · rcases blockStep_cases t with hfault | ⟨v, hgo, hregs⟩ | hfinal
    · rw [hfault] at hu
      cases hu
    · rw [hgo] at hu
      cases hu
      exact ciphering_of_regs ht hregs
    · rw [hfinal] at hu
      cases hu

end

/-- What a command's initial step goes on with, its checks passed. -/
theorem startOnly_go {i : Instr} (hi : i.isCommand = true) {s u : State} (h : startOnly i s = .go u) :
    i = .nop ∧ u = s.storeNop ∨ i = .decryptLegacy ∧ s.regs.inLen.toNat ≤ s.par.inCapacity ∧ u = legacyBegun s
      ∨ i = .decryptBlock ∧ s.blockAccepted ∧ u = blockBegun s
      ∨ i = .decompress ∧ s.streamAccepted ∧ u = decompressBegun s := by
  cases i with
  | nop => exact .inl ⟨rfl, (Flow.go.inj h).symm⟩
  | decryptLegacy =>
    rcases Nat.lt_or_ge s.par.inCapacity s.regs.inLen.toNat with hlen | hlen
    · exact stop_ne_go ((beginLegacy_long hlen).symm.trans h)
    · exact .inr (.inl ⟨rfl, hlen, Flow.go.inj (h.symm.trans (beginLegacy_ok hlen))⟩)
  | decryptBlock =>
    by_cases hok : s.blockAccepted
    · exact .inr (.inr (.inl ⟨rfl, hok, Flow.go.inj (h.symm.trans (beginBlock_ok hok.1 hok.2))⟩))
    · exact stop_ne_go ((beginBlock_rejected hok).symm.trans h)
  | decompress =>
    by_cases hok : s.streamAccepted
    · exact .inr (.inr (.inr ⟨rfl, hok, Flow.go.inj (h.symm.trans (beginDecompress_accepted hok))⟩))
    · exact stop_ne_go ((beginDecompress_rejected hok).symm.trans h)
  | _ => cases hi

/-- What a command's initial step ends in when a check fails. -/
theorem startOnly_stop {i : Instr} {s t : State} (h : startOnly i s = .stop t) :
    t = legacyRejected s ∨ t = blockRejected s ∨ t = (decompressChecked s).raise .outOfRange false := by
  cases i with
  | decryptLegacy =>
    rcases Nat.lt_or_ge s.par.inCapacity s.regs.inLen.toNat with hlen | hlen
    · exact .inl (Flow.stop.inj (h.symm.trans (beginLegacy_long hlen)))
    · exact stop_ne_go (h.symm.trans (beginLegacy_ok hlen))
  | decryptBlock =>
    by_cases hok : s.blockAccepted
    · exact stop_ne_go (h.symm.trans (beginBlock_ok hok.1 hok.2))
    · exact .inr (.inl (Flow.stop.inj (h.symm.trans (beginBlock_rejected hok))))
  | decompress =>
    by_cases hok : s.streamAccepted
    · exact stop_ne_go (h.symm.trans (beginDecompress_accepted hok))
    · exact .inr (.inr (Flow.stop.inj (h.symm.trans (beginDecompress_rejected hok))))
  | _ => exact stop_ne_go h.symm

theorem startOnly_inputs {i : Instr} (hi : i.isCommand = true) {s t : State} (h : (startOnly i s).outcome = .next t) :
    t.inputs = s.inputs := by
  rcases Flow.outcome_next.mp h with hgo | hstop
  · rcases startOnly_go hi hgo with ⟨-, rfl⟩ | ⟨-, -, rfl⟩ | ⟨-, -, rfl⟩ | ⟨-, -, rfl⟩
    · rfl
    · rfl
    · rfl
    · rfl
  · rcases startOnly_stop hstop with rfl | rfl | rfl
    · rfl
    · rfl
    · exact raise_inputs _ _ _

theorem legacyBegun_steps (s : State) {f : State → Flow} (hf : StepsTokens f) :
    repeatFlow (s.regs.inLen.toNat - s.regs.start.toNat + 1) f (legacyBegun s) = legacyRun (legacyBegun s) := by
  rw [hf.repeat_legacyStep _ ⟨rfl, rfl⟩]
  exact legacyRun_steps _ rfl

theorem blockBegun_steps {s : State} (hbs : s.blockSize ≠ 0) {f : State → Flow} (hf : StepsTokens f) :
    repeatFlow (s.activeLen + 1) f (blockBegun s) = blockRun (blockBegun s) := by
  rw [hf.repeat_blockStep _ ⟨rfl, rfl⟩]
  exact blockRun_steps hbs

theorem decompressBegun_steps {s : State} (hp : s.par.wf) (h : s.streamAccepted) {f : State → Flow} (hf : StepsTokens f) :
    ∃ n, repeatFlow n f (decompressBegun s) = streamRun (decompressBegun s) :=
  hf.repeat_decodeOne _ (streaming_decompressBegun hp h) rfl

/-- The rest of a command is so many steps, a whole token being one or several. -/
theorem commandRun_steps {f : State → Flow} (hf : StepsTokens f) {i : Instr} (hi : i.isCommand = true) {s u : State}
    (hp : s.par.wf) (h : startOnly i s = .go u) : ∃ n, repeatFlow n f u = commandRun i u := by
  rcases startOnly_go hi h with ⟨rfl, rfl⟩ | ⟨rfl, -, rfl⟩ | ⟨rfl, hok, rfl⟩ | ⟨rfl, hok, rfl⟩
  · exact ⟨0, rfl⟩
  · exact ⟨_, legacyBegun_steps s hf⟩
  · exact ⟨_, blockBegun_steps hok.2 hf⟩
  · exact decompressBegun_steps hp hok hf

/-- DECOMPRESS has stopped once its micro-steps are as many as it can make at most. -/
theorem decompressBegun_microSteps {s : State} (hp : s.par.wf) (h : s.streamAccepted) :
    repeatFlow ((decompressBegun s).movesLeft + 1) microStep (decompressBegun s) = streamRun (decompressBegun s) := by
  have hstream := streaming_decompressBegun hp h
  obtain ⟨t, ht, -⟩ := repeatFlow_stops (P := Streaming) (Q := fun _ => True) (f := microStep) (moves := State.movesLeft)
    (fun t ht => by
      have hlead := lzssStep_leads ht
      rw [← microStep_stream ht.decoding] at hlead
      cases hrun : microStep t with
      | go v =>
        rw [hrun] at hlead
        exact ⟨hlead.1.1, hlead.2.movesLeft_lt ht.inv ht.par⟩
      | stop v => exact trivial
      | fault r =>
        rw [hrun] at hlead
        exact hlead.elim) _ hstream (Nat.lt_succ_self _)
  obtain ⟨u, hu, -⟩ := streamRun_stops hstream rfl
  obtain ⟨n, hn⟩ := decompressBegun_steps hp h stepsTokens_microStep
  rw [ht, hu, repeatFlow_stop_unique ht (hn.trans hu)]

theorem movesLeft_decompressBegun {s : State} (hp : s.par.wf) (h : s.streamAccepted) (hff : s.par.pastEnd = .failFast) :
    (decompressBegun s).movesLeft = 2 * (8 * s.regs.inLen.toNat) + s.par.outCapacity := by
  have htotal : (decompressBegun s).work.total.toNat = 8 * s.regs.inLen.toNat := (streaming_decompressBegun hp h).inv.total
  have hleft : (decompressBegun s).bitsLeft = 8 * s.regs.inLen.toNat := by
    rw [State.bitsLeft, htotal]
    rfl
  rw [movesLeft_readControl (s := decompressBegun s) rfl, State.mostMoves, hleft, if_pos (by exact hff)]
  rfl

/-- The rest of a command is so many micro-steps, within the bounds of 70_reset_and_hazards.md R257. -/
theorem commandRun_microSteps {i : Instr} (hi : i.isCommand = true) {s u : State} (hp : s.par.wf)
    (h : startOnly i s = .go u) :
    ∃ n, repeatFlow n microStep u = commandRun i u ∧ (s.par.pastEnd = .failFast → n ≤ stepBound s i) := by
  rcases startOnly_go hi h with ⟨rfl, rfl⟩ | ⟨rfl, -, rfl⟩ | ⟨rfl, hok, rfl⟩ | ⟨rfl, hok, rfl⟩
  · exact ⟨0, rfl, fun _ => Nat.le_refl _⟩
  · exact ⟨_, legacyBegun_steps s stepsTokens_microStep, fun _ => Nat.le_refl _⟩
  · exact ⟨_, blockBegun_steps hok.2 stepsTokens_microStep, fun _ => Nat.succ_le_succ s.activeLen_le⟩
  · exact ⟨_, decompressBegun_microSteps hp hok,
      fun hff => Nat.succ_le_succ (movesLeft_decompressBegun hp hok hff).le⟩

/-! ### The two statements -/

theorem exec_command_next {i : Instr} (hi : i.isCommand = true) {s : State} (hp : s.par.wf) (hb : s.isBusy = false) :
    ∃ t, exec i s = .next t := by
  have hended (hc : i = .decryptLegacy ∨ i = .decryptBlock ∨ i = .decompress) : ∃ t, exec i s = .next t := by
    obtain ⟨t, ht, -⟩ := commandsEndDoneOrError s i hp hb hc
    exact ⟨t, ht⟩
  cases i with
  | nop => exact ⟨_, unlessBusy_idle hb _⟩
  | decryptLegacy => exact hended (.inl rfl)
  | decryptBlock => exact hended (.inr (.inl rfl))
  | decompress => exact hended (.inr (.inr rfl))
  | _ => cases hi

theorem startOnly_next {i : Instr} (hi : i.isCommand = true) (s : State) : ∃ t, (startOnly i s).outcome = .next t := by
  by_cases hnop : i = .nop
  · rw [hnop]
    exact ⟨_, rfl⟩
  · obtain ⟨t, ht, -⟩ := startOnly_started hi hnop s
    exact ⟨t, ht⟩

/-- A CMD write to an idle core that nothing follows: the state it answers, and that so many steps of `f` lead from there to the
state of the transaction, where so many lead from the initial step to the end of the command. -/
theorem commandWrite_steps {f : State → Flow} {bound : Nat → Prop} (h0 : bound 0) {s : State} {v : Word} (hp : s.par.wf)
    (hb : s.isBusy = false) (hin : s.inputs = [])
    (hrun : ∀ u, startOnly (decodeCommand v) s = .go u → ∃ n, repeatFlow n f u = commandRun (decodeCommand v) u ∧ bound n) :
    ∃ u t n, step { s with inputs := [.writeReg 0x00 v] } = .next u ∧ exec (decodeCommand v) s = .next t
      ∧ u.inputs = [] ∧ t.inputs = [] ∧ (repeatFlow n f u).outcome = .next t ∧ bound n := by
  have hi := decodeCommand_isCommand v
  have hsame : { s with inputs := [] } = s := by rw [← hin]
  have hstep : step { s with inputs := [.writeReg 0x00 v] } = (startOnly (decodeCommand v) s).outcome := by
    refine (step_writeReg (s := s.withInputs [.writeReg 0x00 v]) rfl).trans ((unlessBusy_idle hb _).trans ?_)
    exact congrArg (fun t => (startOnly (decodeCommand v) t).outcome) hsame
  obtain ⟨t, hexec⟩ := exec_command_next hi hp hb
  obtain ⟨u, hstart⟩ := startOnly_next hi s
  have hinputs : u.inputs = [] := (startOnly_inputs hi hstart).trans hin
  have hinputs' : t.inputs = [] := by
    obtain ⟨-, -, hkept, -⟩ := exec_regs hexec
    exact hkept.trans hin
  rw [hstep]
  have hexec' := (exec_command hi hb).symm.trans hexec
  rcases Flow.outcome_next.mp hstart with hgo | hstop
  · obtain ⟨n, hn, hbound⟩ := hrun u hgo
    rw [hgo] at hexec'
    exact ⟨u, t, n, hstart, hexec, hinputs, hinputs', by rw [hn]; exact hexec', hbound⟩
  · rw [hstop] at hexec'
    exact ⟨u, t, 0, hstart, hexec, hinputs, hinputs', hexec', h0⟩

/-- Settles O57: a command is so many steps of the core, a token that is fetched being the turn that reads it. -/
theorem steppingAgreesWithTransaction : Obligations.SteppingAgreesWithTransaction := by
  unfold Obligations.SteppingAgreesWithTransaction
  intro s v hp hb hin
  obtain ⟨u, t, n, hstep, hexec, hinputs, -, hrun, -⟩ := commandWrite_steps (f := coreFlow) (bound := fun _ => True) trivial
    hp hb hin fun u hu => (commandRun_steps stepsTokens_coreFlow (decodeCommand_isCommand v) hp hu).imp fun n hn =>
      ⟨hn, trivial⟩
  exact ⟨u, t, n, hstep, hexec, (runSteps_core n hinputs).trans hrun⟩

theorem Flow.outcome_map {x : Flow} {t : State} (h : x.outcome = .next t) (g : State → State) :
    (x.map g).outcome = .next (g t) := by
  rcases Flow.outcome_next.mp h with rfl | rfl <;> rfl

/-- Settles O58: a command is so many micro-steps, and they are counted. -/
theorem microStepsAgreeWithinBounds : Obligations.MicroStepsAgreeWithinBounds := by
  unfold Obligations.MicroStepsAgreeWithinBounds
  intro s v hp hb hin
  obtain ⟨u, t, n, hstep, hexec, -, hinputs, hrun, hbound⟩ := commandWrite_steps (f := microStep)
    (bound := fun n => s.par.pastEnd = .failFast → n ≤ stepBound s (decodeCommand v)) (fun _ => Nat.zero_le _) hp hb hin
    fun u hu => commandRun_microSteps (decodeCommand_isCommand v) hp hu
  have hsame : t.withInputs [] = t := by rw [State.withInputs, ← hinputs]
  exact ⟨u, t, n, hstep, hexec,
    (runSteps_micro n u).trans ((Flow.outcome_map hrun _).trans (congrArg Host.Outcome.next hsame)), hbound⟩

end Sys2Proof.Machine
end

section
/-! PROOFS. The invariant of the machine: every step keeps it, and in it no step faults (20_memory.md R62, 41_block_unshuffler.md R138,
R143, 42_lzss_decoder.md R167, R183). -/

namespace Sys2Proof.Machine

/-! ### The memories -/

theorem State.MemInv.writeData {s : State} (h : s.MemInv) {i : Nat} (hi : i < s.par.inCapacity) (v : Byte) :
    (s.writeData i v).MemInv :=
  { h with dataWf := Memory.wf_set h.dataWf i v, dataWithin := Memory.within_set h.dataWithin hi v }

theorem State.MemInv.writeOut {s : State} (h : s.MemInv) {i : Nat} (hi : i < s.par.outCapacity) (v : Byte) :
    (s.writeOut i v).MemInv :=
  { h with outWf := Memory.wf_set h.outWf i v, outWithin := Memory.within_set h.outWithin hi v }

theorem State.MemInv.snapshot {s : State} (h : s.MemInv) {n : Nat} (hn : n ≤ s.par.inCapacity) :
    ({ s with snap := (s.snapshot n).snap } : State).MemInv :=
  { h with snapWf := wf_snapshot s n h.snapWf, snapWithin := within_snapshot s n h.snapWithin hn }

theorem State.MemInv.mixData {s : State} (h : s.MemInv) (d : Nat) {n : Nat} (hn : n ≤ s.par.inCapacity) :
    ({ s with data := mixData d s.data n } : State).MemInv :=
  { h with dataWf := Memory.wf_mixData h.dataWf d n, dataWithin := Memory.within_mixData h.dataWithin hn d }

theorem State.MemInv.fillWin {s : State} (h : s.MemInv) {n : Nat} (hn : n ≤ 2 ^ Config.maxIndexSize) :
    (s.fillWin n).MemInv :=
  { h with
    winWf := Memory.wf_dropBelow h.winWf n
    winCanonical := winCanonical_fillWin h.winCanonical n
    winWithin := Memory.within_filter h.winWithin _
    winFilled := Nat.max_le.mpr ⟨h.winFilled, hn⟩ }

theorem State.MemInv.writeWin {s : State} (h : s.MemInv) {i : Nat} (hi : i < 2 ^ Config.maxIndexSize) (v : Byte) :
    (s.writeWin i v).MemInv where
  dataWf := by rw [writeWin_data]; exact h.dataWf
  outWf := by rw [writeWin_out]; exact h.outWf
  snapWf := by rw [writeWin_snap]; exact h.snapWf
  winWf := wf_writeWin h.winWf i v
  winCanonical := winCanonical_writeWin h.winCanonical i v
  dataWithin := by rw [writeWin_data, writeWin_par]; exact h.dataWithin
  outWithin := by rw [writeWin_out, writeWin_par]; exact h.outWithin
  snapWithin := by rw [writeWin_snap, writeWin_par]; exact h.snapWithin
  winWithin := within_writeWin h.winWithin hi v
  winFilled := by rw [writeWin_winFilled]; exact h.winFilled

theorem State.MemInv.emitted {s : State} (h : s.MemInv) (hroom : s.work.optr.toNat < s.par.outCapacity) (v : Byte) :
    (s.emitted v).MemInv :=
  ((h.writeOut hroom v).writeWin s.work.wcur.isLt v).same rfl rfl rfl rfl rfl rfl

/-! ### The states in which no command runs -/

theorem inv_of_not_busy {s : State} (hp : s.par.wf) (hm : s.MemInv) (hb : s.isBusy = false) : s.Inv := by
  have hnot {q : Prop} (hb' : s.isBusy = true) : q := by
    rw [hb] at hb'
    cases hb'
  exact ⟨hp, hm, hnot, fun hb' _ => hnot hb', fun hb' _ => hnot hb'⟩

theorem raise_inv {s : State} (hp : s.par.wf) (hm : s.MemInv) (e : ErrKind) (b : Bool) : (s.raise e b).Inv :=
  inv_of_not_busy (by rw [raise_par]; exact hp)
    (hm.forget (raise_par s e b) (raise_data s e b) (raise_out s e b) (raise_snap s e b) (raise_win s e b)
      (raise_winFilled s e b))
    (ended_raise s e b).not_busy

theorem State.Inv.finish {s : State} (h : s.Inv) (n : Word) : (s.finish n).Inv :=
  inv_of_not_busy h.par (h.mem.same rfl rfl rfl rfl rfl rfl) (finish_not_busy s n)

/-- The invariant does not speak of the inputs and the replies. -/
theorem State.Inv.hostSide {s : State} (h : s.Inv) (es : List Event) (rs : List Reply) :
    ({ s with inputs := es, replies := rs } : State).Inv where
  par := h.par
  mem := { h.mem with }
  running hb := { h.running hb with }
  block hb hop := { h.block hb hop with }
  stream hb hop := { h.stream hb hop with }

/-! ### A micro-step of a cipher -/

/-- What a byte step of DECRYPT_BLOCK changes: DATA and its working registers, not L among them. -/
structure BlockKept (s t : State) : Prop where
  frame : t = { s with data := t.data, work := t.work }
  length : t.work.l = s.work.l

theorem BlockKept.trans {s t u : State} (h : BlockKept s t) (h' : BlockKept t u) : BlockKept s u :=
  ⟨by rw [h'.frame, h.frame], h'.length.trans h.length⟩

theorem blockKept_settleBlock (s : State) : BlockKept s (settleBlock s) :=
  ⟨by rw [settleBlock_eq], settleBlock_l s⟩

section
variable {s : State} (h : s.Inv) (hb : s.isBusy = true)
include h hb

theorem legacyStep_inv (hop : s.regs.op = 1) : (legacyStep s).Leads State.Inv State.Inv := by
  obtain ⟨hnop, hlen, hfits⟩ := h.running hb
  by_cases hi : s.work.i.toNat < s.work.l.toNat
  · rw [legacyStep_byte hi]
    exact ⟨h.par, (h.mem.writeData (by omega) _).same rfl rfl rfl rfl rfl rfl, fun _ => ⟨hnop, hlen, hfits⟩,
      fun _ hop' => absurd (hop.symm.trans hop') (by decide), fun _ hop' => absurd (hop.symm.trans hop') (by decide)⟩
  · rw [legacyStep_final hi]
    exact h.finish _

/-- A byte of DECRYPT_BLOCK written inside DATA[0..L), the block invariant kept, keeps the whole. -/
theorem inv_of_blockKept (hop : s.regs.op = 2) {t : State} (hk : BlockKept s t) {i : Nat} {v : Byte}
    (hdata : t.data = s.data.set i v) (hi : i < s.work.l.toNat) (hblock : t.BlockInv) : t.Inv := by
  obtain ⟨hnop, hlen, hfits⟩ := h.running hb
  have hregs : t.regs = s.regs := by rw [hk.frame]
  have hpar : t.par = s.par := by rw [hk.frame]
  refine ⟨hpar ▸ h.par, (h.mem.writeData (i := i) (by omega) v).same hpar hdata ?_ ?_ ?_ ?_, fun _ => ⟨?_, ?_, ?_⟩,
    fun _ _ => hblock, fun _ hop' => ?_⟩
  · rw [hk.frame]
    rfl
  · rw [hk.frame]
    rfl
  · rw [hk.frame]
    rfl
  · rw [hk.frame]
    rfl
  · rw [hregs]
    exact hnop
  · rw [hk.length, hregs]
    exact hlen
  · rw [hk.length, hpar]
    exact hfits
  · rw [hregs, hop] at hop'
    cases hop'

/-- A byte of the open pass of `u`, which is `s` or `s` with its next block opened. -/
theorem passStep_inv (hop : s.regs.op = 2) {u : State} (hk : BlockKept s u) (hdata : u.data = s.data)
    (hact : u.activeLen = s.activeLen) (hready : ByteReady u) : (passStep u).Leads State.Inv State.Inv := by
  have hfits : u.activeLen ≤ u.work.l.toNat := by
    rw [hact, hk.length, (h.running hb).length]
    exact s.activeLen_le
  have hsettled {t : State} {i : Nat} {v : Byte} (hkt : BlockKept u t) (ht : t.data = u.data.set i v)
      (hi : i < u.work.l.toNat) (hblock : (settleBlock t).BlockInv) : (settleBlock t).Inv :=
    inv_of_blockKept h hb hop ((hk.trans hkt).trans (blockKept_settleBlock t))
      ((settleBlock_data t).trans (ht.trans (by rw [hdata]))) (hk.length ▸ hi) hblock
  obtain ⟨hfirst, hsecond⟩ := byteReady_bounds hready hfits
  rw [passStep_eq]
  cases hpass : u.work.pass with
  | first =>
    obtain ⟨hgo, hi⟩ := hfirst hpass
    rw [show passByte .first u = .go (afterFirst u) from hgo]
    exact hsettled (t := afterFirst u) ⟨rfl, rfl⟩ rfl hi (settle_first hready hpass hfits)
  | second =>
    obtain ⟨hgo, hi⟩ := hsecond hpass
    rw [show passByte .second u = .go (afterSecond u) from hgo]
    exact hsettled (t := afterSecond u) ⟨rfl, rfl⟩ rfl hi (settle_second hready hpass hfits)

theorem blockStep_inv (hop : s.regs.op = 2) : (blockStep s).Leads State.Inv State.Inv := by
  have hB := h.block hb hop
  by_cases hj : s.work.j = 0
  · by_cases hl : s.work.left = 0
    · rw [blockStep_final hj hl]
      exact h.finish _
    · rw [blockStep_open hj hl]
      exact passStep_inv h hb hop (u := openBlock s) ⟨rfl, rfl⟩ rfl rfl (byteReady_open hB hj hl)
  · rw [blockStep_inside hj]
    exact passStep_inv h hb hop (u := s) ⟨rfl, rfl⟩ rfl rfl (byteReady_in hB hj)

end

/-! ### A micro-step of the decoder -/

theorem StreamMove.memInv {s t : State} (h : StreamMove s t) (hm : s.MemInv) (hle : s.work.optr.toNat ≤ s.par.outCapacity) :
    t.MemInv := by
  cases h with
  | literal => exact hm.same rfl rfl rfl rfl rfl rfl
  | endMark => exact hm.same rfl rfl rfl rfl rfl rfl
  | index => exact hm.same rfl rfl rfl rfl rfl rfl
  | length => exact hm.same rfl rfl rfl rfl rfl rfl
  | byte p v hf hge hend hroom =>
    have hseek : (s.seek p).MemInv := hm.same rfl rfl rfl rfl rfl rfl
    exact (hseek.emitted (lt_of_le_of_ne hle hroom) v).same rfl rfl rfl rfl rfl rfl
  | copy hf hc hroom =>
    exact (hm.emitted (lt_of_le_of_ne hle hroom) (s.readWin s.work.moff.toNat)).same rfl rfl rfl rfl rfl rfl

theorem streaming_of_inv {s : State} (h : s.Inv) (hs : s.Decoding) : Streaming s := ⟨h.stream hs.1 hs.2, h.par, hs⟩

theorem StreamStop.inv {s t : State} (h : StreamStop s t) (hi : s.Inv) : t.Inv := by
  cases h with
  | raise p e => exact raise_inv (s := s.seek p) hi.par (hi.mem.same rfl rfl rfl rfl rfl rfl) e true
  | done =>
    exact inv_of_not_busy (s := s.storeBitpos.finish s.work.optr) hi.par (hi.mem.same rfl rfl rfl rfl rfl rfl)
      (finish_not_busy _ _)
  | bitsLeft => exact raise_inv (s := s.storeBitpos) hi.par (hi.mem.same rfl rfl rfl rfl rfl rfl) _ true

theorem lzssStep_inv {s : State} (h : s.Inv) (hs : s.Decoding) : (lzssStep s).Leads State.Inv State.Inv := by
  obtain ⟨hnop, hlen, hfits⟩ := h.running hs.1
  have hstream := streaming_of_inv h hs
  have hlead := lzssStep_leads hstream
  cases hrun : lzssStep s with
  | go t =>
    rw [hrun] at hlead
    obtain ⟨⟨ht, hkept, -⟩, hmove⟩ := hlead
    refine ⟨ht.par, hmove.memInv h.mem hstream.inv.emitted, fun _ => ⟨?_, ?_, ?_⟩, fun _ hop => ?_, fun _ _ => ht.inv⟩
    · rw [hkept.regs]
      exact hnop
    · rw [hkept.length, hkept.regs]
      exact hlen
    · rw [hkept.length, hkept.par]
      exact hfits
    · rw [hkept.regs, hs.2] at hop
      cases hop
  | stop t =>
    rw [hrun] at hlead
    exact hlead.inv h
  | fault r =>
    rw [hrun] at hlead
    exact hlead

theorem microStep_inv {s : State} (h : s.Inv) : (microStep s).Leads State.Inv State.Inv := by
  cases hb : s.isBusy with
  | false =>
    rw [microStep_idle hb]
    exact h
  | true =>
    rcases op_cases s.regs.op with hop | hop | hop | hop
    · rw [microStep_nop hop]
      exact h
    · rw [microStep_legacy hb hop]
      exact legacyStep_inv h hb hop
    · rw [microStep_block hb hop]
      exact blockStep_inv h hb hop
    · rw [microStep_stream ⟨hb, hop⟩]
      exact lzssStep_inv h ⟨hb, hop⟩

theorem repeat_microStep_inv {s : State} (h : s.Inv) (n : Nat) : (repeatFlow n microStep s).Leads State.Inv State.Inv :=
  leads_repeatFlow (fun _ => microStep_inv) n h

/-! ### The core's step and a whole command -/

theorem coreFlow_inv {s : State} (h : s.Inv) : (coreFlow s).Leads State.Inv State.Inv := by
  rcases coreFlow_cases s with ⟨ht, i, hfetch, hflow, -⟩ | ⟨hflow, -⟩
  · obtain ⟨hb, hop, hready⟩ := (atToken_iff s).mp ht
    have hstream := streaming_of_inv h ⟨hb, hop⟩
    obtain ⟨n, hn⟩ := stepsTokens_microStep.decodeOne hstream hready
    rw [hflow, ← decodeOne_of_fetchToken hstream.inv.cursor hfetch, ← hn]
    exact repeat_microStep_inv h n
  · rw [hflow]
    exact microStep_inv h

section
variable {s : State} (h : s.Inv)
include h

theorem legacyBegun_inv (hlen : s.regs.inLen.toNat ≤ s.par.inCapacity) : (legacyBegun s).Inv :=
  ⟨h.par, h.mem.same rfl rfl rfl rfl rfl rfl, fun _ => ⟨(by decide : (1 : BitVec 2) ≠ 0), rfl, hlen⟩,
    fun _ hop => absurd hop (by decide : (1 : BitVec 2) ≠ 2), fun _ hop => absurd hop (by decide : (1 : BitVec 2) ≠ 3)⟩

theorem blockBegun_inv (hok : s.blockAccepted) : (blockBegun s).Inv := by
  refine ⟨h.par, (h.mem.snapshot hok.1).same rfl rfl rfl rfl rfl rfl, fun _ => ⟨(by decide : (2 : BitVec 2) ≠ 0), rfl, hok.1⟩,
    fun _ _ => ⟨hok.2, fun _ => ?_, fun hj => absurd rfl hj, fun hj => absurd rfl hj, fun hj => absurd rfl hj⟩,
    fun _ hop => absurd hop (by decide : (2 : BitVec 2) ≠ 3)⟩
  exact (blocksDone_blockBegun s).cursor

theorem decompressBegun_inv (hok : s.streamAccepted) : (decompressBegun s).Inv := by
  have hi : s.indexSize ≤ Config.maxIndexSize := ((badParams_eq_false s).mp hok.2).1
  have hfill := h.mem.fillWin (Nat.pow_le_pow_right (show 0 < 2 by decide) hi)
  exact ⟨h.par, hfill.forget rfl rfl rfl rfl rfl rfl, fun _ => ⟨(by decide : (3 : BitVec 2) ≠ 0), rfl, hok.1⟩,
    fun _ hop => absurd hop (by decide : (3 : BitVec 2) ≠ 2), fun _ _ => (streaming_decompressBegun h.par hok).inv⟩

/-- The initial step of a command keeps the invariant. -/
theorem startOnly_inv {i : Instr} (hi : i.isCommand = true) (hb : s.isBusy = false) :
    (startOnly i s).Leads State.Inv State.Inv := by
  obtain ⟨t, ht⟩ := startOnly_next hi s
  rcases Flow.outcome_next.mp ht with hgo | hstop
  · rw [hgo]
    rcases startOnly_go hi hgo with ⟨-, rfl⟩ | ⟨-, hlen, rfl⟩ | ⟨-, hok, rfl⟩ | ⟨-, hok, rfl⟩
    · exact inv_of_not_busy h.par (h.mem.same rfl rfl rfl rfl rfl rfl) hb
    · exact legacyBegun_inv h hlen
    · exact blockBegun_inv h hok
    · exact decompressBegun_inv h hok
  · rw [hstop]
    rcases startOnly_stop hstop with rfl | rfl | rfl
    · exact inv_of_not_busy h.par (h.mem.forget rfl rfl rfl rfl rfl rfl) rfl
    · exact inv_of_not_busy h.par (h.mem.forget rfl rfl rfl rfl rfl rfl) rfl
    · exact raise_inv (s := decompressChecked s) h.par (h.mem.same rfl rfl rfl rfl rfl rfl) _ _

/-- A whole command is its initial step and micro-steps. -/
theorem command_inv {i : Instr} (hi : i.isCommand = true) (hb : s.isBusy = false) :
    ((startOnly i s).andThen (commandRun i)).Leads State.Inv State.Inv := by
  have hstart := startOnly_inv h hi hb
  cases hrun : startOnly i s with
  | go u =>
    rw [hrun] at hstart
    obtain ⟨n, hn, -⟩ := commandRun_microSteps hi h.par hrun
    rw [Flow.go_andThen, ← hn]
    exact repeat_microStep_inv hstart n
  | stop u =>
    rw [hrun] at hstart
    exact hstart
  | fault r =>
    rw [hrun] at hstart
    exact hstart

end

/-! ### Every event -/

/-- The step is no fault, and if it answers a next state that meets the invariant. -/
def SafeOutcome : Host.Outcome State Fault Refusal → Prop
  | .next t => t.Inv
  | .fault _ => False
  | .refused _ => True

theorem Flow.Leads.safeOutcome {x : Flow} (h : x.Leads State.Inv State.Inv) : SafeOutcome x.outcome := by
  cases x <;> exact h

theorem hostWriteData_inv {s : State} (h : s.Inv) (hb : s.isBusy = false) (i : Nat) (v : Byte) : (hostWriteData s i v).Inv := by
  by_cases hi : i < s.par.inCapacity
  · rw [hostWriteData_below hi]
    exact inv_of_not_busy h.par (h.mem.writeData hi v) hb
  · rw [hostWriteData_above hi]
    exact h

theorem Regs.write_status {off : Nat} (hoff : off ≠ 0) (r : Regs) (v : Word) : (r.write off v).status = r.status := by
  fun_cases Regs.write r off v <;> rfl

theorem hostWriteReg_inv {s : State} (h : s.Inv) (hb : s.isBusy = false) (off : Nat) (v : Word) :
    (hostWriteReg s off v).Leads State.Inv State.Inv := by
  by_cases hoff : off = 0
  · rw [hoff, hostWriteReg_cmd]
    exact startOnly_inv h (decodeCommand_isCommand v) hb
  · rw [hostWriteReg_of_ne_cmd s hoff]
    refine inv_of_not_busy h.par (h.mem.same rfl rfl rfl rfl rfl rfl) ?_
    rw [isBusy_eq_false] at hb ⊢
    exact (Regs.write_status hoff s.regs v).symm ▸ hb

theorem applyReset_inv {s : State} (h : s.Inv) : (applyReset s).Inv := by
  cases hb : s.isBusy with
  | true =>
    have hmix := h.mem.mixData (s.draws + 1) (h.running hb).lengthFits
    refine inv_of_not_busy h.par (hmix.forget rfl ?_ rfl rfl rfl rfl) rfl
    rw [applyReset, hb]
    rfl
  | false =>
    refine inv_of_not_busy h.par (h.mem.forget rfl ?_ rfl rfl rfl rfl) rfl
    rw [applyReset, hb]
    rfl

theorem runEvent_safe (e : Event) (es : List Event) {s : State} (h : s.Inv) (hidle : e.needsIdle = true → s.isBusy = false) :
    SafeOutcome (runEvent e es s) := by
  have ht : (s.withInputs es).Inv := h.hostSide es s.replies
  have hcore {t : State} (hi : t.Inv) : SafeOutcome (coreStep t) := by
    rw [coreStep_eq]
    exact (coreFlow_inv hi).safeOutcome
  cases e with
  | command v =>
    have hi := decodeCommand_isCommand v
    show SafeOutcome (exec (decodeCommand v) (s.withInputs es))
    rw [exec_command hi (by exact hidle rfl)]
    exact (command_inv ht hi (hidle rfl)).safeOutcome
  | writeReg off v => exact (hostWriteReg_inv ht (hidle rfl) off v).safeOutcome
  | readReg off => exact h.hostSide es _
  | writeData i v => exact hostWriteData_inv ht (hidle rfl) i v
  | readData i => exact h.hostSide es _
  | readOut i => exact h.hostSide es _
  | wait =>
    show SafeOutcome (if s.isBusy then coreStep s else .next (s.withInputs es))
    split
    · exact hcore h
    · exact ht
  | core => exact hcore ht
  | micro => exact (microStep_inv ht).safeOutcome
  | reset => exact applyReset_inv ht

theorem step_safe {s : State} (h : s.Inv) : SafeOutcome (step s) := by
  rw [step, nextStep]
  cases s.inputs with
  | nil =>
    show SafeOutcome (coreStep s)
    rw [coreStep_eq]
    exact (coreFlow_inv h).safeOutcome
  | cons e es =>
    dsimp only
    cases hn : e.needsIdle with
    | false => exact runEvent_safe e es h fun hn' => by rw [hn] at hn'; cases hn'
    | true =>
      rw [if_pos rfl]
      cases hb : s.isBusy with
      | true =>
        rw [unlessBusy_busy hb]
        trivial
      | false =>
        rw [unlessBusy_idle hb]
        exact runEvent_safe e es h fun _ => hb

/-- Settles O54: every event is a micro-step, so many of them, or an act of the host on an idle core. -/
theorem stepKeepsInvariant : Obligations.StepKeepsInvariant := by
  unfold Obligations.StepKeepsInvariant
  intro s t h ht
  have hsafe := step_safe h
  rw [ht] at hsafe
  exact hsafe

/-- Settles O56: where the invariant holds each byte of a pass is ready for its guard. -/
theorem safeStatesNeverFault : Obligations.SafeStatesNeverFault := by
  unfold Obligations.SafeStatesNeverFault
  intro s r h hr
  have hsafe := step_safe h
  rw [hr] at hsafe
  exact hsafe

end Sys2Proof.Machine
end

section
/-! PROOFS. Two runs of DECOMPRESS side by side: that the result depends on the input bytes alone (42_lzss_decoder.md R186), and that a
stream cut short by a byte fails under fail_fast (R180). -/

namespace Sys2Proof.Machine

/-! ### Two decoders on one stream -/

/-- The decoder in `u` stands where the one in `s` does, on the same stream, or where `short` holds on one that ends sooner with
nothing to be read after it. -/
structure Agree (short : Prop) (s u : State) : Prop where
  par : u.par = s.par
  op : s.regs.op = 3
  op' : u.regs.op = 3
  indexSize : u.indexSize = s.indexSize
  lengthSize : u.lengthSize = s.lengthSize
  minLength : u.minLength = s.minLength
  fsm : u.work.fsm = s.work.fsm
  copying : u.work.copying = s.work.copying
  brPos : u.work.brPos = s.work.brPos
  windowSize : u.work.w = s.work.w
  wcur : u.work.wcur = s.work.wcur
  optr : u.work.optr = s.work.optr
  moff : s.work.fsm = .emitMatch → u.work.moff = s.work.moff
  mcnt : s.work.copying = true → u.work.mcnt = s.work.mcnt
  ends : ¬ short ∧ u.work.total = s.work.total
    ∨ short ∧ s.par.pastEnd = .failFast ∧ u.work.total.toNat < s.work.total.toNat
  cursor : u.work.brPos.toNat ≤ u.work.total.toNat
  bits : ∀ q, q < u.work.total.toNat → u.streamBit q = s.streamBit q
  win : ∀ x, x < 2 ^ s.indexSize → u.readWin x = s.readWin x
  out : ∀ i, i < s.work.optr.toNat → u.readOut i = s.readOut i

/-- What the host sees of the result is the same. -/
structure SameResult (t v : State) : Prop where
  status : v.regs.status = t.regs.status
  outLen : v.regs.outLen = t.regs.outLen
  bitpos : v.regs.bitpos = t.regs.bitpos
  out : ∀ i, i < t.regs.outLen.toNat → v.readOut i = t.readOut i

/-- How the second of two decoders follows the first: both go on, both end alike, or, its stream being shorter, it is cut off or the
first does not end in DONE. -/
inductive Follows (short : Prop) : Flow → Flow → Prop
  | go {s u : State} (h : Agree short s u) : Follows short (.go s) (.go u)
  | stop {t v : State} (hshort : ¬ short) (h : SameResult t v) : Follows short (.stop t) (.stop v)
  | cut {x : Flow} {v : State} (hshort : short) (h : v.regs.status = .error .formatInvalid) : Follows short x (.stop v)
  | failed {t : State} {y : Flow} (hshort : short) (h : t.regs.status ≠ .done) : Follows short (.stop t) y

section
variable {short : Prop} {s u : State} (h : Agree short s u)
include h

theorem Agree.total_le : u.work.total.toNat ≤ s.work.total.toNat := by
  rcases h.ends with ⟨-, htotal⟩ | ⟨-, -, hlt⟩
  · rw [htotal]
  · exact hlt.le

/-! ### What keeps the agreement -/

theorem Agree.seek {p : Nat} (hp : p ≤ u.work.total.toNat) : Agree short (s.seek p) (u.seek p) :=
  { h with
    brPos := rfl
    cursor := by
      have hlt := u.work.total.isLt
      rw [seek_brPos (by omega)]
      exact hp }

theorem Agree.toFsm {f : Fsm} (hf : f ≠ .emitMatch) : Agree short (s.toFsm f) (u.toFsm f) :=
  { h with
    fsm := rfl
    moff := fun hmatch => absurd hmatch hf }

theorem Agree.toMatch (off : Nat) : Agree short (s.toMatch off) (u.toMatch off) :=
  { h with
    fsm := rfl
    copying := rfl
    moff := fun _ => rfl
    mcnt := nofun }

theorem Agree.startCopy (n : Nat) (hf : s.work.fsm = .emitMatch) : Agree short (startCopy n s) (startCopy n u) :=
  { h with
    fsm := rfl
    copying := rfl
    moff := fun _ => h.moff hf
    mcnt := fun _ => rfl }

theorem Agree.windowSucc {x y : BitVec 13} (hxy : y = x) : u.windowSucc y = s.windowSucc x := by
  unfold State.windowSucc
  rw [hxy, h.windowSize]

theorem Agree.afterCopy (hf : s.work.fsm = .emitMatch) (hc : s.work.copying = true) :
    Agree short (afterCopy s) (afterCopy u) :=
  { h with
    fsm := by
      show (if u.work.mcnt = 1 then Fsm.readControl else .emitMatch) = if s.work.mcnt = 1 then Fsm.readControl else .emitMatch
      rw [h.mcnt hc]
    copying := by
      show decide (u.work.mcnt ≠ 1) = decide (s.work.mcnt ≠ 1)
      rw [h.mcnt hc]
    moff := fun _ => h.windowSucc (h.moff hf)
    mcnt := fun _ => congrArg (· - 1) (h.mcnt hc) }

theorem Agree.emitted {v w : Byte} (hv : w = v) : Agree short (s.emitted v) (u.emitted w) where
  par := by rw [emitted_par, emitted_par, h.par]
  op := by rw [emitted_regs]; exact h.op
  op' := by rw [emitted_regs]; exact h.op'
  indexSize := by rw [State.indexSize, State.indexSize, emitted_regs, emitted_regs]; exact h.indexSize
  lengthSize := by rw [State.lengthSize, State.lengthSize, emitted_regs, emitted_regs]; exact h.lengthSize
  minLength := by rw [State.minLength, State.minLength, emitted_regs, emitted_regs]; exact h.minLength
  fsm := h.fsm
  copying := h.copying
  brPos := h.brPos
  windowSize := h.windowSize
  wcur := h.windowSucc h.wcur
  optr := congrArg (· + 1) h.optr
  moff := h.moff
  mcnt := h.mcnt
  ends := by rw [emitted_par]; exact h.ends
  cursor := h.cursor
  bits q hq := by
    unfold State.streamBit
    rw [readData_congr (emitted_data u w), readData_congr (emitted_data s v)]
    exact h.bits q hq
  win x hx := by
    rw [State.indexSize, emitted_regs] at hx
    rw [readWin_emitted, readWin_emitted, h.wcur, hv, h.win x hx]
  out i hi := by
    have hnext : i = s.work.optr.toNat ∨ i < s.work.optr.toNat := by
      have hi' : i < (s.work.optr + 1).toNat := hi
      rw [BitVec.toNat_add, show (1 : Word).toNat = 1 from rfl] at hi'
      have := Nat.mod_le (s.work.optr.toNat + 1) (2 ^ 32)
      omega
    rw [readOut_emitted, readOut_emitted, h.optr, hv]
    rcases hnext with hlast | hold
    · rw [if_pos hlast, if_pos hlast]
    · rw [h.out i hold]

/-! ### What the two can do -/

theorem Agree.raise (e : ErrKind) : Follows short (.stop (s.raise e true)) (.stop (u.raise e true)) := by
  by_cases hshort : short
  · exact .failed hshort (by rw [raise_status]; exact nofun)
  · refine .stop hshort ⟨by rw [raise_status, raise_status], by rw [raise_outLen, raise_outLen], ?_, fun i hi => ?_⟩
    · rw [raise_stream s e true h.op, raise_stream u e true h.op']
      exact h.brPos
    · rw [raise_outLen] at hi
      exact absurd hi (Nat.not_lt_zero i)

/-- Both streams end together, or what the shorter one's reader gives are bits it holds. -/
theorem Agree.total_eq_or_read {n : Nat} (hn : u.canRead n) :
    u.work.total = s.work.total ∨ s.work.brPos.toNat + n ≤ u.work.total.toNat := by
  rcases h.ends with ⟨-, htotal⟩ | ⟨-, hff, -⟩
  · exact .inl htotal
  · rcases hn with hread | hz
    · rw [h.brPos] at hread
      exact .inr hread
    · rw [h.par, hff] at hz
      cases hz

/-- The bits still to come are the same, as far as the shorter stream holds them or zeros follow both. -/
theorem Agree.paddedBits {n : Nat} (hn : u.canRead n) : u.paddedBits n = s.paddedBits n := by
  have hle := h.total_le
  rw [paddedBits_eq_map, paddedBits_eq_map]
  refine List.map_congr_left fun i hi => ?_
  have hin := List.mem_range.mp hi
  unfold State.paddedBit State.bitsLeft
  rw [h.brPos]
  by_cases hu : i < u.work.total.toNat - s.work.brPos.toNat
  · rw [if_pos hu, if_pos (by omega), h.bits _ (by omega)]
  · rcases h.total_eq_or_read hn with htotal | hread
    · rw [if_neg hu, if_neg (by rw [← htotal]; exact hu)]
    · omega

/-- A read by both: of the same value, or cut off in the shorter stream or in both. -/
theorem Agree.withBits (n : Nat) {k l : Nat → State → Flow}
    (hk : ∀ v p, Agree short (s.seek p) (u.seek p) → Follows short (k v (s.seek p)) (l v (u.seek p))) :
    Follows short (s.withBits n k) (u.withBits n l) := by
  have hle := h.total_le
  have hcur := h.cursor
  have hcur' : s.work.brPos.toNat ≤ s.work.total.toNat := by rw [← h.brPos]; omega
  rcases withBits_spec u n l hcur with ⟨hff, hcut, e⟩ | ⟨hread, e⟩
  · rw [e]
    rcases h.ends with ⟨hshort, htotal⟩ | ⟨hshort, -, -⟩
    · rw [h.brPos, htotal] at hcut
      rw [withBits_short (by rw [← h.par]; exact hff) hcut]
      exact h.raise _
    · exact .cut hshort (raise_status _ _ _)
  · have hend : min (s.work.brPos.toNat + n) s.work.total.toNat = min (u.work.brPos.toNat + n) u.work.total.toNat := by
      rw [h.brPos]
      rcases h.total_eq_or_read hread with htotal | hread
      · rw [htotal]
      · omega
    have hagree := h.seek (Nat.min_le_right (u.work.brPos.toNat + n) u.work.total.toNat)
    rcases withBits_spec s n k hcur' with ⟨hff, hcut, -⟩ | ⟨-, e'⟩
    · rcases hread with hread | hz
      · rw [h.brPos] at hread
        omega
      · rw [h.par, hff] at hz
        cases hz
    · rw [e, e', h.paddedBits hread, hend]
      exact hk _ _ hagree

theorem Agree.emit {v w : Byte} (hv : w = v) {k l : State → Flow}
    (hk : Agree short (s.emitted v) (u.emitted w) → Follows short (k (s.emitted v)) (l (u.emitted w))) :
    Follows short (s.emit v k) (u.emit w l) := by
  by_cases hfull : s.work.optr.toNat = s.par.outCapacity
  · rw [emit_full hfull, emit_full (by rw [h.optr, h.par]; exact hfull)]
    exact h.raise _
  · rw [emit_room hfull, emit_room (by rw [h.optr, h.par]; exact hfull)]
    exact hk (h.emitted hv)

theorem Agree.readControl : Follows short (readControl s) (readControl u) := by
  refine h.withBits 1 fun c p hp => ?_
  by_cases hc : c = 1
  · rw [if_pos hc, if_pos hc]
    exact .go (hp.toFsm (by decide))
  · rw [if_neg hc, if_neg hc, hp.indexSize]
    refine hp.withBits _ fun off q hq => ?_
    by_cases hoff : off = 0
    · rw [if_pos hoff, if_pos hoff]
      exact .go (hq.toFsm (by decide))
    · rw [if_neg hoff, if_neg hoff]
      exact .go (hq.toMatch off)

theorem Agree.emitLiteral : Follows short (emitLiteral s) (emitLiteral u) :=
  h.withBits 8 fun _ _ hp => hp.emit rfl fun he => .go (he.toFsm (by decide))

theorem Agree.enterMatch (hf : s.work.fsm = .emitMatch) : Follows short (enterMatch s) (enterMatch u) := by
  rw [Machine.enterMatch, Machine.enterMatch, h.lengthSize]
  refine h.withBits _ fun v p hp => ?_
  rw [hp.minLength]
  exact .go (hp.startCopy _ hf)

theorem Agree.copyStep (hf : s.work.fsm = .emitMatch) (hc : s.work.copying = true)
    (hmoff : s.work.moff.toNat < 2 ^ s.indexSize) : Follows short (copyStep s) (copyStep u) := by
  refine h.emit ?_ fun he => .go (he.afterCopy hf hc)
  rw [h.moff hf]
  exact h.win _ hmoff

theorem Agree.terminated : Follows short (terminated s) (terminated u) := by
  have hpos : Agree short s.storeBitpos u.storeBitpos := { h with }
  unfold Machine.terminated
  dsimp only
  rcases h.ends with ⟨hshort, htotal⟩ | ⟨hshort, -, hlt⟩
  · by_cases hend : s.work.brPos = s.work.total
    · rw [if_pos hend, if_pos (by rw [h.brPos, htotal]; exact hend)]
      exact .stop hshort ⟨rfl, h.optr, h.brPos, h.out⟩
    · rw [if_neg hend, if_neg (by rw [h.brPos, htotal]; exact hend)]
      exact hpos.raise _
  · have hend : s.work.brPos ≠ s.work.total := fun hend => by
      have hle := h.cursor
      rw [h.brPos, hend] at hle
      omega
    rw [if_neg hend]
    exact .failed hshort (by rw [raise_status]; exact nofun)

theorem Agree.lzssStep (hS : s.StreamInv) : Follows short (lzssStep s) (lzssStep u) := by
  cases hf : s.work.fsm with
  | readControl =>
    rw [lzssStep_readControl hf, lzssStep_readControl (h.fsm.trans hf)]
    exact h.readControl
  | emitLiteral =>
    rw [lzssStep_emitLiteral hf, lzssStep_emitLiteral (h.fsm.trans hf)]
    exact h.emitLiteral
  | emitMatch =>
    cases hc : s.work.copying with
    | true =>
      rw [lzssStep_copyStep hf hc, lzssStep_copyStep (h.fsm.trans hf) (h.copying.trans hc)]
      exact h.copyStep hf hc (hS.matchOffset hf)
    | false =>
      rw [lzssStep_enterMatch hf hc, lzssStep_enterMatch (h.fsm.trans hf) (h.copying.trans hc)]
      exact h.enterMatch hf
  | terminated =>
    rw [lzssStep_terminated hf, lzssStep_terminated (h.fsm.trans hf)]
    exact h.terminated
  | invalid => exact absurd hf hS.notInvalid

end

/-! ### Two runs -/

theorem repeat_microStep_follows {short : Prop} (n : Nat) {s u : State} (h : Agree short s u) (hs : Streaming s)
    (hu : Streaming u) : Follows short (repeatFlow n microStep s) (repeatFlow n microStep u) := by
  induction n generalizing s u with
  | zero => exact .go h
  | succ n ih =>
    rw [repeatFlow_succ, repeatFlow_succ, microStep_stream hs.decoding, microStep_stream hu.decoding]
    have hstep := h.lzssStep hs.inv
    have hleads := lzssStep_leads hs
    have hleadu := lzssStep_leads hu
    generalize lzssStep s = x at hstep hleads
    generalize lzssStep u = y at hstep hleadu
    cases hstep with
    | go hgo => exact ih hgo hleads.1.1 hleadu.1.1
    | stop hshort hsame => exact .stop hshort hsame
    | cut hshort hstatus => exact .cut hshort hstatus
    | failed hshort hstatus => exact .failed hshort hstatus

/-- The runs from two states that agree, to their ends. -/
theorem streamRun_follows {short : Prop} {s u t v : State} (hps : s.par.wf) (hpu : u.par.wf) (hs : s.streamAccepted)
    (hu : u.streamAccepted) (h : Agree short (decompressBegun s) (decompressBegun u))
    (ht : streamRun (decompressBegun s) = .stop t) (hv : streamRun (decompressBegun u) = .stop v) :
    Follows short (.stop t) (.stop v) := by
  obtain ⟨m, hm⟩ := decompressBegun_steps hps hs stepsTokens_microStep
  obtain ⟨n, hn⟩ := decompressBegun_steps hpu hu stepsTokens_microStep
  have hrun := repeat_microStep_follows (max m n) h (streaming_decompressBegun hps hs) (streaming_decompressBegun hpu hu)
  rwa [repeatFlow_stop_le (hm.trans ht) (Nat.le_max_left m n), repeatFlow_stop_le (hn.trans hv) (Nat.le_max_right m n)]
    at hrun

/-- Two starts that agree on the parameters and on the bytes both have. -/
theorem agree_decompressBegun {short : Prop} {s u : State} (hs : (decompressBegun s).StreamInv)
    (hu : (decompressBegun u).StreamInv) (hpar : u.par = s.par) (hi : u.regs.indexSize = s.regs.indexSize)
    (hl : u.regs.lengthSize = s.regs.lengthSize) (hm : u.regs.minLength = s.regs.minLength)
    (hw : u.regs.initWidx = s.regs.initWidx)
    (hlen : ¬ short ∧ u.regs.inLen = s.regs.inLen
      ∨ short ∧ s.par.pastEnd = .failFast ∧ u.regs.inLen.toNat < s.regs.inLen.toNat)
    (hdata : ∀ i, i < u.regs.inLen.toNat → u.readData i = s.readData i) :
    Agree short (decompressBegun s) (decompressBegun u) where
  par := hpar
  op := rfl
  op' := rfl
  indexSize := congrArg BitVec.toNat hi
  lengthSize := congrArg BitVec.toNat hl
  minLength := congrArg BitVec.toNat hm
  fsm := rfl
  copying := rfl
  brPos := rfl
  windowSize := congrArg (fun n : BitVec 5 => BitVec.ofNat 14 (2 ^ n.toNat)) hi
  wcur := congrArg (fun n : Word => BitVec.ofNat 13 n.toNat) hw
  optr := rfl
  moff := nofun
  mcnt := nofun
  ends := by
    have hts : (decompressBegun s).work.total.toNat = 8 * s.regs.inLen.toNat := hs.total
    have htu : (decompressBegun u).work.total.toNat = 8 * u.regs.inLen.toNat := hu.total
    refine hlen.imp (fun hfull => ⟨hfull.1, BitVec.eq_of_toNat_eq ?_⟩) fun hcut => ⟨hcut.1, hcut.2.1, ?_⟩
    · rw [hts, htu, hfull.2]
    · have := hcut.2.2
      omega
  cursor := Nat.zero_le _
  bits q hq := by
    have htu : (decompressBegun u).work.total.toNat = 8 * u.regs.inLen.toNat := hu.total
    unfold State.streamBit
    rw [show (decompressBegun u).readData (q / 8) = u.readData (q / 8) from rfl, hdata _ (by omega)]
    rfl
  win x hx := by
    have hwin (r : State) (hr : r.regs.indexSize = s.regs.indexSize) :
        (decompressBegun r).readWin x = r.par.windowInitAt x := by
      have hfill := readWin_fillWin (decompressChecked r) (2 ^ r.indexSize) x
      rw [if_pos (by rw [State.indexSize, hr]; exact hx)] at hfill
      exact hfill
    rw [hwin u hi, hwin s rfl, hpar]
  out i hi := absurd hi (Nat.not_lt_zero i)

theorem sameResult_rejected (s u : State) : SameResult ((decompressChecked s).raise .outOfRange false)
    ((decompressChecked u).raise .outOfRange false) := by
  rw [raise_stream _ _ _ rfl, raise_stream _ _ _ rfl]
  exact ⟨rfl, rfl, rfl, fun i hi => absurd hi (Nat.not_lt_zero i)⟩

/-- Settles O39: the two runs go step by step together. -/
theorem decompressDependsOnInputOnly : Obligations.DecompressDependsOnInputOnly := by
  unfold Obligations.DecompressDependsOnInputOnly
  intro s₁ s₂ t₁ t₂ hpar hwf hlen hi hl hm hw hdata h₁ h₂
  have hsame : SameResult t₁ t₂ := by
    have hb₁ := exec_decompress_idle h₁
    have hb₂ := exec_decompress_idle h₂
    have hok : s₂.streamAccepted ↔ s₁.streamAccepted := by
      unfold State.streamAccepted badParams State.indexSize State.lengthSize State.initWidx
      rw [hpar, hlen, hi, hl, hw]
    by_cases hok₁ : s₁.streamAccepted
    · have hok₂ := hok.mpr hok₁
      have hwf₂ : s₂.par.wf := hpar ▸ hwf
      obtain ⟨r₁, hrun₁, hexec₁, -⟩ := exec_decompress_accepted hwf hb₁ hok₁
      obtain ⟨r₂, hrun₂, hexec₂, -⟩ := exec_decompress_accepted hwf₂ hb₂ hok₂
      rw [hexec₁] at h₁
      rw [hexec₂] at h₂
      cases h₁
      cases h₂
      have hagree : Agree False (decompressBegun s₁) (decompressBegun s₂) :=
        agree_decompressBegun (streaming_decompressBegun hwf hok₁).inv (streaming_decompressBegun hwf₂ hok₂).inv hpar.symm
          hi.symm hl.symm hm.symm hw.symm (.inl ⟨not_false, hlen.symm⟩) fun i hin => (hdata i (by rw [hlen]; exact hin)).symm
      cases streamRun_follows hwf hwf₂ hok₁ hok₂ hagree hrun₁ hrun₂ with
      | stop _ hsame => exact hsame
      | cut hshort => exact hshort.elim
      | failed hshort => exact hshort.elim
    · rw [exec_decompress_rejected hb₁ hok₁] at h₁
      rw [exec_decompress_rejected hb₂ (hok.not.mpr hok₁)] at h₂
      cases h₁
      cases h₂
      exact sameResult_rejected s₁ s₂
  exact ⟨hsame.status.symm, hsame.outLen.symm, hsame.bitpos.symm, fun i hin => (hsame.out i hin).symm⟩

/-- The same machine asked for another length. -/
def State.withLength (s : State) (n : Word) : State := { s with regs := { s.regs with inLen := n } }

/-- Settles O44: the shorter stream's run is cut off before the other's END, which stands behind every bit. -/
theorem truncatedStreamsFail : Obligations.TruncatedStreamsFail := by
  unfold Obligations.TruncatedStreamsFail
  intro s t n hp hff h hdone hlen
  have hb := exec_decompress_idle h
  by_cases hok : s.streamAccepted
  · have hok' : (s.withLength n).streamAccepted := by
      obtain ⟨hfits, hgood⟩ := hok
      exact ⟨show n.toNat ≤ s.par.inCapacity by omega, hgood⟩
    obtain ⟨r, hrun, hexec, -⟩ := exec_decompress_accepted hp hb hok
    obtain ⟨u, hrunu, hexecu, -⟩ :=
      exec_decompress_accepted (s := s.withLength n) hp hb hok'
    rw [hexec] at h
    cases h
    have hagree : Agree True (decompressBegun s) (decompressBegun (s.withLength n)) :=
      agree_decompressBegun (streaming_decompressBegun hp hok).inv
        (streaming_decompressBegun (s := s.withLength n) hp hok').inv rfl rfl rfl rfl rfl
        (.inr ⟨trivial, hff, show n.toNat < s.regs.inLen.toNat by omega⟩) fun i _ => rfl
    refine ⟨u, hexecu, ?_⟩
    cases streamRun_follows (u := s.withLength n) hp hp hok hok' hagree hrun hrunu with
    | stop hshort => exact absurd trivial hshort
    | cut _ hstatus => exact hstatus
    | failed _ hstatus => exact absurd hdone hstatus
  · rw [exec_decompress_rejected hb hok] at h
    cases h
    rw [raise_status] at hdone
    cases hdone

end Sys2Proof.Machine
end
